-- ==== Sys2Proof/Word.lean ====
section
/-! DEFINITION. The words of sub004 CORE: command words, bytes and pixels (spec/00_scope.md R6, R7). -/

namespace Sys2Proof

/-- A word of a command packet: 32 bits (R6, R90). -/
abbrev Word := BitVec 32

/-- A byte: 8 bits (R7). -/
abbrev Byte := BitVec 8

/-- A pixel element. The spec's pixel is an opaque `PIX_W`-bit word with `PIX_W` an open parameter that is an
argument of the model (R6, R41, U8); no rule computes on one, so it is held as the number its bits make.
DESIGN CHOICE, safe (log 2): that it stays below `2 ^ PIX_W` is an invariant of the state. -/
abbrev Pixel := Nat

/-- Names one byte sink that may be attached to the sink port (R20, R26); nothing but equality is asked of it (log 13). -/
abbrev SinkId := Nat

end Sys2Proof
end

