-- ==== Sys2Proof/Config.lean ====
section
/-! DEFINITION. What an implementation fixes, and the free values: constants with no body, of which nothing can be proved
(spec/93_implementation_defined.md U1, U3, U4, U5, U8). -/

namespace Sys2Proof

/-- The sink's answer to one sink write (R67). -/
inductive SinkAnswer where
  /-- The sink has accepted exactly the bytes presented, in order (R69). -/
  | ok
  /-- The sink has failed; what it kept is unspecified (R69, U2). -/
  | fail
  deriving DecidableEq, Repr

/-- `PIX_W - 1`, free: `PIX_W` is an open parameter, any integer from 1 (R6, U8, log 1). -/
opaque Config.pixWLessOne : Nat

/-- `PIX_W` of the machine that `State.reset` is the reset state of (R6, log 1). -/
def Config.pixW : Nat := Config.pixWLessOne + 1

/-- `MAX_PIXELS - 1`, free: `MAX_PIXELS` is an open parameter, `1 ≤ MAX_PIXELS < 2^62` (R6, U8, log 1). -/
opaque Config.maxPixelsLessOne : Fin 4611686018427387903

/-- `MAX_PIXELS` of the machine that `State.reset` is the reset state of (R6, log 1). -/
def Config.maxPixels : Nat := Config.maxPixelsLessOne.val + 1

/-- The sink attached to the sink port at a reset, numbered by the packer's epoch (R26, R230, D30, log 13). -/
opaque Config.attachedSink : Nat → SinkId

/-- The sink's answer at a draw past the end of the listed answers; `none` is a sink that never answers
(R67, R242, U5, U7, log 4). -/
opaque Config.sinkReply : Nat → Option SinkAnswer

/-- What an element of `InternalBuffer` with no listed value holds, by epoch and index (R40, U1, U3, log 3). -/
opaque Config.freeBufferByte : Nat → Nat → Byte

/-- What an element of `SRC` with no listed value holds, by epoch and index (R40, R80, U4, log 3). -/
opaque Config.freeSrcPixel : Nat → Nat → Nat

/-- What an element of `DST` with no listed value holds, by epoch and index (R40, U4, log 3). -/
opaque Config.freeDstPixel : Nat → Nat → Nat

/-- `bufferPosition` after a failed sink write, by epoch (R27, U1, log 6). -/
opaque Config.freeBufferPosition : Nat → BitVec 9

/-- `pendingByte` after a failed sink write, by epoch (R27, U1, log 6). -/
opaque Config.freePendingByte : Nat → Byte

/-- `bitsRemaining` after a failed sink write, by epoch (R27, U1, log 6). -/
opaque Config.freeBitsRemaining : Nat → BitVec 4

end Sys2Proof
end

