-- ==== Sys2Proof/Syntax.lean ====
section
/-! DEFINITION. The commands of sub004 CORE: one constructor per row of spec/opcode_table.json (R93). -/

namespace Sys2Proof

/-- A command with its operands, as decoding delivers it (R105). -/
inductive Instr where
  /-- `BP.WRITEBIT bit` (R95, R123). -/
  | bpWritebit (bit : Bool)
  /-- `BP.WRITE value, nbits`: a 32-bit pattern and a signed count (R94, R96, R124). -/
  | bpWrite (value : Word) (nbits : Int)
  /-- `BP.FLUSH` (R125). -/
  | bpFlush
  /-- `RS.RESIZE org_width, org_height, width, height`, four signed integers; the pixel buffer is `SRC` by reference
  (R97, R104, R150). -/
  | rsResize (orgWidth orgHeight width height : Int)
  deriving DecidableEq, Repr

end Sys2Proof
end

