-- ==== Sys2Proof/WellFormed.lean ====
section
/-! DEFINITION. Well-formed commands: those whose operands the encoding's fields can hold (R94, R95, R96, R97, R105). -/

namespace Sys2Proof

/-- `nbits` fits the signed 8-bit field `NBITS` (R94). -/
def Instr.nbitsFits (nbits : Int) : Bool := decide (-128 ≤ nbits ∧ nbits ≤ 127)

/-- A dimension fits its signed 32-bit operand word (R97). -/
def Instr.dimFits (d : Int) : Bool := decide (-2147483648 ≤ d ∧ d ≤ 2147483647)

/-- The operands fit the fields of the command's format (R92). Whether a count or a dimension is legal is the
command's own check (R124, R152), not a matter of form. -/
def Instr.wf : Instr → Bool
  | .bpWritebit _ => true
  | .bpWrite _ nbits => nbitsFits nbits
  | .bpFlush => true
  | .rsResize orgWidth orgHeight width height =>
      dimFits orgWidth && dimFits orgHeight && dimFits width && dimFits height

end Sys2Proof
end

