-- ==== Sys2Proof/Decode.lean ====
section
/-! DEFINITION. Decoding of command packets and the encoder (spec/30_encoding.md R90 to R106). -/

namespace Sys2Proof

/-- Why a packet is illegal: the three cases of R99. All are answered with `IllegalCommand` (R194). -/
inductive DecodeError where
  /-- R99 (a): the packet is empty. -/
  | emptyPacket
  /-- R99 (b): the header matches no row of R93. -/
  | noSuchHeader
  /-- R99 (c): the packet's length is not the length of its opcode. -/
  | wrongLength
  deriving DecidableEq, Repr

/-- One row of the opcode map: a header selects it when `W0 & mask = match` (R93). -/
structure HeaderRow where
  matchBits : Word
  maskBits : Word
  deriving DecidableEq, Repr

/-- The row of `BP.WRITEBIT` (R93). -/
def HeaderRow.writebit : HeaderRow := ⟨0x00000001#32, 0xFFFEFFFF#32⟩

/-- The row of `BP.WRITE` (R93). -/
def HeaderRow.write : HeaderRow := ⟨0x00000002#32, 0xFFFF00FF#32⟩

/-- The row of `BP.FLUSH` (R93). -/
def HeaderRow.flush : HeaderRow := ⟨0x00000003#32, 0xFFFFFFFF#32⟩

/-- The row of `RS.RESIZE` (R93). -/
def HeaderRow.resize : HeaderRow := ⟨0x00000010#32, 0xFFFFFFFF#32⟩

/-- The header selects the row (R93). -/
def HeaderRow.selects (r : HeaderRow) (w0 : Word) : Bool := w0 &&& r.maskBits == r.matchBits

/-- `OPC = W0[7:0]` (R91). -/
def opcField (w0 : Word) : Byte := w0.extractLsb' 0 8

/-- `sext_8(W0[15:8])` (R94). -/
def nbitsField (w0 : Word) : Int := (w0.extractLsb' 8 8 : Byte).toInt

/-- `BIT = W0[16]` (R95). -/
def bitField (w0 : Word) : Bool := w0.getLsbD 16

/-- `sext_32` of an operand word (R97). -/
def dimWord (w : Word) : Int := w.toInt

/-- The number of words that an opcode requires, where one is defined (R98). -/
def packetLength (opc : Byte) : Option Nat :=
  if opc = 0x01#8 then some 1
  else if opc = 0x02#8 then some 2
  else if opc = 0x03#8 then some 1
  else if opc = 0x10#8 then some 5
  else none

/-- Decoding, total on packets and independent of the state (R101, R105). -/
def decode : List Word → Except DecodeError Instr
  | [] => .error .emptyPacket
  | w0 :: operands =>
    if HeaderRow.writebit.selects w0 then
      match operands with
      | [] => .ok (.bpWritebit (bitField w0))
      | _ => .error .wrongLength
    else if HeaderRow.write.selects w0 then
      match operands with
      | [w1] => .ok (.bpWrite w1 (nbitsField w0))
      | _ => .error .wrongLength
    else if HeaderRow.flush.selects w0 then
      match operands with
      | [] => .ok .bpFlush
      | _ => .error .wrongLength
    else if HeaderRow.resize.selects w0 then
      match operands with
      | [w1, w2, w3, w4] => .ok (.rsResize (dimWord w1) (dimWord w2) (dimWord w3) (dimWord w4))
      | _ => .error .wrongLength
    else .error .noSuchHeader

/-- The packet of a command, by the assembler's table (R92, R102): `nbits` modulo 256 in `W0[15:8]`, each dimension
modulo `2^32` in its operand word. -/
def encode : Instr → List Word
  | .bpWritebit bit => [0x00000001#32 ||| (if bit then 0x00010000#32 else 0#32)]
  | .bpWrite value nbits => [0x00000002#32 ||| ((BitVec.ofInt 8 nbits).zeroExtend 32 <<< 8), value]
  | .bpFlush => [0x00000003#32]
  | .rsResize orgWidth orgHeight width height =>
      [0x00000010#32, BitVec.ofInt 32 orgWidth, BitVec.ofInt 32 orgHeight, BitVec.ofInt 32 width, BitVec.ofInt 32 height]

/-- The first `n` 32-bit words of a number, least significant word first. -/
def wordsOf : Nat → Nat → List Word
  | 0, _ => []
  | n + 1, w => BitVec.ofNat 32 w :: wordsOf n (w / 4294967296)

/-- The packet whose bits are `w`, numbered as spec/opcode_table.json numbers them (word 0 least significant): as long
as its opcode requires, longer when the table gives more bits, and one word for an opcode with no length (log 17). -/
def tablePacket (nbits w : Nat) : List Word :=
  let bits := w % 2 ^ nbits
  let required := (packetLength (BitVec.ofNat 8 bits)).getD 1
  wordsOf (max required ((nbits + 31) / 32)) bits

/-- What `decode` reads from an instruction whose bits are `w` (bits above `nbits` zero). -/
def decodeTableWord (nbits w : Nat) : Option Instr :=
  match decode (tablePacket nbits w) with
  | .ok i => some i
  | .error _ => none

end Sys2Proof
end

