-- ==== Sys2Proof/Machine/State.lean ====
section
/-! DEFINITION. The state of sub004 CORE as plain data, its reset value, and the reasons a step can stop
(spec/10_state.md, spec/20_memory.md). -/

namespace Sys2Proof.Machine

/-- A memory: pairs of index and element, indices strictly rising. An unlisted element has no value of the model's: it is
unspecified, and a read of it gives a free value (R40, U3, U4, log 3). `Memory Byte` is a list of `Host.Cell`. -/
abbrev Memory (α : Type) := List (Nat × α)

/-- The canonical form: indices strictly rise. No entry can equal what its index would read as unlisted, because that is
no value of the model's (log 3). -/
def Memory.wf {α : Type} : Memory α → Bool
  | [] => true
  | [_] => true
  | a :: b :: m => decide (a.1 < b.1) && Memory.wf (b :: m)

/-- The open parameters of the block, arguments of the model and constant for a machine (R6, U8, log 1). -/
structure Params where
  /-- `PIX_W`, bits of a pixel element. -/
  pixW : Nat
  /-- `MAX_PIXELS`, elements in each of `SRC` and `DST`. -/
  maxPixels : Nat
  deriving DecidableEq, Repr

/-- The BitPacker's state (R20). -/
structure BitPacker where
  /-- `InternalBuffer`, 256 bytes (R21). -/
  internalBuffer : Memory Byte
  /-- `bufferPosition`, 9 bits (R22). -/
  bufferPosition : BitVec 9
  /-- `pendingByte`, 8 bits (R23, R25). -/
  pendingByte : Byte
  /-- `bitsRemaining`, 4 bits (R24). -/
  bitsRemaining : BitVec 4
  /-- `sink`, the binding made at reset (R26). -/
  sink : SinkId
  /-- `bpFault` (R27, R37). -/
  bpFault : Bool
  /-- The model's own: counts the events that make this unit's unspecified items unspecified anew (log 6). -/
  epoch : Nat
  deriving DecidableEq, Repr

/-- Which memory holds the result of the last `Resize` that ended OK (R30, R33). -/
inductive ResultSel where
  | none
  | src
  | dst
  deriving DecidableEq, Repr

/-- The Resampler's state (R30). Its working registers are locals of the command (R34). -/
structure Resampler where
  /-- `SRC` (R31). -/
  src : Memory Pixel
  /-- `srcLen` (R31). -/
  srcLen : Nat
  /-- `DST` (R32). -/
  dst : Memory Pixel
  /-- `dstLen` (R32). -/
  dstLen : Nat
  /-- `resultSel` (R33). -/
  resultSel : ResultSel
  /-- `resultLen` (R33). -/
  resultLen : Nat
  /-- The model's own: counts the events (load, reset) that make elements of `SRC` unspecified anew (log 3). -/
  srcEpoch : Nat
  /-- The model's own: counts the events (reset) that make elements of `DST` unspecified anew (log 3). -/
  dstEpoch : Nat
  deriving DecidableEq, Repr

/-- One sink write as `sinkLog` records it (R70), with the sink it went to (R20). -/
structure SinkEvent where
  sink : SinkId
  bytes : List Byte
  answer : SinkAnswer
  deriving DecidableEq, Repr

/-- The sink port: what went out, and what the sink will answer. -/
structure SinkPort where
  /-- `sinkLog` since reset, oldest first (R70). -/
  log : List SinkEvent
  /-- The sink's next answers, an input; `none` is a sink that never answers (R67, R242, U5, log 4). -/
  replies : List (Option SinkAnswer)
  /-- The model's own: answers taken from `Config.sinkReply` so far (log 4). -/
  draws : Nat
  deriving DecidableEq, Repr

/-- What the host can do (R80, R90). -/
inductive HostMove where
  /-- Issue a command: one framed packet on the command port (R90). -/
  | command (packet : List Word)
  /-- `HostLoadSource(p)`. -/
  | loadSource (pixels : List Pixel)
  /-- `HostWriteSourcePixel(i, v)`. -/
  | writeSourcePixel (index : Nat) (value : Pixel)
  /-- `HostReadResult()`. -/
  | readResult
  /-- `HostReset()` (R230). -/
  | reset
  deriving DecidableEq, Repr

/-- What the host gets back (R80, R190, R234). -/
inductive HostReply where
  /-- The completion record of a command: an 8-bit status code (R190). -/
  | completion (status : BitVec 8)
  /-- The answer to `HostReadResult`: `resultSel`, `resultLen` and the result's pixels (R80). -/
  | result (sel : ResultSel) (len : Nat) (pixels : List Pixel)
  deriving DecidableEq, Repr

/-- The host's side of the block. -/
structure HostPort where
  /-- The host's moves still to come, next first (R77, R80, log 8). -/
  inputs : List HostMove
  /-- What the host has received, oldest first (R190, log 9). -/
  outputs : List HostReply
  /-- A command waits for a sink that does not answer (R205, R242, U7, log 5). -/
  blocked : Bool
  deriving DecidableEq, Repr

/-- The machine's state: the parameters, the two units, which share nothing (R2), and the two ports. -/
structure State where
  params : Params
  bp : BitPacker
  rs : Resampler
  sinkPort : SinkPort
  hostPort : HostPort
  deriving DecidableEq, Repr

/-- Why a step stops with a fault. The spec says that none of these accesses occurs (R60, R73), and none does from a
state that meets `State.Inv`. -/
inductive Fault where
  /-- Raised by `commitPending`, `sinkWrite` and every BP command: an index of `InternalBuffer` above 255. Safe (log 11). -/
  | bufferIndex
  /-- Raised by `readSrc`, in RS.RESIZE and in reading the result: an index of `SRC` from `MAX_PIXELS` on. Safe (log 11). -/
  | srcIndex
  /-- Raised by `readDst` and `writeDst`, in RS.RESIZE and in reading the result: an index of `DST` from `MAX_PIXELS` on.
  Safe (log 11). -/
  | dstIndex
  deriving DecidableEq, Repr

/-- Why a step is refused. -/
inductive Refusal where
  /-- Raised by `exec` for an instruction with no meaning yet; none is left. Safe. -/
  | notModelled (mnemonic : String)
  /-- Raised by `hostLoadSource`: the host loads more than `MAX_PIXELS` pixels, for which there is no move (R80, U9).
  Safe (log 12). -/
  | hostLoadTooLong
  /-- Raised by `hostWriteSourcePixel`: the index is not below `srcLen`, which R80 requires. Safe (log 12). -/
  | hostPixelIndex
  /-- Raised by `hostLoadSource` and `hostWriteSourcePixel`: a number that is no `PIX_W`-bit pixel (R41). Safe (log 12). -/
  | hostPixelTooWide
  deriving DecidableEq, Repr

/-- The BitPacker right after a reset (R40), the `epoch`-th of its life. -/
def BitPacker.afterReset (epoch : Nat) : BitPacker :=
  { internalBuffer := [], bufferPosition := 0, pendingByte := 0, bitsRemaining := 8,
    sink := Config.attachedSink epoch, bpFault := false, epoch := epoch }

/-- The Resampler right after a reset (R40), with the epochs of its two memories. -/
def Resampler.afterReset (srcEpoch dstEpoch : Nat) : Resampler :=
  { src := [], srcLen := 0, dst := [], dstLen := 0, resultSel := .none, resultLen := 0,
    srcEpoch := srcEpoch, dstEpoch := dstEpoch }

/-- The state right after reset of a machine with the given parameters (R40, R230): at rest, nothing logged, and no host
move, host reply or sink answer listed (log 4, log 8, log 9). -/
def State.resetOf (params : Params) : State :=
  { params := params
    bp := BitPacker.afterReset 0
    rs := Resampler.afterReset 0 0
    sinkPort := { log := [], replies := [], draws := 0 }
    hostPort := { inputs := [], outputs := [], blocked := false } }

/-- The state right after reset (R40, R230), for the free parameters of `Config` (log 1). -/
def State.reset : State := State.resetOf { pixW := Config.pixW, maxPixels := Config.maxPixels }

/-- `s` with the BitPacker `b`. -/
def State.setBp (s : State) (b : BitPacker) : State := { s with bp := b }

/-- `s` with the Resampler `r`. -/
def State.setRs (s : State) (r : Resampler) : State := { s with rs := r }

/-- `s` with the sink port `p`. -/
def State.setSinkPort (s : State) (p : SinkPort) : State := { s with sinkPort := p }

/-- `s` with the host port `p`. -/
def State.setHostPort (s : State) (p : HostPort) : State := { s with hostPort := p }

end Sys2Proof.Machine
end

