-- ==== Sys2Proof/Machine/Flags.lean ====
section
/-! DEFINITION. The one status flag, `bpFault` (R27, R37, R120), and the status codes of completion records (R190). -/

namespace Sys2Proof.Machine

/-- How a command ends (R190). -/
inductive Status where
  | ok
  | sinkWriteFailed
  | invalidDimensions
  | invalidBitCount
  | illegalCommand
  | packerUnusable
  | outputCapacityExceeded
  deriving DecidableEq, Repr

/-- The 8-bit code of a status (R190). -/
def Status.code : Status → BitVec 8
  | .ok => 0
  | .sinkWriteFailed => 1
  | .invalidDimensions => 2
  | .invalidBitCount => 3
  | .illegalCommand => 4
  | .packerUnusable => 5
  | .outputCapacityExceeded => 6

/-- The status rejects the command: codes 2 to 6 (R190, R199). -/
def Status.isRejection : Status → Bool
  | .ok => false
  | .sinkWriteFailed => false
  | .invalidDimensions => true
  | .invalidBitCount => true
  | .illegalCommand => true
  | .packerUnusable => true
  | .outputCapacityExceeded => true

/-- What the gate of every BP command tests (R120). -/
def packerUsable (s : State) : Bool := !s.bp.bpFault

/-- `bpFault <- 1`, by a failed sink write only (R27, R121). -/
def BitPacker.latchFault (b : BitPacker) : BitPacker := { b with bpFault := true }

end Sys2Proof.Machine
end

