-- ==== Sys2Proof/Machine/Operands.lean ====
section
/-! DEFINITION. Operand forms: what each command takes from its operands (R94 to R97, R124, R127, R151, R152). -/

namespace Sys2Proof.Machine

/-- `(value >> i) & 1`, the bit that `BP.WRITE` writes for index `i` (R8, R96, R127). -/
def valueBit (value : Word) (i : Nat) : Bool := (value >>> i).getLsbD 0

/-- The bits `BP.WRITE value, n` writes, in the order it writes them: `value[n-1]` down to `value[0]` (R64, R124). -/
def valueBits (value : Word) : Nat → List Bool
  | 0 => []
  | n + 1 => valueBit value n :: valueBits value n

/-- `nbits` is legal: 0 to `NBITS_MAX` = 32 (R94, R124). -/
def nbitsLegal (nbits : Int) : Bool := decide (0 ≤ nbits ∧ nbits ≤ 32)

/-- All four dimensions are positive (R152). -/
def dimsPositive (orgWidth orgHeight width height : Int) : Bool :=
  decide (0 < orgWidth ∧ 0 < orgHeight ∧ 0 < width ∧ 0 < height)

/-- The dimensions have the shape of the fast path: unchanged width and unchanged height (R153). -/
def dimsIdentical (orgWidth orgHeight width height : Int) : Bool :=
  decide (orgWidth = width ∧ orgHeight = height)

/-- A number that is a `PIX_W`-bit pixel element (R41). -/
def pixelFits (p : Params) (v : Pixel) : Bool := decide (v < 2 ^ p.pixW)

end Sys2Proof.Machine
end

