-- ==== Sys2Proof/Machine/Ops.lean ====
section
/-! DEFINITION. The shared operations: memories, ending a command, and the procedures of the two units that touch memory
(R9, R60, R121, R122, R190, R200). -/

namespace Sys2Proof.Machine

/-- The listed value of element `i`, if it has one. -/
def Memory.get? {α : Type} : Memory α → Nat → Option α
  | [], _ => none
  | (j, v) :: m, i => if i = j then some v else Memory.get? m i

/-- `MemRead` (R9): the listed value of element `i`, or what an unlisted element reads as, which is a free value
(R40, U3, U4, log 3). -/
def Memory.read {α : Type} (unlisted : Nat → α) (m : Memory α) (i : Nat) : α :=
  (Memory.get? m i).getD (unlisted i)

/-- `MemWrite` (R9). -/
def Memory.write {α : Type} : Memory α → Nat → α → Memory α
  | [], i, v => [(i, v)]
  | (j, w) :: m, i, v =>
    if i < j then (i, v) :: (j, w) :: m
    else if i = j then (i, v) :: m
    else (j, w) :: Memory.write m i v

/-- The memory that lists exactly the elements of `vs`, from index `base` on. -/
def Memory.ofList {α : Type} (base : Nat) : List α → Memory α
  | [] => []
  | v :: vs => (base, v) :: Memory.ofList (base + 1) vs

/-- How a procedure of a command goes on: to the next statement, or not. -/
inductive Flow where
  /-- The next statement runs in this state. -/
  | go (s : State)
  /-- The command runs no further: it has raised a condition, or it waits for the sink. -/
  | ended (s : State)
  /-- The machine stops. -/
  | fault (r : Fault)
  deriving DecidableEq, Repr

/-- One statement after another. -/
def Flow.andThen : Flow → (State → Flow) → Flow
  | .go s, f => f s
  | .ended s, _ => .ended s
  | .fault r, _ => .fault r

/-- Deliver the completion record of a command (R190, R206). -/
def State.complete (s : State) (status : Status) : State :=
  s.setHostPort { s.hostPort with outputs := s.hostPort.outputs ++ [.completion status.code] }

/-- `raise <Condition>` (R9, R200): the command ends here with that condition in its completion record. Nothing else is
saved and control goes nowhere; there is no return (R200, R201). -/
def raise (status : Status) (s : State) : Flow := .ended (s.complete status)

/-- The outcome of a command whose procedures flowed so: reaching its end is `complete OK` (R9). -/
def Flow.finish : Flow → Host.Outcome State Fault Refusal
  | .go s => .next (s.complete .ok)
  | .ended s => .next s
  | .fault r => .fault r

/-- The outcome of a command rejected before any effect (R9 `reject`, R199). -/
def reject (status : Status) (s : State) : Host.Outcome State Fault Refusal := .next (s.complete status)

/-- Element `i` of `InternalBuffer`. -/
def BitPacker.bufferByte (b : BitPacker) (i : Nat) : Byte :=
  Memory.read (Config.freeBufferByte b.epoch) b.internalBuffer i

/-- `InternalBuffer[0 .. n-1]` in index order (R65). -/
def BitPacker.bufferPrefix (b : BitPacker) (n : Nat) : List Byte := (List.range n).map b.bufferByte

/-- The four items that a failed sink write leaves unspecified become free values (R27, U1, log 6). -/
def BitPacker.unspecify (b : BitPacker) : BitPacker :=
  { b with
    internalBuffer := []
    bufferPosition := Config.freeBufferPosition (b.epoch + 1)
    pendingByte := Config.freePendingByte (b.epoch + 1)
    bitsRemaining := Config.freeBitsRemaining (b.epoch + 1)
    epoch := b.epoch + 1 }

/-- The buffer is reset: `bufferPosition <- 0` and nothing else (R121). -/
def BitPacker.resetBuffer (b : BitPacker) : BitPacker := { b with bufferPosition := 0 }

/-- The pending-byte state is reset: an empty byte (R125). -/
def BitPacker.startByte (b : BitPacker) : BitPacker := { b with pendingByte := 0, bitsRemaining := 8 }

/-- One draw from the sink's oracle (R67, U5): the next listed answer, or a free one (log 4). -/
def SinkPort.draw (p : SinkPort) : Option SinkAnswer × SinkPort :=
  match p.replies with
  | r :: rest => (r, { p with replies := rest })
  | [] => (Config.sinkReply p.draws, { p with draws := p.draws + 1 })

/-- Record a sink write (R70). -/
def SinkPort.record (p : SinkPort) (e : SinkEvent) : SinkPort := { p with log := p.log ++ [e] }

/-- The command waits for a sink that does not answer: no completion record, and no further command (R205, R242, log 5). -/
def State.block (s : State) : State := s.setHostPort { s.hostPort with blocked := true }

/-- The effects of a sink write the sink has answered (R121). -/
def sinkAnswered (event : SinkEvent) (s : State) : Flow :=
  let logged := s.setSinkPort (s.sinkPort.record event)
  match event.answer with
  | .ok => .go (logged.setBp logged.bp.resetBuffer)
  | .fail => raise .sinkWriteFailed (logged.setBp logged.bp.latchFault.unspecify)

/-- `SinkWrite(n)` (R67, R121): present `InternalBuffer[0 .. n-1]` as one write and take the sink's answer. -/
def sinkWrite (n : Nat) (s : State) : Flow :=
  if n ≤ 256 then
    match s.sinkPort.draw with
    | (none, p) => .ended (s.setSinkPort p).block
    | (some answer, p) =>
      sinkAnswered { sink := s.bp.sink, bytes := s.bp.bufferPrefix n, answer := answer } (s.setSinkPort p)
  else .fault .bufferIndex

/-- The new BitPacker state of `CommitPending` (R122). -/
def BitPacker.commit (b : BitPacker) : BitPacker :=
  { b with
    internalBuffer := Memory.write b.internalBuffer b.bufferPosition.toNat b.pendingByte
    bufferPosition := b.bufferPosition + 1
    pendingByte := 0
    bitsRemaining := 8 }

/-- `CommitPending()` (R122), called only with `bufferPosition ≤ 255`. -/
def commitPending (s : State) : Flow :=
  if s.bp.bufferPosition.toNat ≤ 255 then .go (s.setBp s.bp.commit) else .fault .bufferIndex

/-- What an unlisted element of `SRC` holds, cut to a pixel element (log 3). -/
def Resampler.freeSrc (p : Params) (r : Resampler) (i : Nat) : Pixel := Config.freeSrcPixel r.srcEpoch i % 2 ^ p.pixW

/-- What an unlisted element of `DST` holds, cut to a pixel element (log 3). -/
def Resampler.freeDst (p : Params) (r : Resampler) (i : Nat) : Pixel := Config.freeDstPixel r.dstEpoch i % 2 ^ p.pixW

/-- `SRC[i]` (R9, R60). -/
def readSrc (p : Params) (r : Resampler) (i : Nat) : Except Fault Pixel :=
  if i < p.maxPixels then .ok (Memory.read (r.freeSrc p) r.src i) else .error .srcIndex

/-- `DST[i]` (R9, R60). -/
def readDst (p : Params) (r : Resampler) (i : Nat) : Except Fault Pixel :=
  if i < p.maxPixels then .ok (Memory.read (r.freeDst p) r.dst i) else .error .dstIndex

/-- `DST[i] <- v` (R9, R60). -/
def writeDst (p : Params) (r : Resampler) (i : Nat) (v : Pixel) : Except Fault Resampler :=
  if i < p.maxPixels then .ok { r with dst := Memory.write r.dst i v } else .error .dstIndex

/-- The `n` elements that `read` gives from index `i` on, in index order. -/
def readRun (read : Nat → Except Fault Pixel) : Nat → Nat → Except Fault (List Pixel)
  | _, 0 => .ok []
  | i, n + 1 =>
    match read i with
    | .error e => .error e
    | .ok v =>
      match readRun read (i + 1) n with
      | .error e => .error e
      | .ok vs => .ok (v :: vs)

end Sys2Proof.Machine
end

