-- ==== Sys2Proof/Machine/BitPacker.lean ====
section
/-! DEFINITION. The BitPacker's commands (spec/40_bitpacker.md). -/

namespace Sys2Proof.Machine

/-- The last two statements of `PutBit` (R137): the bit goes to the position of the decremented `bitsRemaining`. -/
def BitPacker.insert (bit : Bool) (b : BitPacker) : BitPacker :=
  let remaining := b.bitsRemaining - 1
  { b with
    bitsRemaining := remaining
    pendingByte := b.pendingByte ||| ((if bit then 1#8 else 0#8) <<< remaining.toNat) }

/-- The first statement of `PutBit` (R137): a full pending byte is moved out, and a buffer this fills is written. -/
def makeRoom (s : State) : Flow :=
  if s.bp.bitsRemaining = 0 then
    (commitPending s).andThen fun s' => if s'.bp.bufferPosition = 256 then sinkWrite 256 s' else .go s'
  else .go s

/-- `PutBit(bit)` (R137). -/
def putBit (bit : Bool) (s : State) : Flow :=
  (makeRoom s).andThen fun s' => .go (s'.setBp (s'.bp.insert bit))

/-- `PutBit` of each bit in order. -/
def putBits : List Bool → State → Flow
  | [], s => .go s
  | b :: bs, s => (putBit b s).andThen (putBits bs)

/-- `BP.WRITEBIT` (R123). -/
def execBpWritebit (bit : Bool) (s : State) : Host.Outcome State Fault Refusal :=
  if packerUsable s then (putBit bit s).finish else reject .packerUnusable s

/-- `BP.WRITE` (R124). -/
def execBpWrite (value : Word) (nbits : Int) (s : State) : Host.Outcome State Fault Refusal :=
  if packerUsable s then
    if nbitsLegal nbits then (putBits (valueBits value nbits.toNat) s).finish else reject .invalidBitCount s
  else reject .packerUnusable s

/-- The part of `BP.FLUSH` before its sink write (R125): commit what is pending, then the empty pending byte. -/
def flushPending (s : State) : Flow :=
  (if s.bp.bitsRemaining.toNat < 8 then commitPending s else .go s).andThen fun s' =>
    .go (s'.setBp s'.bp.startByte)

/-- `BP.FLUSH` (R125). -/
def execBpFlush (s : State) : Host.Outcome State Fault Refusal :=
  if packerUsable s then
    ((flushPending s).andThen fun s' =>
      if 0 < s'.bp.bufferPosition.toNat then sinkWrite s'.bp.bufferPosition.toNat s' else .go s').finish
  else reject .packerUnusable s

end Sys2Proof.Machine
end

