-- ==== Sys2Proof/Machine/Resampler.lean ====
section
/-! DEFINITION. The Resampler's command (spec/41_resampler.md). Its working registers are locals of the command (R34): natural
numbers, since after `Validate` none but `last_row_pos` is ever negative (R166, log 16). -/

namespace Sys2Proof.Machine

/-- The constants of one command (R154). -/
structure ResizeSteps where
  /-- `row_step` -/
  row : Nat
  /-- `row_fraction_step` -/
  rowFraction : Nat
  /-- `col_step` -/
  col : Nat
  /-- `col_fraction_step` -/
  colFraction : Nat
  deriving DecidableEq, Repr

/-- The registers of the row loop, with the Resampler they work on (R155). -/
structure RowRegs where
  rs : Resampler
  vfrac : Nat
  sourceRowPos : Nat
  lastRowPos : Int
  destPos : Nat
  deriving DecidableEq, Repr

/-- The registers of the column loop, with the Resampler they work on (R158). -/
structure ColRegs where
  rs : Resampler
  hfrac : Nat
  sourcePos : Nat
  destPos : Nat
  deriving DecidableEq, Repr

/-- `Precompute` (R154). -/
def precompute (orgWidth orgHeight width height : Nat) : ResizeSteps :=
  { row := (orgHeight / height) * orgWidth
    rowFraction := orgHeight % height
    col := orgWidth / width
    colFraction := orgWidth % width }

/-- `InitAccumulators` (R155). -/
def initAccumulators (r : Resampler) : RowRegs :=
  { rs := r, vfrac := 0, sourceRowPos := 0, lastRowPos := -1, destPos := 0 }

/-- The element copies of `CopyPrevRow` (R157): `n` elements of `DST`, from index `src` on, to index `dst` on. -/
def copyElements (p : Params) : Nat → Nat → Nat → Resampler → Except Fault Resampler
  | 0, _, _, r => .ok r
  | n + 1, src, dst, r =>
    match readDst p r src with
    | .error e => .error e
    | .ok v =>
      match writeDst p r dst v with
      | .error e => .error e
      | .ok r' => copyElements p n (src + 1) (dst + 1) r'

/-- `CopyPrevRow(r)` (R157). -/
def copyPrevRow (p : Params) (width row : Nat) (g : RowRegs) : Except Fault RowRegs :=
  match copyElements p width ((row - 1) * width) (row * width) g.rs with
  | .error e => .error e
  | .ok r => .ok { g with rs := r, destPos := g.destPos + width }

/-- The registers after one column (R158). -/
def advanceColumn (width : Nat) (steps : ResizeSteps) (g : ColRegs) : ColRegs :=
  let hfrac := g.hfrac + steps.colFraction
  let sourcePos := g.sourcePos + steps.col
  if width ≤ hfrac then { g with destPos := g.destPos + 1, hfrac := hfrac - width, sourcePos := sourcePos + 1 }
  else { g with destPos := g.destPos + 1, hfrac := hfrac, sourcePos := sourcePos }

/-- The column loop of `ComputeRow` (R158), for the columns that are left. -/
def computeColumns (p : Params) (width : Nat) (steps : ResizeSteps) : Nat → ColRegs → Except Fault ColRegs
  | 0, g => .ok g
  | n + 1, g =>
    match readSrc p g.rs g.sourcePos with
    | .error e => .error e
    | .ok v =>
      match writeDst p g.rs g.destPos v with
      | .error e => .error e
      | .ok r => computeColumns p width steps n (advanceColumn width steps { g with rs := r })

/-- `ComputeRow(r)` (R158). -/
def computeRow (p : Params) (width : Nat) (steps : ResizeSteps) (g : RowRegs) : Except Fault RowRegs :=
  match computeColumns p width steps width
      { rs := g.rs, hfrac := 0, sourcePos := g.sourceRowPos, destPos := g.destPos } with
  | .error e => .error e
  | .ok c => .ok { g with rs := c.rs, destPos := c.destPos, lastRowPos := g.sourceRowPos }

/-- `AdvanceVertical` (R159). -/
def advanceVertical (orgWidth height : Nat) (steps : ResizeSteps) (g : RowRegs) : RowRegs :=
  let vfrac := g.vfrac + steps.rowFraction
  let sourceRowPos := g.sourceRowPos + steps.row
  if height ≤ vfrac then { g with vfrac := vfrac - height, sourceRowPos := sourceRowPos + orgWidth }
  else { g with vfrac := vfrac, sourceRowPos := sourceRowPos }

/-- One destination row: copied when the source row has not moved, computed otherwise (R150, R157, R158). -/
def produceRow (p : Params) (width : Nat) (steps : ResizeSteps) (row : Nat) (g : RowRegs) : Except Fault RowRegs :=
  if (g.sourceRowPos : Int) = g.lastRowPos then copyPrevRow p width row g else computeRow p width steps g

/-- The row loop (R150, R156), for the `n` rows from `row` on. -/
def resizeRows (p : Params) (orgWidth width height : Nat) (steps : ResizeSteps) :
    Nat → Nat → RowRegs → Except Fault RowRegs
  | 0, _, g => .ok g
  | n + 1, row, g =>
    match produceRow p width steps row g with
    | .error e => .error e
    | .ok g' => resizeRows p orgWidth width height steps n (row + 1) (advanceVertical orgWidth height steps g')

/-- The general path (R150) on valid dimensions, up to its completion. -/
def resizeGeneral (p : Params) (orgWidth orgHeight width height : Nat) (r : Resampler) : Except Fault Resampler :=
  match resizeRows p orgWidth width height (precompute orgWidth orgHeight width height) height 0 (initAccumulators r) with
  | .error e => .error e
  | .ok g => .ok { g.rs with dstLen := width * height, resultSel := .dst, resultLen := width * height }

/-- `Validate` (R152): the condition that rejects the command, if one does. -/
def validate (orgWidth orgHeight width height : Int) (s : State) : Option Status :=
  if dimsPositive orgWidth orgHeight width height then
    if orgWidth * orgHeight = s.rs.srcLen then
      if width * height ≤ s.params.maxPixels then none else some .outputCapacityExceeded
    else some .invalidDimensions
  else some .invalidDimensions

/-- `RS.RESIZE` (R150). -/
def execRsResize (orgWidth orgHeight width height : Int) (s : State) : Host.Outcome State Fault Refusal :=
  match validate orgWidth orgHeight width height s with
  | some status => reject status s
  | none =>
    if dimsIdentical orgWidth orgHeight width height then
      .next ((s.setRs { s.rs with resultSel := .src, resultLen := s.rs.srcLen }).complete .ok)
    else
      match resizeGeneral s.params orgWidth.toNat orgHeight.toNat width.toNat height.toNat s.rs with
      | .error e => .fault e
      | .ok r => .next ((s.setRs r).complete .ok)

end Sys2Proof.Machine
end

