-- ==== Sys2Proof/Machine/Dispatch.lean ====
section
/-! DEFINITION. `exec`: the meaning of each command, one arm per row of spec/opcode_table.json (R93). -/

namespace Sys2Proof.Machine

def exec (i : Instr) (s : State) : Host.Outcome State Fault Refusal :=
  match i with
  | .bpWritebit bit => Sys2Proof.Machine.execBpWritebit bit s
  | .bpWrite value nbits => Sys2Proof.Machine.execBpWrite value nbits s
  | .bpFlush => Sys2Proof.Machine.execBpFlush s
  | .rsResize orgWidth orgHeight width height => Sys2Proof.Machine.execRsResize orgWidth orgHeight width height s

end Sys2Proof.Machine
end

