-- ==== Sys2Proof/Machine/HostPort.lean ====
section
/-! DEFINITION. The host's moves other than a legal command (R80, R194, R230). -/

namespace Sys2Proof.Machine

/-- An illegal packet is answered with `IllegalCommand` and changes nothing (R99, R194). -/
def illegalCommand (s : State) : Host.Outcome State Fault Refusal := reject .illegalCommand s

/-- `HostLoadSource(p)` (R80): `SRC` lists exactly `p`, its other elements are unspecified anew (log 3). -/
def hostLoadSource (pixels : List Pixel) (s : State) : Host.Outcome State Fault Refusal :=
  if pixels.length ≤ s.params.maxPixels then
    if pixels.all (pixelFits s.params) then
      .next (s.setRs { s.rs with
        src := Memory.ofList 0 pixels, srcLen := pixels.length, srcEpoch := s.rs.srcEpoch + 1 })
    else .refused .hostPixelTooWide
  else .refused .hostLoadTooLong

/-- `HostWriteSourcePixel(i, v)` with `i < srcLen` (R80). -/
def hostWriteSourcePixel (index : Nat) (value : Pixel) (s : State) : Host.Outcome State Fault Refusal :=
  if index < s.rs.srcLen then
    if pixelFits s.params value then .next (s.setRs { s.rs with src := Memory.write s.rs.src index value })
    else .refused .hostPixelTooWide
  else .refused .hostPixelIndex

/-- The pixels `HostReadResult` returns (R80). -/
def resultPixels (s : State) : Except Fault (List Pixel) :=
  match s.rs.resultSel with
  | .none => .ok []
  | .src => readRun (readSrc s.params s.rs) 0 s.rs.resultLen
  | .dst => readRun (readDst s.params s.rs) 0 s.rs.resultLen

/-- `HostReadResult()` (R80). -/
def hostReadResult (s : State) : Host.Outcome State Fault Refusal :=
  match resultPixels s with
  | .error e => .fault e
  | .ok pixels =>
    .next (s.setHostPort { s.hostPort with
      outputs := s.hostPort.outputs ++ [.result s.rs.resultSel s.rs.resultLen pixels] })

/-- `HostReset()` (R230, R231, R242): every piece of the block's state takes its reset value, `sinkLog` is emptied and a
waiting command is gone. What is not the block's stays: the parameters, the sink's answers to come, the host's moves to
come and what the host has received (log 7). -/
def hostReset (s : State) : Host.Outcome State Fault Refusal :=
  .next
    { params := s.params
      bp := BitPacker.afterReset (s.bp.epoch + 1)
      rs := Resampler.afterReset (s.rs.srcEpoch + 1) (s.rs.dstEpoch + 1)
      sinkPort := { s.sinkPort with log := [] }
      hostPort := { s.hostPort with blocked := false } }

end Sys2Proof.Machine
end

