-- ==== Sys2Proof/Machine/Step.lean ====
section
/-! DEFINITION. One step: the block takes the host's next move and carries it out whole (R3, R77, R80). -/

namespace Sys2Proof.Machine

/-- A packet on the command port: decoded, then executed; an illegal one is rejected before any unit is involved
(R90, R105, R194). -/
def runPacket (packet : List Word) (s : State) : Host.Outcome State Fault Refusal :=
  match decode packet with
  | .ok i => exec i s
  | .error _ => illegalCommand s

/-- One move of the host (R80). -/
def runMove : HostMove → State → Host.Outcome State Fault Refusal
  | .command packet, s => runPacket packet s
  | .loadSource pixels, s => hostLoadSource pixels s
  | .writeSourcePixel index value, s => hostWriteSourcePixel index value s
  | .readResult, s => hostReadResult s
  | .reset, s => hostReset s

/-- `s` after the block has taken the move at the head of the queue. -/
def State.dequeue (s : State) (rest : List HostMove) : State := s.setHostPort { s.hostPort with inputs := rest }

/-- One step. With no move to come the block stays at rest (R28). While a command waits for a silent sink the block takes
no move but `HostReset` (R242, log 5). Otherwise it takes the next move and carries it out. -/
def step (s : State) : Host.Outcome State Fault Refusal :=
  match s.hostPort.inputs with
  | [] => .next s
  | m :: rest => if s.hostPort.blocked ∧ m ≠ .reset then .next s else runMove m (s.dequeue rest)

/-- `s` with the command whose bits are `w` as the host's very next move, and no command waiting, so that the next step
runs exactly it (log 8, log 17). -/
def State.withFetchWord (s : State) (nbits w : Nat) : State :=
  s.setHostPort { s.hostPort with
    inputs := .command (tablePacket nbits w) :: s.hostPort.inputs, blocked := false }

end Sys2Proof.Machine
end

