-- ==== Sys2Proof/Safety.lean ====
section
/-! DEFINITION. What counts as a good state and a good run, in the terms claims use: the invariants of both units, the bit
string the BitPacker holds and has sent (R128), and runs of commands. -/

namespace Sys2Proof

/-- A command of the BitPacker. -/
def Instr.isPacker : Instr → Bool
  | .bpWritebit _ => true
  | .bpWrite _ _ => true
  | .bpFlush => true
  | .rsResize _ _ _ _ => false

/-- What a command that ends OK appends to the logical bit string whose length is `len` (R128): its bits, or for a flush the
zeros up to a multiple of 8. -/
def Instr.appendedBits (len : Nat) : Instr → List Bool
  | .bpWritebit bit => [bit]
  | .bpWrite value nbits => (List.range nbits.toNat).map fun k => value.getLsbD (nbits.toNat - 1 - k)
  | .bpFlush => List.replicate ((8 - len % 8) % 8) false
  | .rsResize _ _ _ _ => []

/-- The number of bytes a command of the BitPacker commits, at rest with `remaining` positions unfilled (R122, R125, R137). -/
def Instr.commits (remaining : Nat) : Instr → Nat
  | .bpWritebit _ => if remaining = 0 then 1 else 0
  | .bpWrite _ nbits => (nbits.toNat - remaining + 7) / 8
  | .bpFlush => if remaining < 8 then 1 else 0
  | .rsResize _ _ _ _ => 0

end Sys2Proof

namespace Sys2Proof.Machine

/-- Every listed element has an index below `n`. -/
def Memory.below {α : Type} (n : Nat) (m : Memory α) : Prop := ∀ c ∈ m, c.1 < n

/-- Every element below `n` is listed. -/
def Memory.listed {α : Type} (m : Memory α) (n : Nat) : Prop := ∀ i, i < n → (Memory.get? m i).isSome

/-- The parameters are admissible (R6). -/
structure Params.Inv (p : Params) : Prop where
  pixW_pos : 1 ≤ p.pixW
  maxPixels_pos : 1 ≤ p.maxPixels
  maxPixels_lt : p.maxPixels < 2 ^ 62

/-- `InternalBuffer` is a memory with indices 0 to 255 (R21, R60). -/
structure BitPacker.Inv (b : BitPacker) : Prop where
  wf : Memory.wf b.internalBuffer = true
  below : Memory.below 256 b.internalBuffer

/-- The BitPacker at rest without a fault (R22, R24, R25, R29, R134, U3). -/
structure BitPacker.AtRest (b : BitPacker) : Prop where
  /-- `bitsRemaining ≤ 8` (R24, R29). -/
  remaining_le : b.bitsRemaining.toNat ≤ 8
  /-- `bufferPosition ≤ 255` (R22, R29). -/
  position_le : b.bufferPosition.toNat ≤ 255
  /-- `pendingByte[bitsRemaining-1 : 0] = 0` (R25). -/
  unfilled_zero : ∀ i, i < b.bitsRemaining.toNat → b.pendingByte.getLsbD i = false
  /-- `bufferPosition > 0` implies `bitsRemaining < 8` (R134). -/
  pending_of_committed : 0 < b.bufferPosition.toNat → b.bitsRemaining.toNat < 8
  /-- Every element below `bufferPosition` has been written by a commit (R21, U3). -/
  committed_listed : Memory.listed b.internalBuffer b.bufferPosition.toNat

/-- The Resampler's memories and lengths are in their ranges (R30), every element of the buffer in `SRC` and of the output
in `DST` has been written (R31, R32), and the descriptor agrees with them (R33). -/
structure Resampler.Inv (p : Params) (r : Resampler) : Prop where
  src_wf : Memory.wf r.src = true
  dst_wf : Memory.wf r.dst = true
  src_below : Memory.below p.maxPixels r.src
  dst_below : Memory.below p.maxPixels r.dst
  src_pixels : ∀ c ∈ r.src, c.2 < 2 ^ p.pixW
  dst_pixels : ∀ c ∈ r.dst, c.2 < 2 ^ p.pixW
  srcLen_le : r.srcLen ≤ p.maxPixels
  dstLen_le : r.dstLen ≤ p.maxPixels
  resultLen_le : r.resultLen ≤ p.maxPixels
  src_listed : Memory.listed r.src r.srcLen
  dst_listed : Memory.listed r.dst r.dstLen
  result_dst : r.resultSel = .dst → r.resultLen = r.dstLen
  result_none : r.resultSel = .none → r.resultLen = 0

/-- The machine's invariant. What the BitPacker holds after a failed sink write is unspecified (R27), and while a command
waits for the sink the BitPacker is not at rest (R242), so `AtRest` is claimed in neither case. -/
structure State.Inv (s : State) : Prop where
  params : s.params.Inv
  bp : s.bp.Inv
  rs : s.rs.Inv s.params
  atRest : s.bp.bpFault = false → s.hostPort.blocked = false → s.bp.AtRest

/-- The bits of a byte, bit 7 first (R63). -/
def byteBits (b : Byte) : List Bool := (List.range 8).map fun i => b.getLsbD (7 - i)

/-- `bits(B)` of R128: the bits of a byte sequence, each byte MSB-first. -/
def bitsOf (bytes : List Byte) : List Bool := bytes.flatMap byteBits

/-- The bytes an event adds to the sink stream (R70). -/
def SinkEvent.accepted (e : SinkEvent) : List Byte :=
  match e.answer with
  | .ok => e.bytes
  | .fail => []

/-- The sink stream (R70). -/
def SinkPort.stream (p : SinkPort) : List Byte := p.log.flatMap SinkEvent.accepted

/-- `pendingByte[7 : bitsRemaining]`, bit 7 first (R23). -/
def BitPacker.pendingBits (b : BitPacker) : List Bool := (byteBits b.pendingByte).take (8 - b.bitsRemaining.toNat)

/-- The bits the BitPacker holds: the committed bytes, then the pending bits (R78). -/
def BitPacker.heldBits (b : BitPacker) : List Bool :=
  bitsOf (b.bufferPrefix b.bufferPosition.toNat) ++ b.pendingBits

/-- The left side of the stream law: sink stream, committed bytes, pending bits (R128). -/
def State.writtenBits (s : State) : List Bool := bitsOf s.sinkPort.stream ++ s.bp.heldBits

/-- The number a bit string makes, first bit most significant (R135). -/
def bitsValue (bits : List Bool) : Nat := bits.foldl (fun n b => 2 * n + b.toNat) 0

/-- The BitPacker is usable and no command is waiting. -/
def State.ready (s : State) : Prop := s.bp.bpFault = false ∧ s.hostPort.blocked = false

/-- The next `n` answers of the sink are listed and are all `ok`. -/
def SinkPort.answersOk (p : SinkPort) (n : Nat) : Prop := p.replies.take n = List.replicate n (some .ok)

/-- An empty BitPacker (R129, R130): nothing pending, nothing committed. -/
def BitPacker.empty (b : BitPacker) : Prop :=
  b.bitsRemaining = 8 ∧ b.pendingByte = 0 ∧ b.bufferPosition = 0

/-- Commands one after another, as long as each answers a next state. The block takes no command while another waits for a
silent sink (R242), so a statement over a run says that none is left waiting at its end. -/
def runInstrs : List Instr → State → Host.Outcome State Fault Refusal
  | [], s => .next s
  | i :: is, s =>
    match exec i s with
    | .next s' => runInstrs is s'
    | .fault r => .fault r
    | .refused r => .refused r

/-- The source index that column `c` of destination row `r` samples (R161). -/
def sampleIndex (orgWidth orgHeight width height r c : Nat) : Nat :=
  r * orgHeight / height * orgWidth + c * orgWidth / width

/-- The pixel read at index `i` of `SRC`. -/
def Resampler.srcPixel (p : Params) (r : Resampler) (i : Nat) : Pixel := Memory.read (r.freeSrc p) r.src i

/-- The pixel read at index `i` of `DST`. -/
def Resampler.dstPixel (p : Params) (r : Resampler) (i : Nat) : Pixel := Memory.read (r.freeDst p) r.dst i

/-- The row loop of R150 with `ComputeRow` for every row (R163, U10). -/
def recomputeRows (p : Params) (orgWidth width height : Nat) (steps : ResizeSteps) : Nat → RowRegs → Except Fault RowRegs
  | 0, g => .ok g
  | n + 1, g =>
    match computeRow p width steps g with
    | .error e => .error e
    | .ok g' => recomputeRows p orgWidth width height steps n (advanceVertical orgWidth height steps g')

/-- The general path of `RS.RESIZE` without row reuse (R163, U10). -/
def resizeRecomputing (p : Params) (orgWidth orgHeight width height : Nat) (r : Resampler) : Except Fault Resampler :=
  match recomputeRows p orgWidth width height (precompute orgWidth orgHeight width height) height (initAccumulators r) with
  | .error e => .error e
  | .ok g => .ok { g.rs with dstLen := width * height, resultSel := .dst, resultLen := width * height }

/-- A state up to what the host has received. -/
def State.silent (s : State) : State := s.setHostPort { s.hostPort with outputs := [] }

end Sys2Proof.Machine
end

