-- ==== Sys2Proof/Certificates/Slice0/Obligations.lean ====
section
/-! DEFINITION. The statements for the provers, from the numbered rules of spec/. A docstring names the rule or section. -/

open Sys2Proof Sys2Proof.Machine

/-! ## Reset -/

/-- R40: the value of every piece of state after reset, for all parameters. An unspecified memory lists no value; the sink
bound is whatever sink is attached, a free value (log 13). -/
def Obligations.ResetLeavesTheValuesOfTheTable : Prop :=
  (∀ p : Params,
    (State.resetOf p).bp.bitsRemaining = 8 ∧ (State.resetOf p).bp.pendingByte = 0 ∧
    (State.resetOf p).bp.bufferPosition = 0 ∧ (∀ i, Memory.get? (State.resetOf p).bp.internalBuffer i = none) ∧
    (State.resetOf p).bp.bpFault = false ∧ (State.resetOf p).bp.sink = Config.attachedSink 0 ∧
    (∀ i, Memory.get? (State.resetOf p).rs.src i = none) ∧ (State.resetOf p).rs.srcLen = 0 ∧
    (∀ i, Memory.get? (State.resetOf p).rs.dst i = none) ∧ (State.resetOf p).rs.dstLen = 0 ∧
    (State.resetOf p).rs.resultSel = .none ∧ (State.resetOf p).rs.resultLen = 0) ∧
  State.reset = State.resetOf { pixW := Config.pixW, maxPixels := Config.maxPixels }

/-- Sections 1, 2 and 4 of spec/10_state.md: the reset state meets the invariant, for all admissible parameters, and the
free parameters of `Config` are admissible. -/
def Obligations.ResetMeetsTheInvariant : Prop :=
  (∀ p : Params, p.Inv → (State.resetOf p).Inv) ∧ State.reset.Inv

/-- R230 and R231: `HostReset` puts every piece of state at its reset value, binds the sink then attached (a free value, log
13) and empties `sinkLog`, from any state, also while a command waits for a silent sink; it writes nothing to the sink, so
takes no answer; the block is at rest afterwards. -/
def Obligations.HostResetRestoresTheResetState : Prop :=
  ∀ (s : State) (rest : List HostMove), s.hostPort.inputs = .reset :: rest →
    ∃ t, step s = .next t ∧
      t.bp.bitsRemaining = 8 ∧ t.bp.pendingByte = 0 ∧ t.bp.bufferPosition = 0 ∧ t.bp.bpFault = false ∧
      (∀ i, Memory.get? t.bp.internalBuffer i = none) ∧ t.bp.sink = Config.attachedSink (s.bp.epoch + 1) ∧
      (∀ i, Memory.get? t.rs.src i = none) ∧ (∀ i, Memory.get? t.rs.dst i = none) ∧
      t.rs.srcLen = 0 ∧ t.rs.dstLen = 0 ∧ t.rs.resultLen = 0 ∧ t.rs.resultSel = .none ∧
      t.sinkPort.log = [] ∧ t.sinkPort.replies = s.sinkPort.replies ∧ t.sinkPort.draws = s.sinkPort.draws ∧
      t.params = s.params ∧ t.hostPort.blocked = false

/-! ## Encoding -/

/-- The table of worked encodings of spec/30_encoding.md, section 4. -/
def Obligations.WorkedEncodingsDecode : Prop :=
  decode [0x00000001#32] = .ok (.bpWritebit false) ∧
  decode [0x00010001#32] = .ok (.bpWritebit true) ∧
  decode [0x00001002#32, 0x0000ABCD#32] = .ok (.bpWrite 0xABCD#32 16) ∧
  decode [0x00000302#32, 0x00000005#32] = .ok (.bpWrite 5#32 3) ∧
  decode [0x00002002#32, 0x80000001#32] = .ok (.bpWrite 0x80000001#32 32) ∧
  decode [0x00000002#32, 0xFFFFFFFF#32] = .ok (.bpWrite 0xFFFFFFFF#32 0) ∧
  decode [0x0000FF02#32, 0x00000007#32] = .ok (.bpWrite 7#32 (-1)) ∧
  decode [0x00002102#32, 0x00000007#32] = .ok (.bpWrite 7#32 33) ∧
  decode [0x00000003#32] = .ok .bpFlush ∧
  decode [0x00000010#32, 4#32, 4#32, 2#32, 2#32] = .ok (.rsResize 4 4 2 2) ∧
  decode [0x00000010#32, 1#32, 2#32, 1#32, 4#32] = .ok (.rsResize 1 2 1 4) ∧
  decode [0x00000010#32, 4#32, 4#32, 0#32, 2#32] = .ok (.rsResize 4 4 0 2) ∧
  decode [0x00000010#32, 4#32, 4#32, 0xFFFFFFFF#32, 2#32] = .ok (.rsResize 4 4 (-1) 2) ∧
  decode [0x00000000#32] = .error .noSuchHeader ∧
  decode [0x00010003#32] = .error .noSuchHeader ∧
  decode [0x00000003#32, 0x00000000#32] = .error .wrongLength ∧
  decode [0x00020001#32] = .error .noSuchHeader

/-- The last paragraph on decoding of spec/30_encoding.md, section 3 (the spec's own inference): decoding an encoded
well-formed command gives it back, for every value of every operand. -/
def Obligations.DecodeInvertsEncode : Prop :=
  ∀ i : Instr, i.wf = true → decode (encode i) = .ok i

/-- Spec/30_encoding.md, sections 1 to 3: a packet that decodes is the encoding of a well-formed command, so each packet has
one meaning and no bit of it is dropped. -/
def Obligations.EncodeInvertsDecode : Prop :=
  ∀ (packet : List Word) (i : Instr), decode packet = .ok i → i.wf = true ∧ encode i = packet

/-- R99: the illegal packets are exactly the empty one, those whose header matches no row, and those of the wrong length;
among them the all-zero header, and not a `BP.WRITE` whose `NBITS` is out of range. They are rejected with
`IllegalCommand` and change nothing. -/
def Obligations.DecodeRejectsExactlyTheIllegalPackets : Prop :=
  (∀ packet : List Word, (∃ e, decode packet = .error e) ↔
    packet = [] ∨
    (∃ w0 operands, packet = w0 :: operands ∧
      ((w0 &&& 0xFFFEFFFF#32 ≠ 0x00000001#32 ∧ w0 &&& 0xFFFF00FF#32 ≠ 0x00000002#32 ∧
          w0 &&& 0xFFFFFFFF#32 ≠ 0x00000003#32 ∧ w0 &&& 0xFFFFFFFF#32 ≠ 0x00000010#32) ∨
        packetLength (opcField w0) ≠ some packet.length))) ∧
  (∀ operands, ∃ e, decode (0#32 :: operands) = .error e) ∧
  (∀ w0 w1 : Word, w0 &&& 0xFFFF00FF#32 = 0x00000002#32 →
    decode [w0, w1] = .ok (.bpWrite w1 ((w0.extractLsb' 8 8).toInt))) ∧
  (∀ (packet : List Word) (e : DecodeError) (s : State), decode packet = .error e →
    runPacket packet s = .next (s.complete .illegalCommand))

/-- The header layout and the opcode map of spec/30_encoding.md, section 1: each match and mask pair reads the header fields
as the format says, and no header matches two rows. -/
def Obligations.OpcodeRowsReadTheHeaderFields : Prop :=
  ∀ w0 : Word,
    (HeaderRow.writebit.selects w0 = true ↔
      w0.extractLsb' 0 8 = 0x01#8 ∧ w0.extractLsb' 8 8 = 0#8 ∧ w0.extractLsb' 17 15 = 0#15) ∧
    (HeaderRow.write.selects w0 = true ↔
      w0.extractLsb' 0 8 = 0x02#8 ∧ w0.extractLsb' 16 1 = 0#1 ∧ w0.extractLsb' 17 15 = 0#15) ∧
    (HeaderRow.flush.selects w0 = true ↔
      w0.extractLsb' 0 8 = 0x03#8 ∧ w0.extractLsb' 8 8 = 0#8 ∧ w0.extractLsb' 16 1 = 0#1 ∧
        w0.extractLsb' 17 15 = 0#15) ∧
    (HeaderRow.resize.selects w0 = true ↔
      w0.extractLsb' 0 8 = 0x10#8 ∧ w0.extractLsb' 8 8 = 0#8 ∧ w0.extractLsb' 16 1 = 0#1 ∧
        w0.extractLsb' 17 15 = 0#15) ∧
    [HeaderRow.writebit, .write, .flush, .resize].Pairwise
      (fun a b => ¬ (a.selects w0 = true ∧ b.selects w0 = true))

/-- R98: the length of a packet is a function of its opcode alone, 1 word for 0x01 and 0x03, 2 for 0x02, 5 for 0x10, and
none for an illegal opcode. -/
def Obligations.PacketLengthFollowsTheOpcode : Prop :=
  packetLength 0x01#8 = some 1 ∧ packetLength 0x03#8 = some 1 ∧ packetLength 0x02#8 = some 2 ∧
  packetLength 0x10#8 = some 5 ∧
  (∀ opc : Byte, opc ≠ 0x01#8 → opc ≠ 0x02#8 → opc ≠ 0x03#8 → opc ≠ 0x10#8 → packetLength opc = none) ∧
  (∀ (w0 : Word) (operands : List Word) (i : Instr), decode (w0 :: operands) = .ok i →
    packetLength (w0.extractLsb' 0 8) = some (operands.length + 1))

/-- R194: an illegal packet is rejected with `IllegalCommand` by the decoder, before any unit is involved and so also while
the packer is unusable; no state changes but that the packet is taken and the record delivered. -/
def Obligations.IllegalPacketsAreRejected : Prop :=
  ∀ (s : State) (packet : List Word) (rest : List HostMove) (e : DecodeError),
    s.hostPort.inputs = .command packet :: rest → s.hostPort.blocked = false → decode packet = .error e →
    step s = .next ((s.dequeue rest).complete .illegalCommand)

/-! ## The step -/

/-- Spec/20_memory.md, sections 6 and R80's last row: at rest, a packet that decodes to a well-formed command runs that
command; the step itself only takes the packet from the host's queue. -/
def Obligations.StepRunsTheDecodedInstruction : Prop :=
  ∀ (s : State) (packet : List Word) (rest : List HostMove) (i : Instr),
    s.hostPort.inputs = .command packet :: rest → s.hostPort.blocked = false → i.wf = true →
    decode packet = .ok i → step s = exec i (s.dequeue rest)

/-- Spec/10_state.md on the packer's lifecycle and spec/70_reset_and_hazards.md on a silent sink: with no host move nothing
changes, and a block that waits for its sink takes no move but `HostReset`. -/
def Obligations.StepWaitsForTheHostAndTheSink : Prop :=
  (∀ s : State, s.hostPort.inputs = [] → step s = .next s) ∧
  (∀ (s : State) (m : HostMove) (rest : List HostMove),
    s.hostPort.inputs = m :: rest → s.hostPort.blocked = true → m ≠ .reset → step s = .next s)

/-! ## BitPacker -/

/-- R120: the BP commands are rejected with `PackerUnusable` exactly while `bpFault = 1`, changing nothing and writing
nothing, and no other command ever is; and only reset clears `bpFault`. -/
def Obligations.PackerUnusableExactlyWhileFaulted : Prop :=
  (∀ (i : Instr) (s : State),
    exec i s = .next (s.complete .packerUnusable) ↔ i.isPacker = true ∧ s.bp.bpFault = true) ∧
  (∀ s t : State, step s = .next t → s.bp.bpFault = true → t.bp.bpFault = false →
    ∃ rest, s.hostPort.inputs = .reset :: rest)

/-- Spec/40_bitpacker.md, sections 1 and 2: `BP.WRITEBIT` is its gate and `PutBit`. While `bpFault = 1` it is rejected.
Otherwise the bit goes below the bits already pending; a full byte is committed first; a commit that fills the buffer is
followed by one sink write of its 256 bytes before the bit is inserted; a sink that fails ends the command with
`SinkWriteFailed` and latches `bpFault`. The last clause, what the state is while a sink never answers (waiting, nothing
logged, no record), is the model's, DEDUCED from spec/60_exceptions.md and spec/70_reset_and_hazards.md (log 5). -/
def Obligations.WritebitFollowsPutBit : Prop :=
  ∀ (bit : Bool) (s : State),
    (s.bp.bpFault = true → exec (.bpWritebit bit) s = .next (s.complete .packerUnusable)) ∧
    (s.bp.bpFault = false →
    (s.bp.bitsRemaining ≠ 0 →
      exec (.bpWritebit bit) s = .next ((s.setBp { s.bp with
        bitsRemaining := s.bp.bitsRemaining - 1
        pendingByte := s.bp.pendingByte ||| ((if bit then 1#8 else 0#8) <<< (s.bp.bitsRemaining - 1).toNat) }).complete
          .ok)) ∧
    (s.bp.bitsRemaining = 0 → s.bp.bufferPosition.toNat < 255 →
      exec (.bpWritebit bit) s = .next ((s.setBp { s.bp with
        internalBuffer := Memory.write s.bp.internalBuffer s.bp.bufferPosition.toNat s.bp.pendingByte
        bufferPosition := s.bp.bufferPosition + 1
        pendingByte := if bit then 0x80#8 else 0#8
        bitsRemaining := 7 }).complete .ok)) ∧
    (s.bp.bitsRemaining = 0 → s.bp.bufferPosition.toNat = 255 → s.sinkPort.draw.1 = some .ok →
      exec (.bpWritebit bit) s = .next (((s.setSinkPort (s.sinkPort.draw.2.record
        { sink := s.bp.sink, bytes := s.bp.bufferPrefix 255 ++ [s.bp.pendingByte], answer := .ok })).setBp { s.bp with
          internalBuffer := Memory.write s.bp.internalBuffer 255 s.bp.pendingByte
          bufferPosition := 0
          pendingByte := if bit then 0x80#8 else 0#8
          bitsRemaining := 7 }).complete .ok)) ∧
    (s.bp.bitsRemaining = 0 → s.bp.bufferPosition.toNat = 255 → s.sinkPort.draw.1 = some .fail →
      ∃ t, exec (.bpWritebit bit) s = .next t ∧ t.bp.bpFault = true ∧
        t.sinkPort = s.sinkPort.draw.2.record
          { sink := s.bp.sink, bytes := s.bp.bufferPrefix 255 ++ [s.bp.pendingByte], answer := .fail } ∧
        t.hostPort.outputs = s.hostPort.outputs ++ [.completion 1]) ∧
    (s.bp.bitsRemaining = 0 → s.bp.bufferPosition.toNat = 255 → s.sinkPort.draw.1 = none →
      ∃ t, exec (.bpWritebit bit) s = .next t ∧ t.bp.bpFault = false ∧ t.hostPort.blocked = true ∧
        t.sinkPort.log = s.sinkPort.log ∧ t.hostPort.outputs = s.hostPort.outputs))

/-- R124: `BP.WRITE`. The gate, then the operand check, both without effect; then `PutBit` of `value[nbits-1]` down to
`value[0]`, given here as its first turn: `PutBit` of the top bit, and from where that leaves the machine the same command
with one bit fewer, unless it ended the command. With `nbits = 0` nothing happens but the completion. -/
def Obligations.WriteFollowsItsPseudocode : Prop :=
  ∀ (value : Word) (s : State),
    (s.bp.bpFault = true → ∀ nbits, exec (.bpWrite value nbits) s = .next (s.complete .packerUnusable)) ∧
    (s.bp.bpFault = false →
      (∀ nbits, nbits < 0 ∨ 32 < nbits → exec (.bpWrite value nbits) s = .next (s.complete .invalidBitCount)) ∧
      exec (.bpWrite value 0) s = .next (s.complete .ok) ∧
      (∀ n : Nat, n < 32 → exec (.bpWrite value (n + 1)) s =
        match putBit (value.getLsbD n) s with
        | .go t => exec (.bpWrite value n) t
        | .ended t => .next t
        | .fault r => .fault r))

/-- Spec/40_bitpacker.md, sections 2 and 3 (the stream law is the spec's own inference): at rest, with `nbits` in 0 to 32 and
an `ok` listed for the one sink write it may need, `BP.WRITE` completes OK and appends `value[nbits-1]` down to
`value[0]`. -/
def Obligations.WriteAppendsItsBits : Prop :=
  ∀ (value : Word) (nbits : Nat) (s : State), s.bp.AtRest → s.ready → nbits ≤ 32 →
    (s.sinkPort.answersOk 1 ∨ s.bp.heldBits.length + nbits ≤ 2048) →
    ∃ t, exec (.bpWrite value nbits) s = .next t ∧
      t.writtenBits = s.writtenBits ++ (List.range nbits).map (fun k => value.getLsbD (nbits - 1 - k)) ∧
      t.bp.AtRest ∧ t.ready ∧ t.hostPort.outputs = s.hostPort.outputs ++ [.completion 0]

/-- Section 3 of spec/40_bitpacker.md, "Write is its bits" (the spec's own inference): when no sink write fails, `BP.WRITE`
and the `BP.WRITEBIT`s of its bits have the same effect, state and sink log; only the number of completion records
differs. -/
def Obligations.WriteIsItsBits : Prop :=
  ∀ (value : Word) (nbits : Nat) (s : State), s.ready → nbits ≤ 32 →
    (∀ t, exec (.bpWrite value nbits) s = .next t → t.ready →
      ∃ t', runInstrs (((List.range nbits).map fun k => value.getLsbD (nbits - 1 - k)).map .bpWritebit) s = .next t' ∧
        t'.silent = t.silent) ∧
    (∀ t', runInstrs (((List.range nbits).map fun k => value.getLsbD (nbits - 1 - k)).map .bpWritebit) s = .next t' →
      t'.ready → ∃ t, exec (.bpWrite value nbits) s = .next t ∧ t'.silent = t.silent)

/-- R193: `InvalidBitCount` is raised exactly by `BP.WRITE` with `nbits < 0` or `nbits > 32` once the gate is passed, and
changes nothing. -/
def Obligations.InvalidBitCountExactly : Prop :=
  ∀ (i : Instr) (s : State), exec i s = .next (s.complete .invalidBitCount) ↔
    ∃ value nbits, i = .bpWrite value nbits ∧ s.bp.bpFault = false ∧ (nbits < 0 ∨ 32 < nbits)

/-- R96: `value` is the second word of the packet, and its bits from `nbits` on are ignored. -/
def Obligations.WriteIgnoresHigherBits : Prop :=
  (∀ (w0 w1 : Word) (i : Instr), decode [w0, w1] = .ok i → ∃ nbits, i = .bpWrite w1 nbits) ∧
  (∀ (v v' : Word) (nbits : Int) (s : State),
    (∀ i : Nat, (i : Int) < nbits → v.getLsbD i = v'.getLsbD i) →
    exec (.bpWrite v nbits) s = exec (.bpWrite v' nbits) s)

/-- R135: writing `value` and reading the emitted bits back, MSB-first, gives the low `nbits` bits of `value`. -/
def Obligations.WriteReadsBack : Prop :=
  ∀ (value : Word) (nbits : Nat) (s t : State), nbits ≤ 32 → s.bp.AtRest → s.ready →
    exec (.bpWrite value nbits) s = .next t → t.ready →
    ∃ bits, t.writtenBits = s.writtenBits ++ bits ∧ bits.length = nbits ∧
      bitsValue bits = value.toNat % 2 ^ nbits

/-- Spec/40_bitpacker.md, section 2: `BP.FLUSH`, past the gate from any state whose buffer has room. A pending byte is
committed as it is, the pending byte is reset, and everything committed goes to the sink in one write; nothing committed
means no write. The last clause, what the state is while a sink never answers (waiting, nothing logged, no record), is the
model's, DEDUCED from spec/60_exceptions.md and spec/70_reset_and_hazards.md (log 5). -/
def Obligations.FlushFollowsItsPseudocode : Prop :=
  ∀ s : State,
    (s.bp.bpFault = true → exec .bpFlush s = .next (s.complete .packerUnusable)) ∧
    (s.bp.bpFault = false → s.bp.bufferPosition.toNat ≤ 255 → ∀ b : BitPacker,
      b = { (if s.bp.bitsRemaining.toNat < 8 then { s.bp with
              internalBuffer := Memory.write s.bp.internalBuffer s.bp.bufferPosition.toNat s.bp.pendingByte
              bufferPosition := s.bp.bufferPosition + 1 }
            else s.bp) with pendingByte := 0, bitsRemaining := 8 } →
      (b.bufferPosition = 0 → exec .bpFlush s = .next ((s.setBp b).complete .ok)) ∧
      (b.bufferPosition ≠ 0 → s.sinkPort.draw.1 = some .ok →
        exec .bpFlush s = .next (((s.setSinkPort (s.sinkPort.draw.2.record
          { sink := s.bp.sink, bytes := b.bufferPrefix b.bufferPosition.toNat, answer := .ok })).setBp
            { b with bufferPosition := 0 }).complete .ok)) ∧
      (b.bufferPosition ≠ 0 → s.sinkPort.draw.1 = some .fail →
        ∃ t, exec .bpFlush s = .next t ∧ t.bp.bpFault = true ∧
          t.sinkPort = s.sinkPort.draw.2.record
            { sink := s.bp.sink, bytes := b.bufferPrefix b.bufferPosition.toNat, answer := .fail } ∧
          t.hostPort.outputs = s.hostPort.outputs ++ [.completion 1]) ∧
      (b.bufferPosition ≠ 0 → s.sinkPort.draw.1 = none →
        ∃ t, exec .bpFlush s = .next t ∧ t.bp.bpFault = false ∧ t.hostPort.blocked = true ∧
          t.sinkPort.log = s.sinkPort.log ∧ t.hostPort.outputs = s.hostPort.outputs))

/-- Section 3 of spec/40_bitpacker.md, "Flush postcondition and idempotency" (the spec's own inference): after a flush that
ends OK the packer is empty, and a second flush writes nothing and changes nothing. -/
def Obligations.FlushTwiceIsOneFlush : Prop :=
  ∀ s t : State, s.bp.AtRest → s.ready → exec .bpFlush s = .next t → t.ready →
    t.bp.empty ∧ exec .bpFlush t = .next (t.complete .ok)

/-- Section 3 of spec/40_bitpacker.md, "Stream law" (the spec's own inference), as a base and a step. Right after reset, and
right after `HostReset`, no bit is written. From any state at rest, a command that ends OK appends its bits (an `RS.RESIZE`
none) to the sink stream, the committed bytes and the pending bits taken together; the length law holds; a flush leaves
everything in the sink stream; and the packer is at rest again. A rejected packet appends nothing, and no more does any
step that takes neither a command nor `HostReset`. -/
def Obligations.StreamLaw : Prop :=
  (∀ p : Params, (State.resetOf p).writtenBits = [] ∧ (State.resetOf p).bp.AtRest ∧ (State.resetOf p).ready) ∧
  (∀ (s t : State) (rest : List HostMove), s.hostPort.inputs = .reset :: rest → step s = .next t →
    t.writtenBits = [] ∧ t.bp.AtRest ∧ t.ready) ∧
  (∀ (i : Instr) (s t : State), s.bp.AtRest → s.ready → exec i s = .next t → t.ready →
    t.hostPort.outputs = s.hostPort.outputs ++ [.completion 0] →
    t.writtenBits = s.writtenBits ++ i.appendedBits s.writtenBits.length ∧
    t.writtenBits.length =
      8 * t.sinkPort.stream.length + 8 * t.bp.bufferPosition.toNat + (8 - t.bp.bitsRemaining.toNat) ∧
    (i = .bpFlush → bitsOf t.sinkPort.stream = t.writtenBits) ∧
    t.bp.AtRest) ∧
  (∀ (packet : List Word) (s t : State) (c : BitVec 8), runPacket packet s = .next t →
    t.hostPort.outputs = s.hostPort.outputs ++ [.completion c] → 2 ≤ c.toNat → t.writtenBits = s.writtenBits) ∧
  (∀ s t : State, step s = .next t → (∀ packet rest, s.hostPort.inputs ≠ .command packet :: rest) →
    (∀ rest, s.hostPort.inputs ≠ .reset :: rest) → t.writtenBits = s.writtenBits)

/-- Section 3 of spec/40_bitpacker.md, "Byte count" (the spec's own inference): from an empty packer, legal writes of `N` bits
in any mixture and then a flush, none failing, add exactly those bits padded with zeros, in `ceil(N / 8)` bytes. -/
def Obligations.FlushedBytesAreTheBitsPadded : Prop :=
  ∀ (writes : List Instr) (s t : State) (bits : List Bool),
    (∀ i ∈ writes, (∃ bit, i = .bpWritebit bit) ∨ (∃ value, ∃ nbits : Nat, nbits ≤ 32 ∧ i = .bpWrite value nbits)) →
    s.bp.empty → s.ready → runInstrs (writes ++ [.bpFlush]) s = .next t → t.ready →
    bits = writes.flatMap (Instr.appendedBits 0) →
    bitsOf t.sinkPort.stream =
      bitsOf s.sinkPort.stream ++ bits ++ List.replicate ((8 - bits.length % 8) % 8) false ∧
    t.sinkPort.stream.length = s.sinkPort.stream.length + (bits.length + 7) / 8

/-- Section 3 of spec/40_bitpacker.md, "When automatic sink writes happen" (the spec's own inference): from an empty packer,
legal writes of `N ≥ 1` bits in any mixture, with an `ok` listed for each sink write, all complete OK, with
`floor((N-1)/2048)` sink writes of 256 bytes, `bufferPosition = floor((N-1)/8) mod 256` and
`bitsRemaining = 7 - ((N-1) mod 8)`. -/
def Obligations.AutomaticSinkWritesFollowTheBitCount : Prop :=
  ∀ (writes : List Instr) (s : State) (N : Nat),
    (∀ i ∈ writes, (∃ bit, i = .bpWritebit bit) ∨ (∃ value, ∃ nbits : Nat, nbits ≤ 32 ∧ i = .bpWrite value nbits)) →
    N = (writes.flatMap (Instr.appendedBits 0)).length → s.bp.empty → s.ready → 1 ≤ N →
    s.sinkPort.answersOk ((N - 1) / 2048) →
    ∃ t events, runInstrs writes s = .next t ∧ t.ready ∧
      t.hostPort.outputs = s.hostPort.outputs ++ List.replicate writes.length (.completion 0) ∧
      t.sinkPort.log = s.sinkPort.log ++ events ∧ events.length = (N - 1) / 2048 ∧
      (∀ e ∈ events, e.answer = .ok ∧ e.bytes.length = 256 ∧ e.sink = s.bp.sink) ∧
      t.bp.bufferPosition.toNat = (N - 1) / 8 % 256 ∧
      t.bp.bitsRemaining.toNat = 7 - (N - 1) % 8

/-- Section 3 of spec/20_memory.md, "Lengths": at rest a BP command performs at most one sink write, to the bound sink, of
exactly 256 bytes for the writing commands and of 1 to 256 bytes, all committed ones, for a flush; never of length 0. -/
def Obligations.SinkWriteLengths : Prop :=
  ∀ (i : Instr) (s t : State), i.isPacker = true → s.bp.AtRest → exec i s = .next t →
    t.sinkPort.log = s.sinkPort.log ∨
    ∃ e, t.sinkPort.log = s.sinkPort.log ++ [e] ∧ e.sink = s.bp.sink ∧ 1 ≤ e.bytes.length ∧ e.bytes.length ≤ 256 ∧
      (i ≠ .bpFlush → e.bytes.length = 256) ∧
      (i = .bpFlush → e.bytes.length = s.bp.bufferPosition.toNat + 1)

/-- Spec/60_exceptions.md on `SinkWriteFailed` and spec/40_bitpacker.md on where a failure strikes: a BP command that latches
`bpFault` delivers code 1, logs the failed write and counts none of its bytes in the sink stream, leaves the Resampler
alone, and every later BP command is rejected with `PackerUnusable`. -/
def Obligations.SinkFailureEndsTheCommandAndThePacker : Prop :=
  ∀ (i : Instr) (s t : State), i.isPacker = true → s.bp.AtRest → s.bp.bpFault = false →
    exec i s = .next t → t.bp.bpFault = true →
    t.hostPort.outputs = s.hostPort.outputs ++ [.completion 1] ∧
    (∃ e, t.sinkPort.log = s.sinkPort.log ++ [e] ∧ e.answer = .fail ∧ e.sink = s.bp.sink) ∧
    t.sinkPort.stream = s.sinkPort.stream ∧ t.rs = s.rs ∧
    (∀ j : Instr, j.isPacker = true → exec j t = .next (t.complete .packerUnusable))

/-- Spec/70_reset_and_hazards.md on a sink that never answers: a command that waits for it has delivered no record and logged
nothing, and every further step without `HostReset` leaves the block exactly so. -/
def Obligations.SilentSinkLeavesTheCommandWaiting : Prop :=
  ∀ (i : Instr) (s t : State), i.isPacker = true → s.bp.AtRest → s.ready → exec i s = .next t →
    t.hostPort.blocked = true →
    t.hostPort.outputs = s.hostPort.outputs ∧ t.sinkPort.log = s.sinkPort.log ∧ t.bp.bpFault = false ∧ t.rs = s.rs ∧
    ((∀ rest, t.hostPort.inputs ≠ .reset :: rest) → step t = .next t)

/-- The frame of the BP commands (spec/00_scope.md, spec/10_state.md sections 1 and 2): the parameters, all Resampler state
and memory, the host's queue and the sink binding are unchanged, and the host's record and `sinkLog` only grow. Unless the
command faults the packer, every element of `InternalBuffer` reads as before but those at the positions
the command commits to, from `bufferPosition` on and round to 0 after a sink write. -/
def Obligations.PackerFrameHolds : Prop :=
  ∀ (i : Instr) (s t : State), i.isPacker = true → s.bp.AtRest → s.bp.bpFault = false → exec i s = .next t →
    t.params = s.params ∧ t.rs = s.rs ∧ t.bp.sink = s.bp.sink ∧ t.hostPort.inputs = s.hostPort.inputs ∧
    s.hostPort.outputs <+: t.hostPort.outputs ∧ s.sinkPort.log <+: t.sinkPort.log ∧
    (t.bp.bpFault = false → ∀ k : Nat,
      (∀ c, c < i.commits s.bp.bitsRemaining.toNat → k ≠ (s.bp.bufferPosition.toNat + c) % 256) →
      t.bp.bufferByte k = s.bp.bufferByte k)

/-! ## Completion records and rejections -/

/-- Spec/60_exceptions.md, section 1: every command, legal or not, delivers exactly one completion record, with the code of its
status; the one exception is a command left waiting by a silent sink, which delivers none. How such a command leaves the
state is the model's, DEDUCED (log 5). -/
def Obligations.EveryCommandDeliversOneRecord : Prop :=
  (Status.ok.code = 0 ∧ Status.sinkWriteFailed.code = 1 ∧ Status.invalidDimensions.code = 2 ∧
    Status.invalidBitCount.code = 3 ∧ Status.illegalCommand.code = 4 ∧ Status.packerUnusable.code = 5 ∧
    Status.outputCapacityExceeded.code = 6) ∧
  (∀ (packet : List Word) (s t : State), s.hostPort.blocked = false → runPacket packet s = .next t →
    (t.hostPort.blocked = false ∧
      ∃ c : BitVec 8, c.toNat ≤ 6 ∧ t.hostPort.outputs = s.hostPort.outputs ++ [.completion c]) ∨
    (t.hostPort.blocked = true ∧ t.hostPort.outputs = s.hostPort.outputs ∧ t.sinkPort.log = s.sinkPort.log))

/-- R199: a command that ends with code 2, 3, 4, 5 or 6 leaves every register, every memory element and `sinkLog` as they
were; only the record is delivered. A command that ends with code 1 is no such rejection: `bpFault` is set and the failed
write is in `sinkLog`. -/
def Obligations.RejectionsChangeNothing : Prop :=
  ∀ (packet : List Word) (s t : State) (c : BitVec 8), runPacket packet s = .next t →
    t.hostPort.outputs = s.hostPort.outputs ++ [.completion c] →
    (2 ≤ c.toNat → t = s.setHostPort { s.hostPort with outputs := s.hostPort.outputs ++ [.completion c] }) ∧
    (c = 1 → t.bp.bpFault = true ∧
      ∃ written e, t.sinkPort.log = s.sinkPort.log ++ written ++ [e] ∧ e.answer = .fail)

/-- R192: `InvalidDimensions` is raised exactly by `RS.RESIZE` with a non-positive dimension or a length mismatch, and changes
nothing. -/
def Obligations.InvalidDimensionsExactly : Prop :=
  ∀ (i : Instr) (s : State), exec i s = .next (s.complete .invalidDimensions) ↔
    ∃ ow oh w h, i = .rsResize ow oh w h ∧
      (ow ≤ 0 ∨ oh ≤ 0 ∨ w ≤ 0 ∨ h ≤ 0 ∨ ow * oh ≠ s.rs.srcLen)

/-- R196: `OutputCapacityExceeded` is raised exactly by `RS.RESIZE` with valid dimensions and matching length whose output has
more than `MAX_PIXELS` pixels, and changes nothing. -/
def Obligations.OutputCapacityExceededExactly : Prop :=
  ∀ (i : Instr) (s : State), exec i s = .next (s.complete .outputCapacityExceeded) ↔
    ∃ ow oh w h, i = .rsResize ow oh w h ∧ 0 < ow ∧ 0 < oh ∧ 0 < w ∧ 0 < h ∧
      ow * oh = s.rs.srcLen ∧ (s.params.maxPixels : Int) < w * h

/-! ## Resampler -/

/-- R153: with valid dimensions and an unchanged size the result is `SRC` itself: `resultSel <- SRC`, `resultLen <- srcLen`,
and nothing else changes, no pixel is moved. The test is on both pairs: an OK command with another width or another height
takes the general path. -/
def Obligations.IdentityPathReturnsTheSource : Prop :=
  (∀ (w h : Int) (s : State), 0 < w → 0 < h → w * h = s.rs.srcLen → s.rs.srcLen ≤ s.params.maxPixels →
    exec (.rsResize w h w h) s =
      .next ((s.setRs { s.rs with resultSel := .src, resultLen := s.rs.srcLen }).complete .ok)) ∧
  (∀ (ow oh w h : Int) (s t : State), exec (.rsResize ow oh w h) s = .next t →
    t.hostPort.outputs = s.hostPort.outputs ++ [.completion 0] → ¬ (ow = w ∧ oh = h) → t.rs.resultSel = .dst)

/-- Section 3 of spec/41_resampler.md, "Closed form" (the spec's own inference), and the completion of the general path: with
valid dimensions that are not the identity, `RS.RESIZE` completes OK and `DST` holds, at `r*width + c`, the source pixel at
`floor(r*org_height/height)*org_width + floor(c*org_width/width)`. -/
def Obligations.ResizeGivesTheClosedForm : Prop :=
  ∀ (ow oh w h : Nat) (s : State), 0 < ow → 0 < oh → 0 < w → 0 < h → ow * oh = s.rs.srcLen →
    w * h ≤ s.params.maxPixels → s.rs.srcLen ≤ s.params.maxPixels → ¬ (ow = w ∧ oh = h) →
    ∃ t, exec (.rsResize ow oh w h) s = .next t ∧
      (∀ r c, r < h → c < w →
        t.rs.dstPixel s.params (r * w + c) = s.rs.srcPixel s.params (sampleIndex ow oh w h r c)) ∧
      t.rs.dstLen = w * h ∧ t.rs.resultSel = .dst ∧ t.rs.resultLen = w * h ∧
      t.hostPort.outputs = s.hostPort.outputs ++ [.completion 0] ∧ t.hostPort.blocked = s.hostPort.blocked

/-- Spec/41_resampler.md, section 3, "Bounds", and spec/10_state.md, section 2 (the spec's own inferences): elements of `SRC`
at `srcLen` and above never influence the result. -/
def Obligations.ResizeReadsOnlyTheLoadedBuffer : Prop :=
  ∀ (ow oh w h : Nat) (s s' t t' : State), 0 < ow → 0 < oh → 0 < w → 0 < h → ¬ (ow = w ∧ oh = h) →
    ow * oh = s.rs.srcLen → s'.rs.srcLen = s.rs.srcLen → s'.params = s.params → s.rs.srcLen ≤ s.params.maxPixels →
    w * h ≤ s.params.maxPixels →
    (∀ i, i < s.rs.srcLen → s'.rs.srcPixel s.params i = s.rs.srcPixel s.params i) →
    exec (.rsResize ow oh w h) s = .next t → exec (.rsResize ow oh w h) s' = .next t' →
    ∀ i, i < w * h → t'.rs.dstPixel s.params i = t.rs.dstPixel s.params i

/-- R165: `RS.RESIZE` writes neither `SRC` nor
`srcLen`, and on the general path every element of the output is a copy of one element of the loaded buffer. -/
def Obligations.ResizeOnlyCopiesPixels : Prop :=
  ∀ (ow oh w h : Int) (s t : State), s.rs.srcLen ≤ s.params.maxPixels → exec (.rsResize ow oh w h) s = .next t →
    t.rs.src = s.rs.src ∧ t.rs.srcLen = s.rs.srcLen ∧
    (t.rs.resultSel = .dst → t.hostPort.outputs = s.hostPort.outputs ++ [.completion 0] →
      ∀ i, i < t.rs.resultLen → ∃ j, j < s.rs.srcLen ∧ t.rs.dstPixel s.params i = s.rs.srcPixel s.params j)

/-- Section 3 of spec/41_resampler.md, "Output length" (the spec's own inference): after an OK `RS.RESIZE`,
`resultLen = width*height` on both paths. -/
def Obligations.ResizeOutputLength : Prop :=
  ∀ (ow oh w h : Int) (s t : State), exec (.rsResize ow oh w h) s = .next t →
    t.hostPort.outputs = s.hostPort.outputs ++ [.completion 0] → (t.rs.resultLen : Int) = w * h

/-- Section 3 of spec/41_resampler.md, "Row reuse is invisible" (the spec's own inference): computing every row afresh gives
the same Resampler state as copying the rows whose source row has not moved. -/
def Obligations.RowReuseIsInvisible : Prop :=
  ∀ (p : Params) (r : Resampler) (ow oh w h : Nat), 0 < ow → 0 < oh → 0 < w → 0 < h →
    ow * oh ≤ p.maxPixels → w * h ≤ p.maxPixels →
    resizeGeneral p ow oh w h r = resizeRecomputing p ow oh w h r

/-- Section 3 of spec/41_resampler.md, "Accumulator invariants" (the spec's own inference): at the start of row `k`, and at the
start of column `c` of a computed row. -/
def Obligations.AccumulatorsFollowTheirClosedForms : Prop :=
  ∀ (p : Params) (r : Resampler) (ow oh w h : Nat), 0 < ow → 0 < oh → 0 < w → 0 < h →
    ow * oh ≤ p.maxPixels → w * h ≤ p.maxPixels →
    (∀ k, k ≤ h → ∃ g, resizeRows p ow w h (precompute ow oh w h) k 0 (initAccumulators r) = .ok g ∧
      g.vfrac = (k * (oh % h)) % h ∧ g.sourceRowPos = ow * (k * oh / h) ∧ g.destPos = k * w) ∧
    (∀ k c, k < h → c ≤ w → ∃ g, computeColumns p w (precompute ow oh w h) c
        { rs := r, hfrac := 0, sourcePos := ow * (k * oh / h), destPos := k * w } = .ok g ∧
      g.hfrac = (c * (ow % w)) % w ∧ g.sourcePos = ow * (k * oh / h) + c * ow / w ∧ g.destPos = k * w + c)

/-- The frame of `RS.RESIZE` (spec/41_resampler.md, section 1): the parameters, all BitPacker state, the sink port, the host's
queue, `SRC` and `srcLen` are unchanged; every element of `DST` outside `[0, width*height)` reads as before, and on the
fast path or a rejection `DST` and `dstLen` are unchanged. -/
def Obligations.ResizeFrameHolds : Prop :=
  ∀ (ow oh w h : Int) (s t : State), s.rs.srcLen ≤ s.params.maxPixels → exec (.rsResize ow oh w h) s = .next t →
    t.params = s.params ∧ t.bp = s.bp ∧ t.sinkPort = s.sinkPort ∧
    t.hostPort.inputs = s.hostPort.inputs ∧ t.hostPort.blocked = s.hostPort.blocked ∧
    s.hostPort.outputs <+: t.hostPort.outputs ∧
    t.rs.src = s.rs.src ∧ t.rs.srcLen = s.rs.srcLen ∧
    (∀ i, t.rs.srcPixel s.params i = s.rs.srcPixel s.params i) ∧
    (∀ i : Nat, w * h ≤ i → t.rs.dstPixel s.params i = s.rs.dstPixel s.params i) ∧
    (ow = w ∧ oh = h ∨ t.hostPort.outputs ≠ s.hostPort.outputs ++ [.completion 0] →
      t.rs.dst = s.rs.dst ∧ t.rs.dstLen = s.rs.dstLen)

/-! ## The two units -/

/-- Spec/00_scope.md, "Neither depends on the other" (the spec's own inference): a BP command does the same whatever the
Resampler holds and leaves it alone, and `RS.RESIZE` does the same whatever the BitPacker and the sink port hold and
leaves them alone. -/
def Obligations.UnitsShareNoState : Prop :=
  (∀ (i : Instr) (s t : State) (r : Resampler), i.isPacker = true → exec i s = .next t →
    t.rs = s.rs ∧ exec i (s.setRs r) = .next (t.setRs r)) ∧
  (∀ (i : Instr) (s t : State) (b : BitPacker) (k : SinkPort), i.isPacker = false → exec i s = .next t →
    t.bp = s.bp ∧ t.sinkPort = s.sinkPort ∧
    exec i ((s.setBp b).setSinkPort k) = .next ((t.setBp b).setSinkPort k))

/-- Section 6 of spec/20_memory.md (the spec's own inference): a BP command and an `RS.RESIZE` commute: swapping them gives
the same state of both units and the same sink log; only the order of the two completion records differs. Neither command
is left waiting for a silent sink: the block would take no second one. -/
def Obligations.UnitsCommute : Prop :=
  ∀ (i j : Instr) (s t : State), i.isPacker ≠ j.isPacker → runInstrs [i, j] s = .next t → t.hostPort.blocked = false →
    ∃ t', runInstrs [j, i] s = .next t' ∧ t'.silent = t.silent

/-! ## The host's other moves -/

/-- Section 6 of spec/20_memory.md, `HostLoadSource`: the loaded sequence is `SRC[0 .. srcLen-1]`, and nothing but `SRC` and
`srcLen` changes; a load of more than `MAX_PIXELS` pixels is no move (refused, log 12). -/
def Obligations.HostLoadReplacesTheSource : Prop :=
  ∀ (pixels : List Pixel) (s : State) (rest : List HostMove), s.hostPort.inputs = .loadSource pixels :: rest →
    s.hostPort.blocked = false →
    (pixels.length ≤ s.params.maxPixels → (∀ v ∈ pixels, v < 2 ^ s.params.pixW) →
      ∃ t, step s = .next t ∧ t.rs.srcLen = pixels.length ∧
        (∀ i (hi : i < pixels.length), t.rs.srcPixel s.params i = pixels[i]) ∧
        t.params = s.params ∧ t.bp = s.bp ∧ t.sinkPort = s.sinkPort ∧
        t.hostPort = { s.hostPort with inputs := rest } ∧
        t.rs.dst = s.rs.dst ∧ t.rs.dstLen = s.rs.dstLen ∧ t.rs.resultSel = s.rs.resultSel ∧
        t.rs.resultLen = s.rs.resultLen ∧
        (∀ i, t.rs.dstPixel s.params i = s.rs.dstPixel s.params i)) ∧
    (s.params.maxPixels < pixels.length → step s = .refused .hostLoadTooLong)

/-- Section 6 of spec/20_memory.md, aliasing on the identity path: while `resultSel = SRC`, a `HostWriteSourcePixel` inside the
result changes what `HostReadResult` returns, at that pixel and nowhere else. -/
def Obligations.SourceWriteShowsThroughTheAlias : Prop :=
  ∀ (s : State) (index : Nat) (value : Pixel), s.rs.Inv s.params → s.rs.resultSel = .src → index < s.rs.srcLen →
    value < 2 ^ s.params.pixW →
    ∃ t u v before after, hostWriteSourcePixel index value s = .next t ∧
      hostReadResult s = .next u ∧ hostReadResult t = .next v ∧
      u.hostPort.outputs = s.hostPort.outputs ++ [.result .src s.rs.resultLen before] ∧
      v.hostPort.outputs = s.hostPort.outputs ++ [.result .src s.rs.resultLen after] ∧
      before.length = s.rs.resultLen ∧ after = before.set index value

/-- Spec/10_state.md on `resultSel` and `resultLen`, spec/41_resampler.md on the identity law: after an OK `RS.RESIZE`,
`HostReadResult` returns the resized image, or on the identity path the source buffer itself, and changes nothing but the
host's record. -/
def Obligations.ReadResultReturnsTheResizedImage : Prop :=
  ∀ (ow oh w h : Nat) (s t : State), 0 < ow → 0 < oh → 0 < w → 0 < h → ow * oh = s.rs.srcLen →
    w * h ≤ s.params.maxPixels → s.rs.srcLen ≤ s.params.maxPixels → exec (.rsResize ow oh w h) s = .next t →
    ∃ sel pixels, hostReadResult t = .next (t.setHostPort { t.hostPort with
        outputs := t.hostPort.outputs ++ [.result sel (w * h) pixels] }) ∧
      pixels.length = w * h ∧
      (sel = .src ↔ ow = w ∧ oh = h) ∧ (sel = .dst ↔ ¬ (ow = w ∧ oh = h)) ∧
      (∀ r c, r < h → c < w →
        pixels[r * w + c]? = some (s.rs.srcPixel s.params (sampleIndex ow oh w h r c)))

/-- Section 6 of spec/20_memory.md, `HostWriteSourcePixel`: for every index below `srcLen` that element of `SRC` then reads
`value`; every other element of `SRC`, every element of `DST`, the lengths, the result's descriptor, all BitPacker state,
the sink port and the parameters are as before, and the host receives nothing. An index from `srcLen` on is no move, and no
more is a number that is no pixel; that these are refused by name is the model's choice (log 12). -/
def Obligations.HostWritesOneSourcePixel : Prop :=
  ∀ (index : Nat) (value : Pixel) (s : State) (rest : List HostMove),
    s.hostPort.inputs = .writeSourcePixel index value :: rest → s.hostPort.blocked = false →
    (index < s.rs.srcLen → value < 2 ^ s.params.pixW →
      ∃ t, step s = .next t ∧ t.rs.srcPixel s.params index = value ∧
        (∀ i, i ≠ index → t.rs.srcPixel s.params i = s.rs.srcPixel s.params i) ∧
        t.rs.srcLen = s.rs.srcLen ∧ t.rs.dst = s.rs.dst ∧ t.rs.dstLen = s.rs.dstLen ∧
        (∀ i, t.rs.dstPixel s.params i = s.rs.dstPixel s.params i) ∧
        t.rs.resultSel = s.rs.resultSel ∧ t.rs.resultLen = s.rs.resultLen ∧
        t.params = s.params ∧ t.bp = s.bp ∧ t.sinkPort = s.sinkPort ∧
        t.hostPort = { s.hostPort with inputs := rest }) ∧
    (s.rs.srcLen ≤ index → step s = .refused .hostPixelIndex) ∧
    (index < s.rs.srcLen → 2 ^ s.params.pixW ≤ value → step s = .refused .hostPixelTooWide)

/-- Section 6 of spec/20_memory.md, `HostReadResult`, from every state that meets the Resampler's invariant: it answers
`resultSel` and `resultLen` with `SRC[0 .. resultLen-1]` or `DST[0 .. resultLen-1]` as `resultSel` names it, and with no
pixel and length 0 while it is NONE; nothing but the host's record changes. -/
def Obligations.ReadResultReturnsTheNamedMemory : Prop :=
  ∀ (s : State) (rest : List HostMove), s.hostPort.inputs = .readResult :: rest → s.hostPort.blocked = false →
    s.rs.Inv s.params →
    ∃ pixels, step s = .next (s.setHostPort { s.hostPort with
        inputs := rest, outputs := s.hostPort.outputs ++ [.result s.rs.resultSel s.rs.resultLen pixels] }) ∧
      (s.rs.resultSel = .none → pixels = [] ∧ s.rs.resultLen = 0) ∧
      (s.rs.resultSel = .src → pixels = (List.range s.rs.resultLen).map (s.rs.srcPixel s.params)) ∧
      (s.rs.resultSel = .dst → pixels = (List.range s.rs.resultLen).map (s.rs.dstPixel s.params))

/-! ## Invariants and whole-machine rules -/

/-- Spec/10_state.md and spec/40_bitpacker.md, the invariants at rest (the spec's own inferences): every step from a state that
meets the invariant leads to one that meets it. -/
def Obligations.StepKeepsTheInvariant : Prop :=
  ∀ s t : State, s.Inv → step s = .next t → t.Inv

/-- Section 4 of spec/20_memory.md, "Bounds" (the spec's own inference): from a state that meets the invariant no step indexes a
memory outside its range, so none faults, and a step is refused only for a host move that the spec gives no meaning. -/
def Obligations.NoStepFaults : Prop :=
  ∀ s : State, s.Inv →
    (∀ r, step s ≠ .fault r) ∧
    (∀ r, step s = .refused r →
      ∃ rest, (∃ pixels, s.hostPort.inputs = .loadSource pixels :: rest ∧
          (s.params.maxPixels < pixels.length ∨ ∃ v ∈ pixels, 2 ^ s.params.pixW ≤ v)) ∨
        (∃ index value, s.hostPort.inputs = .writeSourcePixel index value :: rest ∧
          (s.rs.srcLen ≤ index ∨ 2 ^ s.params.pixW ≤ value)))

/-- Spec/10_state.md on `sink` and spec/00_scope.md on parameters: no step changes the sink binding but `HostReset`, which
binds the sink then attached (a free value, log 13), and no step at all changes the parameters. -/
def Obligations.SinkBindingChangesOnlyAtReset : Prop :=
  ∀ s t : State, step s = .next t →
    t.params = s.params ∧
    (t.bp.sink = s.bp.sink ∨
      ∃ rest, s.hostPort.inputs = .reset :: rest ∧ t.bp.sink = Config.attachedSink (s.bp.epoch + 1))

/-- Spec/10_state.md on `SRC` and `srcLen`: no command changes them; only the host's load, pixel write and reset do. -/
def Obligations.OnlyTheHostWritesTheSource : Prop :=
  ∀ s t : State, step s = .next t →
    (t.rs.src = s.rs.src ∧ t.rs.srcLen = s.rs.srcLen) ∨
    ∃ rest, (∃ pixels, s.hostPort.inputs = .loadSource pixels :: rest) ∨
      (∃ index value, s.hostPort.inputs = .writeSourcePixel index value :: rest) ∨
      s.hostPort.inputs = .reset :: rest

/-- Section 3 of spec/20_memory.md: no step but `HostReset` takes anything back from `sinkLog`, which empties it; the sink
stream likewise only grows. -/
def Obligations.SinkLogOnlyGrows : Prop :=
  ∀ s t : State, step s = .next t →
    (s.sinkPort.log <+: t.sinkPort.log ∧ s.sinkPort.stream <+: t.sinkPort.stream) ∨
    ∃ rest, s.hostPort.inputs = .reset :: rest ∧ t.sinkPort.log = []
end

