-- ==== Sys2Proof/Laws/State.lean ====
section
/-! SUPPORT. One lemma per field per update of the state, each true by definition. -/

namespace Sys2Proof.Machine

section Setters
variable (s : State) (b : BitPacker) (r : Resampler) (k : SinkPort) (h : HostPort)

@[simp] theorem State.setBp_params : (s.setBp b).params = s.params := rfl
@[simp] theorem State.setBp_bp : (s.setBp b).bp = b := rfl
@[simp] theorem State.setBp_rs : (s.setBp b).rs = s.rs := rfl
@[simp] theorem State.setBp_sinkPort : (s.setBp b).sinkPort = s.sinkPort := rfl
@[simp] theorem State.setBp_hostPort : (s.setBp b).hostPort = s.hostPort := rfl

@[simp] theorem State.setRs_params : (s.setRs r).params = s.params := rfl
@[simp] theorem State.setRs_bp : (s.setRs r).bp = s.bp := rfl
@[simp] theorem State.setRs_rs : (s.setRs r).rs = r := rfl
@[simp] theorem State.setRs_sinkPort : (s.setRs r).sinkPort = s.sinkPort := rfl
@[simp] theorem State.setRs_hostPort : (s.setRs r).hostPort = s.hostPort := rfl

@[simp] theorem State.setSinkPort_params : (s.setSinkPort k).params = s.params := rfl
@[simp] theorem State.setSinkPort_bp : (s.setSinkPort k).bp = s.bp := rfl
@[simp] theorem State.setSinkPort_rs : (s.setSinkPort k).rs = s.rs := rfl
@[simp] theorem State.setSinkPort_sinkPort : (s.setSinkPort k).sinkPort = k := rfl
@[simp] theorem State.setSinkPort_hostPort : (s.setSinkPort k).hostPort = s.hostPort := rfl

@[simp] theorem State.setHostPort_params : (s.setHostPort h).params = s.params := rfl
@[simp] theorem State.setHostPort_bp : (s.setHostPort h).bp = s.bp := rfl
@[simp] theorem State.setHostPort_rs : (s.setHostPort h).rs = s.rs := rfl
@[simp] theorem State.setHostPort_sinkPort : (s.setHostPort h).sinkPort = s.sinkPort := rfl
@[simp] theorem State.setHostPort_hostPort : (s.setHostPort h).hostPort = h := rfl

@[simp] theorem State.setBp_setBp (b' : BitPacker) : (s.setBp b).setBp b' = s.setBp b' := rfl
@[simp] theorem State.setRs_setRs (r' : Resampler) : (s.setRs r).setRs r' = s.setRs r' := rfl
@[simp] theorem State.setSinkPort_setSinkPort (k' : SinkPort) :
    (s.setSinkPort k).setSinkPort k' = s.setSinkPort k' := rfl
@[simp] theorem State.setHostPort_setHostPort (h' : HostPort) :
    (s.setHostPort h).setHostPort h' = s.setHostPort h' := rfl
@[simp] theorem State.setBp_self : s.setBp s.bp = s := rfl
@[simp] theorem State.setRs_self : s.setRs s.rs = s := rfl

end Setters

section Derived
variable (s : State) (c : Status) (rest : List HostMove)

@[simp] theorem State.complete_params : (s.complete c).params = s.params := rfl
@[simp] theorem State.complete_bp : (s.complete c).bp = s.bp := rfl
@[simp] theorem State.complete_rs : (s.complete c).rs = s.rs := rfl
@[simp] theorem State.complete_sinkPort : (s.complete c).sinkPort = s.sinkPort := rfl
@[simp] theorem State.complete_inputs : (s.complete c).hostPort.inputs = s.hostPort.inputs := rfl
@[simp] theorem State.complete_blocked : (s.complete c).hostPort.blocked = s.hostPort.blocked := rfl
@[simp] theorem State.complete_outputs :
    (s.complete c).hostPort.outputs = s.hostPort.outputs ++ [.completion c.code] := rfl

@[simp] theorem State.block_params : s.block.params = s.params := rfl
@[simp] theorem State.block_bp : s.block.bp = s.bp := rfl
@[simp] theorem State.block_rs : s.block.rs = s.rs := rfl
@[simp] theorem State.block_sinkPort : s.block.sinkPort = s.sinkPort := rfl
@[simp] theorem State.block_inputs : s.block.hostPort.inputs = s.hostPort.inputs := rfl
@[simp] theorem State.block_outputs : s.block.hostPort.outputs = s.hostPort.outputs := rfl
@[simp] theorem State.block_blocked : s.block.hostPort.blocked = true := rfl

@[simp] theorem State.dequeue_params : (s.dequeue rest).params = s.params := rfl
@[simp] theorem State.dequeue_bp : (s.dequeue rest).bp = s.bp := rfl
@[simp] theorem State.dequeue_rs : (s.dequeue rest).rs = s.rs := rfl
@[simp] theorem State.dequeue_sinkPort : (s.dequeue rest).sinkPort = s.sinkPort := rfl
@[simp] theorem State.dequeue_inputs : (s.dequeue rest).hostPort.inputs = rest := rfl
@[simp] theorem State.dequeue_outputs : (s.dequeue rest).hostPort.outputs = s.hostPort.outputs := rfl
@[simp] theorem State.dequeue_blocked : (s.dequeue rest).hostPort.blocked = s.hostPort.blocked := rfl

@[simp] theorem State.silent_bp : s.silent.bp = s.bp := rfl
@[simp] theorem State.silent_rs : s.silent.rs = s.rs := rfl
@[simp] theorem State.silent_params : s.silent.params = s.params := rfl
@[simp] theorem State.silent_sinkPort : s.silent.sinkPort = s.sinkPort := rfl
@[simp] theorem State.silent_complete : (s.complete c).silent = s.silent := rfl

end Derived

section Units
variable (b : BitPacker) (bit : Bool)

@[simp] theorem BitPacker.latchFault_bpFault : b.latchFault.bpFault = true := rfl
@[simp] theorem BitPacker.latchFault_sink : b.latchFault.sink = b.sink := rfl
@[simp] theorem BitPacker.unspecify_bpFault : b.unspecify.bpFault = b.bpFault := rfl
@[simp] theorem BitPacker.unspecify_sink : b.unspecify.sink = b.sink := rfl
@[simp] theorem BitPacker.unspecify_internalBuffer : b.unspecify.internalBuffer = [] := rfl

@[simp] theorem BitPacker.commit_bpFault : b.commit.bpFault = b.bpFault := rfl
@[simp] theorem BitPacker.commit_sink : b.commit.sink = b.sink := rfl
@[simp] theorem BitPacker.commit_epoch : b.commit.epoch = b.epoch := rfl
@[simp] theorem BitPacker.commit_pendingByte : b.commit.pendingByte = 0 := rfl
@[simp] theorem BitPacker.commit_bitsRemaining : b.commit.bitsRemaining = 8 := rfl
@[simp] theorem BitPacker.commit_bufferPosition : b.commit.bufferPosition = b.bufferPosition + 1 := rfl
@[simp] theorem BitPacker.commit_internalBuffer :
    b.commit.internalBuffer = Memory.write b.internalBuffer b.bufferPosition.toNat b.pendingByte := rfl

@[simp] theorem BitPacker.insert_bpFault : (b.insert bit).bpFault = b.bpFault := rfl
@[simp] theorem BitPacker.insert_sink : (b.insert bit).sink = b.sink := rfl
@[simp] theorem BitPacker.insert_epoch : (b.insert bit).epoch = b.epoch := rfl
@[simp] theorem BitPacker.insert_internalBuffer : (b.insert bit).internalBuffer = b.internalBuffer := rfl
@[simp] theorem BitPacker.insert_bufferPosition : (b.insert bit).bufferPosition = b.bufferPosition := rfl
@[simp] theorem BitPacker.insert_bitsRemaining : (b.insert bit).bitsRemaining = b.bitsRemaining - 1 := rfl
@[simp] theorem BitPacker.insert_bufferByte (i : Nat) : (b.insert bit).bufferByte i = b.bufferByte i := rfl

@[simp] theorem BitPacker.resetBuffer_internalBuffer : b.resetBuffer.internalBuffer = b.internalBuffer := rfl
@[simp] theorem BitPacker.resetBuffer_bufferPosition : b.resetBuffer.bufferPosition = 0 := rfl
@[simp] theorem BitPacker.resetBuffer_pendingByte : b.resetBuffer.pendingByte = b.pendingByte := rfl
@[simp] theorem BitPacker.resetBuffer_bitsRemaining : b.resetBuffer.bitsRemaining = b.bitsRemaining := rfl
@[simp] theorem BitPacker.resetBuffer_sink : b.resetBuffer.sink = b.sink := rfl
@[simp] theorem BitPacker.resetBuffer_bpFault : b.resetBuffer.bpFault = b.bpFault := rfl
@[simp] theorem BitPacker.resetBuffer_epoch : b.resetBuffer.epoch = b.epoch := rfl
@[simp] theorem BitPacker.resetBuffer_bufferByte (i : Nat) : b.resetBuffer.bufferByte i = b.bufferByte i := rfl
@[simp] theorem BitPacker.resetBuffer_bufferPrefix (n : Nat) : b.resetBuffer.bufferPrefix n = b.bufferPrefix n := rfl

@[simp] theorem BitPacker.startByte_internalBuffer : b.startByte.internalBuffer = b.internalBuffer := rfl
@[simp] theorem BitPacker.startByte_bufferPosition : b.startByte.bufferPosition = b.bufferPosition := rfl
@[simp] theorem BitPacker.startByte_pendingByte : b.startByte.pendingByte = 0 := rfl
@[simp] theorem BitPacker.startByte_bitsRemaining : b.startByte.bitsRemaining = 8 := rfl
@[simp] theorem BitPacker.startByte_sink : b.startByte.sink = b.sink := rfl
@[simp] theorem BitPacker.startByte_bpFault : b.startByte.bpFault = b.bpFault := rfl
@[simp] theorem BitPacker.startByte_epoch : b.startByte.epoch = b.epoch := rfl
@[simp] theorem BitPacker.startByte_bufferByte (i : Nat) : b.startByte.bufferByte i = b.bufferByte i := rfl
@[simp] theorem BitPacker.startByte_bufferPrefix (n : Nat) : b.startByte.bufferPrefix n = b.bufferPrefix n := rfl

@[simp] theorem BitPacker.insert_bufferPrefix (n : Nat) : (b.insert bit).bufferPrefix n = b.bufferPrefix n := rfl

end Units

section Sink
variable (k : SinkPort) (e : SinkEvent)

@[simp] theorem SinkPort.record_log : (k.record e).log = k.log ++ [e] := rfl
@[simp] theorem SinkPort.record_replies : (k.record e).replies = k.replies := rfl
@[simp] theorem SinkPort.record_draws : (k.record e).draws = k.draws := rfl

/-- Drawing an answer records nothing. -/
@[simp] theorem SinkPort.draw_log : k.draw.2.log = k.log := by
  unfold SinkPort.draw; split <;> rfl

end Sink

section Flows
variable (s : State) (r : Fault) (c : Status) (f : State → Flow)

@[simp] theorem Flow.go_andThen : (Flow.go s).andThen f = f s := rfl
@[simp] theorem Flow.ended_andThen : (Flow.ended s).andThen f = .ended s := rfl
@[simp] theorem Flow.fault_andThen : (Flow.fault r).andThen f = .fault r := rfl
@[simp] theorem Flow.raise_andThen : (raise c s).andThen f = raise c s := rfl
@[simp] theorem Flow.finish_go : (Flow.go s).finish = .next (s.complete .ok) := rfl
@[simp] theorem Flow.finish_ended : (Flow.ended s).finish = .next s := rfl
@[simp] theorem Flow.finish_fault : (Flow.fault r).finish = .fault r := rfl
@[simp] theorem Flow.finish_raise : (raise c s).finish = .next (s.complete c) := rfl

theorem Flow.andThen_assoc (x : Flow) (g : State → Flow) :
    (x.andThen f).andThen g = x.andThen fun t => (f t).andThen g := by cases x <;> rfl

end Flows

end Sys2Proof.Machine
end

