-- ==== Sys2Proof/Laws/Memory.lean ====
section
/-! SUPPORT. Laws of memories: read after write, and that every memory operation keeps the canonical form. -/

namespace Sys2Proof.Machine

variable {α : Type}

theorem Memory.get?_write (m : Memory α) (i k : Nat) (v : α) :
    Memory.get? (Memory.write m i v) k = if k = i then some v else Memory.get? m k := by
  induction m with
  | nil => simp [Memory.write, Memory.get?]
  | cons c m ih =>
    obtain ⟨j, w⟩ := c
    simp only [Memory.write]
    split
    · simp [Memory.get?]
    · split
      · subst_vars; by_cases h : k = j <;> simp [Memory.get?, h]
      · rename_i hij; by_cases h : k = j
        · simp [Memory.get?, h, Ne.symm hij]
        · simp [Memory.get?, h, ih]

/-- A read after a write to the same place gives the value written. -/
@[simp] theorem Memory.get?_write_same (m : Memory α) (i : Nat) (v : α) :
    Memory.get? (Memory.write m i v) i = some v := by simp [Memory.get?_write]

/-- A write leaves every other place alone. -/
theorem Memory.get?_write_ne (m : Memory α) {i k : Nat} (v : α) (h : k ≠ i) :
    Memory.get? (Memory.write m i v) k = Memory.get? m k := by simp [Memory.get?_write, h]

theorem Memory.read_write (u : Nat → α) (m : Memory α) (i k : Nat) (v : α) :
    Memory.read u (Memory.write m i v) k = if k = i then v else Memory.read u m k := by
  unfold Memory.read; rw [Memory.get?_write]; split <;> rfl

theorem Memory.read_of_get? {u : Nat → α} {m : Memory α} {i : Nat} {v : α} (h : Memory.get? m i = some v) :
    Memory.read u m i = v := by simp [Memory.read, h]

/-- The canonical form as a list property: indices strictly rise. -/
theorem Memory.wf_iff (m : Memory α) : Memory.wf m = true ↔ m.Pairwise (fun a b => a.1 < b.1) := by
  induction m with
  | nil => simp [Memory.wf]
  | cons a m ih =>
    cases m with
    | nil => simp [Memory.wf]
    | cons b m =>
      simp only [Memory.wf, Bool.and_eq_true, decide_eq_true_eq, ih, List.pairwise_cons, List.mem_cons]
      constructor
      · rintro ⟨hab, hb, hm⟩
        refine ⟨?_, hb, hm⟩
        rintro c (rfl | hc)
        · exact hab
        · exact Nat.lt_trans hab (hb c hc)
      · rintro ⟨ha, hb, hm⟩
        exact ⟨ha b (.inl rfl), hb, hm⟩

/-- Every cell after a write is the new one or an old one. -/
theorem Memory.mem_write {m : Memory α} {i : Nat} {v : α} {c : Nat × α} (h : c ∈ Memory.write m i v) :
    c = (i, v) ∨ c ∈ m := by
  induction m with
  | nil => simpa [Memory.write] using h
  | cons d m ih =>
    obtain ⟨j, w⟩ := d
    simp only [Memory.write] at h
    split at h
    · simpa using h
    · split at h
      · rcases List.mem_cons.1 h with h | h
        · exact .inl h
        · exact .inr (List.mem_cons_of_mem _ h)
      · rcases List.mem_cons.1 h with h | h
        · exact .inr (h ▸ List.mem_cons_self)
        · exact (ih h).imp id (List.mem_cons_of_mem _)

/-- A write keeps the canonical form. -/
theorem Memory.wf_write {m : Memory α} (i : Nat) (v : α) (h : Memory.wf m = true) :
    Memory.wf (Memory.write m i v) = true := by
  rw [Memory.wf_iff] at h ⊢
  induction m with
  | nil => simp [Memory.write]
  | cons d m ih =>
    obtain ⟨j, w⟩ := d
    obtain ⟨hj, hm⟩ := List.pairwise_cons.1 h
    simp only [Memory.write]
    split
    · rename_i hij
      refine List.pairwise_cons.2 ⟨?_, h⟩
      intro c hc
      rcases List.mem_cons.1 hc with rfl | hc
      · exact hij
      · exact Nat.lt_trans hij (hj c hc)
    · split
      · subst_vars; exact List.pairwise_cons.2 ⟨hj, hm⟩
      · refine List.pairwise_cons.2 ⟨?_, ih hm⟩
        intro c hc
        rcases Memory.mem_write hc with rfl | hc
        · simp only; omega
        · exact hj c hc

theorem Memory.below_write {m : Memory α} {n i : Nat} (v : α) (h : Memory.below n m) (hi : i < n) :
    Memory.below n (Memory.write m i v) := by
  intro c hc
  rcases Memory.mem_write hc with rfl | hc
  · exact hi
  · exact h c hc

theorem Memory.listed_write {m : Memory α} {n : Nat} (i : Nat) (v : α) (h : Memory.listed m n) :
    Memory.listed (Memory.write m i v) n := by
  intro k hk
  rw [Memory.get?_write]; split
  · rfl
  · exact h k hk

theorem Memory.listed_write_next {m : Memory α} {n : Nat} (v : α) (h : Memory.listed m n) :
    Memory.listed (Memory.write m n v) (n + 1) := by
  intro k hk
  rw [Memory.get?_write]; split
  · rfl
  · exact h k (by omega)

theorem Memory.listed_zero (m : Memory α) : Memory.listed m 0 := by intro i hi; omega

theorem Memory.listed_mono {m : Memory α} {n k : Nat} (h : Memory.listed m n) (hk : k ≤ n) : Memory.listed m k :=
  fun i hi => h i (by omega)

theorem Memory.mem_of_get? {m : Memory α} {i : Nat} {v : α} (h : Memory.get? m i = some v) : (i, v) ∈ m := by
  induction m with
  | nil => simp [Memory.get?] at h
  | cons c m ih =>
    obtain ⟨j, w⟩ := c
    simp only [Memory.get?] at h
    split at h
    · simp_all
    · exact List.mem_cons_of_mem _ (ih h)

theorem Memory.get?_ofList (vs : List α) (base i : Nat) :
    Memory.get? (Memory.ofList base vs) i = if base ≤ i then vs[i - base]? else none := by
  induction vs generalizing base with
  | nil => simp [Memory.ofList, Memory.get?]
  | cons v vs ih =>
    simp only [Memory.ofList, Memory.get?, ih]
    by_cases h : i = base
    · simp [h]
    · by_cases hb : base ≤ i
      · have : i - base = (i - (base + 1)) + 1 := by omega
        simp [h, hb, show base + 1 ≤ i by omega, this]
      · simp [h, hb, show ¬ base + 1 ≤ i by omega]

theorem Memory.mem_ofList {vs : List α} {base : Nat} {c : Nat × α} (h : c ∈ Memory.ofList base vs) :
    base ≤ c.1 ∧ c.1 < base + vs.length ∧ c.2 ∈ vs := by
  induction vs generalizing base with
  | nil => simp [Memory.ofList] at h
  | cons v vs ih =>
    rcases List.mem_cons.1 h with rfl | h
    · simp
    · obtain ⟨h1, h2, h3⟩ := ih h
      exact ⟨by omega, by simp only [List.length_cons]; omega, List.mem_cons_of_mem _ h3⟩

theorem Memory.wf_ofList (vs : List α) (base : Nat) : Memory.wf (Memory.ofList base vs) = true := by
  rw [Memory.wf_iff]
  induction vs generalizing base with
  | nil => simp [Memory.ofList]
  | cons v vs ih =>
    refine List.pairwise_cons.2 ⟨fun c hc => ?_, ih _⟩
    have := (Memory.mem_ofList hc).1
    simp only; omega

theorem Memory.listed_ofList (vs : List α) : Memory.listed (Memory.ofList 0 vs) vs.length := by
  intro i hi
  simp [Memory.get?_ofList, hi]

/-- The three memories are in canonical form after a reset, and InternalBuffer after a failed sink write (R40, U1). -/
theorem reset_memories_wf (p : Params) (b : BitPacker) :
    Memory.wf (State.resetOf p).bp.internalBuffer = true ∧ Memory.wf (State.resetOf p).rs.src = true ∧
    Memory.wf (State.resetOf p).rs.dst = true ∧ Memory.wf b.unspecify.internalBuffer = true := ⟨rfl, rfl, rfl, rfl⟩

/-- Two memories in canonical form with the same listed values are the same list. -/
theorem Memory.ext {m m' : Memory α} (h : Memory.wf m = true) (h' : Memory.wf m' = true)
    (heq : ∀ i, Memory.get? m i = Memory.get? m' i) : m = m' := by
  rw [Memory.wf_iff] at h h'
  have none_of : ∀ (l : Memory α) (j : Nat), (∀ c ∈ l, j < c.1) → Memory.get? l j = none := by
    intro l j
    induction l with
    | nil => intro _; rfl
    | cons c l ih =>
      intro hl
      have := hl c List.mem_cons_self
      simp [Memory.get?, show j ≠ c.1 by omega, ih fun d hd => hl d (List.mem_cons_of_mem _ hd)]
  induction m generalizing m' with
  | nil =>
    cases m' with
    | nil => rfl
    | cons c m' => have := heq c.1; simp [Memory.get?] at this
  | cons a m ih =>
    cases m' with
    | nil => have := heq a.1; simp [Memory.get?] at this
    | cons b m' =>
      obtain ⟨ha, hm⟩ := List.pairwise_cons.1 h
      obtain ⟨hb, hm'⟩ := List.pairwise_cons.1 h'
      obtain ⟨i, v⟩ := a
      obtain ⟨j, w⟩ := b
      have hij : i = j := by
        rcases Nat.lt_trichotomy i j with hlt | heq' | hgt
        · have := heq i
          rw [none_of ((j, w) :: m') i] at this
          · simp [Memory.get?] at this
          · intro c hc
            rcases List.mem_cons.1 hc with rfl | hc
            · exact hlt
            · exact Nat.lt_trans hlt (hb c hc)
        · exact heq'
        · have := heq j
          rw [none_of ((i, v) :: m) j] at this
          · simp [Memory.get?] at this
          · intro c hc
            rcases List.mem_cons.1 hc with rfl | hc
            · exact hgt
            · exact Nat.lt_trans hgt (ha c hc)
      subst hij
      have hv : v = w := by have := heq i; simpa [Memory.get?] using this
      subst hv
      have := ih hm hm' (fun k => ?_)
      · rw [this]
      · by_cases hk : k = i
        · subst hk; rw [none_of m k ha, none_of m' k hb]
        · have := heq k; simpa [Memory.get?, hk] using this

end Sys2Proof.Machine
end

