-- ==== Sys2Proof/Laws/Bits.lean ====
section
/-! SUPPORT. Laws of bit strings: bytes and the pending byte, MSB-first (R63, R78, R128). -/

namespace Sys2Proof.Machine

@[simp] theorem byteBits_length (b : Byte) : (byteBits b).length = 8 := by simp [byteBits]

@[simp] theorem bitsOf_nil : bitsOf [] = [] := rfl

@[simp] theorem bitsOf_append (xs ys : List Byte) : bitsOf (xs ++ ys) = bitsOf xs ++ bitsOf ys := by
  simp [bitsOf]

@[simp] theorem bitsOf_singleton (b : Byte) : bitsOf [b] = byteBits b := by simp [bitsOf]

@[simp] theorem bitsOf_length (bs : List Byte) : (bitsOf bs).length = 8 * bs.length := by
  induction bs with
  | nil => rfl
  | cons b bs ih =>
    have : bitsOf (b :: bs) = byteBits b ++ bitsOf bs := by simp [bitsOf]
    rw [this, List.length_append, byteBits_length, ih, List.length_cons]; omega

theorem BitPacker.pendingBits_eq (b : BitPacker) :
    b.pendingBits = (List.range (8 - b.bitsRemaining.toNat)).map fun i => b.pendingByte.getLsbD (7 - i) := by
  simp only [BitPacker.pendingBits, byteBits, ← List.map_take, List.take_range]
  congr 2; omega

@[simp] theorem BitPacker.pendingBits_length (b : BitPacker) :
    b.pendingBits.length = 8 - b.bitsRemaining.toNat := by simp [BitPacker.pendingBits_eq]

@[simp] theorem BitPacker.bufferPrefix_length (b : BitPacker) (n : Nat) : (b.bufferPrefix n).length = n := by
  simp [BitPacker.bufferPrefix]

theorem BitPacker.bufferPrefix_succ (b : BitPacker) (n : Nat) :
    b.bufferPrefix (n + 1) = b.bufferPrefix n ++ [b.bufferByte n] := by
  simp [BitPacker.bufferPrefix, List.range_succ]

theorem BitPacker.bufferByte_commit (b : BitPacker) (i : Nat) :
    b.commit.bufferByte i = if i = b.bufferPosition.toNat then b.pendingByte else b.bufferByte i := by
  simp [BitPacker.bufferByte, Memory.read_write]

/-- A commit appends the pending byte to the committed ones. -/
theorem BitPacker.bufferPrefix_commit (b : BitPacker) :
    b.commit.bufferPrefix (b.bufferPosition.toNat + 1) = b.bufferPrefix b.bufferPosition.toNat ++ [b.pendingByte] := by
  rw [BitPacker.bufferPrefix_succ, BitPacker.bufferByte_commit, if_pos rfl]
  congr 1
  simp only [BitPacker.bufferPrefix]
  refine List.map_congr_left fun i hi => ?_
  rw [BitPacker.bufferByte_commit, if_neg (by have := List.mem_range.1 hi; omega)]

theorem BitPacker.commit_position_toNat {b : BitPacker} (h : b.bufferPosition.toNat ≤ 255) :
    b.commit.bufferPosition.toNat = b.bufferPosition.toNat + 1 := by
  simp [BitVec.toNat_add]; omega

theorem toNat_sub_one {x : BitVec 4} (h : 1 ≤ x.toNat) : (x - 1).toNat = x.toNat - 1 := by
  have := x.isLt
  simp [BitVec.toNat_sub]; omega

theorem eq_zero_iff_toNat {w : Nat} (x : BitVec w) : x = 0 ↔ x.toNat = 0 := by
  constructor
  · rintro rfl; simp
  · intro h; exact BitVec.eq_of_toNat_eq (by simpa using h)

/-- The bit an insertion sets, and the bits it keeps. -/
theorem BitPacker.insert_getLsbD (b : BitPacker) (bit : Bool) (i : Nat) (h : 1 ≤ b.bitsRemaining.toNat)
    (h8 : b.bitsRemaining.toNat ≤ 8) :
    (b.insert bit).pendingByte.getLsbD i =
      (b.pendingByte.getLsbD i || (decide (i = b.bitsRemaining.toNat - 1) && bit)) := by
  simp only [BitPacker.insert, BitVec.getLsbD_or, BitVec.getLsbD_shiftLeft, toNat_sub_one h]
  congr 1
  by_cases hi : i = b.bitsRemaining.toNat - 1
  · subst hi
    cases bit <;> simp
    omega
  · by_cases hlt : i < b.bitsRemaining.toNat - 1
    · simp [hi, hlt]
    · cases bit
      · simp [hi]
      · have : i - (b.bitsRemaining.toNat - 1) ≠ 0 := by omega
        simp [hi, BitVec.getLsbD_one, this]

/-- An insertion appends its bit to the pending ones (R137). -/
theorem BitPacker.pendingBits_insert (b : BitPacker) (bit : Bool) (h : 1 ≤ b.bitsRemaining.toNat)
    (h8 : b.bitsRemaining.toNat ≤ 8) (hz : ∀ i, i < b.bitsRemaining.toNat → b.pendingByte.getLsbD i = false) :
    (b.insert bit).pendingBits = b.pendingBits ++ [bit] := by
  have hr : (b.insert bit).bitsRemaining.toNat = b.bitsRemaining.toNat - 1 := by
    rw [BitPacker.insert_bitsRemaining, toNat_sub_one h]
  rw [BitPacker.pendingBits_eq, BitPacker.pendingBits_eq, hr,
    show 8 - (b.bitsRemaining.toNat - 1) = (8 - b.bitsRemaining.toNat) + 1 by omega, List.range_succ, List.map_append]
  congr 1
  · refine List.map_congr_left fun i hi => ?_
    have := List.mem_range.1 hi
    rw [BitPacker.insert_getLsbD _ _ _ h h8]
    have : 7 - i ≠ b.bitsRemaining.toNat - 1 := by omega
    simp [this]
  · simp only [List.map_cons, List.map_nil]
    rw [BitPacker.insert_getLsbD _ _ _ h h8,
      show 7 - (8 - b.bitsRemaining.toNat) = b.bitsRemaining.toNat - 1 by omega, hz _ (by omega)]
    simp

/-- A partly filled byte is its pending bits and then zeros (R25). -/
theorem BitPacker.byteBits_pendingByte (b : BitPacker) (h8 : b.bitsRemaining.toNat ≤ 8)
    (hz : ∀ i, i < b.bitsRemaining.toNat → b.pendingByte.getLsbD i = false) :
    byteBits b.pendingByte = b.pendingBits ++ List.replicate b.bitsRemaining.toNat false := by
  apply List.ext_getElem
  · simp; omega
  · intro i h1 h2
    rw [List.getElem_append]
    split
    · simp [byteBits, BitPacker.pendingBits_eq]
    · rename_i h3
      simp only [BitPacker.pendingBits_length] at h3
      simp only [byteBits_length] at h1
      simp only [byteBits, List.getElem_map, List.getElem_range, List.getElem_replicate]
      exact hz _ (by omega)

@[simp] theorem SinkPort.stream_record (k : SinkPort) (e : SinkEvent) :
    (k.record e).stream = k.stream ++ e.accepted := by
  simp [SinkPort.stream]

theorem SinkPort.stream_draw (k : SinkPort) : k.draw.2.stream = k.stream := by
  simp [SinkPort.stream]

@[simp] theorem valueBits_length (v : Word) (n : Nat) : (valueBits v n).length = n := by
  induction n with
  | zero => rfl
  | succ n ih => simp [valueBits, ih]

theorem valueBit_eq (v : Word) (i : Nat) : valueBit v i = v.getLsbD i := by
  simp [valueBit]

theorem bitsValue_cons (b : Bool) (bs : List Bool) : bitsValue (b :: bs) = b.toNat * 2 ^ bs.length + bitsValue bs := by
  have key : ∀ (l : List Bool) (a : Nat),
      l.foldl (fun n b => 2 * n + b.toNat) a = a * 2 ^ l.length + l.foldl (fun n b => 2 * n + b.toNat) 0 := by
    intro l
    induction l with
    | nil => simp
    | cons c l ih =>
      intro a
      rw [List.foldl_cons, List.foldl_cons, ih, ih (2 * 0 + c.toNat), List.length_cons, Nat.pow_succ]
      ring
  simp only [bitsValue, List.foldl_cons]
  rw [key]; simp

end Sys2Proof.Machine
end

