-- ==== Sys2Proof/Laws/Decode.lean ====
section
/-! SUPPORT. Everything decoding can do (R99, R105), and the operand fields as signed numbers (R94, R97). -/

namespace Sys2Proof

theorem bitVec_eq_iff {n : Nat} (x y : BitVec n) : x = y ↔ ∀ i, i < n → x.getLsbD i = y.getLsbD i :=
  ⟨fun h _ _ => h ▸ rfl, BitVec.eq_of_getLsbD_eq⟩

/-- A header that selects a row whose mask keeps the low byte has the row's opcode (R93). -/
theorem HeaderRow.opcField_of_selects {r : HeaderRow} {w0 : Word} (h : r.selects w0 = true)
    (hm : r.maskBits.extractLsb' 0 8 = 0xFF#8) : opcField w0 = r.matchBits.extractLsb' 0 8 := by
  have h := eq_of_beq h
  rw [← h, opcField]
  apply BitVec.eq_of_getLsbD_eq
  intro i hi
  have := congrArg (fun b : BitVec 8 => b.getLsbD i) hm
  simp only [BitVec.getLsbD_extractLsb'] at this
  have h8 : (0xFF#8).getLsbD i = true := by
    have : ∀ j : Fin 8, (0xFF#8).getLsbD j = true := by decide
    exact this ⟨i, hi⟩
  rw [h8] at this
  simp only [BitVec.getLsbD_extractLsb', BitVec.getLsbD_and]
  simp only [hi, decide_true, Bool.true_and] at this ⊢
  rw [this, Bool.and_true]

/-- Everything `decode` can do with a packet that has a header (R99, R105). -/
theorem decode_cases (w0 : Word) (ops : List Word) :
    (HeaderRow.writebit.selects w0 = true ∧ opcField w0 = 0x01#8 ∧
      decode (w0 :: ops) = (if ops.length = 0 then .ok (.bpWritebit (bitField w0)) else .error .wrongLength)) ∨
    (HeaderRow.write.selects w0 = true ∧ opcField w0 = 0x02#8 ∧
      ((ops.length ≠ 1 ∧ decode (w0 :: ops) = .error .wrongLength) ∨
        ∃ w1, ops = [w1] ∧ decode (w0 :: ops) = .ok (.bpWrite w1 (nbitsField w0)))) ∨
    (HeaderRow.flush.selects w0 = true ∧ opcField w0 = 0x03#8 ∧
      decode (w0 :: ops) = (if ops.length = 0 then .ok .bpFlush else .error .wrongLength)) ∨
    (HeaderRow.resize.selects w0 = true ∧ opcField w0 = 0x10#8 ∧
      ((ops.length ≠ 4 ∧ decode (w0 :: ops) = .error .wrongLength) ∨
        ∃ w1 w2 w3 w4, ops = [w1, w2, w3, w4] ∧
          decode (w0 :: ops) = .ok (.rsResize (dimWord w1) (dimWord w2) (dimWord w3) (dimWord w4)))) ∨
    (HeaderRow.writebit.selects w0 = false ∧ HeaderRow.write.selects w0 = false ∧
      HeaderRow.flush.selects w0 = false ∧ HeaderRow.resize.selects w0 = false ∧
      decode (w0 :: ops) = .error .noSuchHeader) := by
  simp only [decode]
  split
  · rename_i h
    refine .inl ⟨h, HeaderRow.opcField_of_selects h rfl, ?_⟩
    cases ops <;> simp
  · split
    · rename_i h
      refine .inr (.inl ⟨h, HeaderRow.opcField_of_selects h rfl, ?_⟩)
      match ops with
      | [] => simp
      | [w1] => simp
      | _ :: _ :: _ => simp
    · split
      · rename_i h
        refine .inr (.inr (.inl ⟨h, HeaderRow.opcField_of_selects h rfl, ?_⟩))
        cases ops <;> simp
      · split
        · rename_i h
          refine .inr (.inr (.inr (.inl ⟨h, HeaderRow.opcField_of_selects h rfl, ?_⟩)))
          match ops with
          | [] => simp
          | [_] => simp
          | [_, _] => simp
          | [_, _, _] => simp
          | [_, _, _, _] => simp
          | _ :: _ :: _ :: _ :: _ :: _ => simp
        · simp_all

/-- A bit count that the field admits survives it (R94). -/
theorem toInt_ofInt_nbits {n : Int} (h : Instr.nbitsFits n = true) : (BitVec.ofInt 8 n).toInt = n := by
  simp only [Instr.nbitsFits, decide_eq_true_eq] at h
  rw [BitVec.toInt_ofInt]
  simp [Int.bmod]; omega

/-- A dimension that an operand word admits survives it (R97). -/
theorem toInt_ofInt_dim {n : Int} (h : Instr.dimFits n = true) : (BitVec.ofInt 32 n).toInt = n := by
  simp only [Instr.dimFits, decide_eq_true_eq] at h
  rw [BitVec.toInt_ofInt]
  simp [Int.bmod]; omega

/-- Every operand word holds a dimension, and that dimension is written back as the word (R97). -/
theorem dimWord_fits (w : Word) : Instr.dimFits (dimWord w) = true ∧ BitVec.ofInt 32 (dimWord w) = w := by
  have h1 := BitVec.toInt_lt (x := w)
  have h2 := BitVec.le_toInt (x := w)
  refine ⟨?_, BitVec.ofInt_toInt⟩
  norm_num at h1 h2
  exact decide_eq_true ⟨by simp only [dimWord]; omega, by simp only [dimWord]; omega⟩

end Sys2Proof
end

