-- ==== Sys2Proof/Laws/Packer.lean ====
section
/-! SUPPORT. One lemma per BitPacker operation that says everything it can do; the at-rest invariant and the stream law for
each (R121, R122, R125, R134, R137). -/

namespace Sys2Proof.Machine

theorem commitPending_eq {s : State} (h : s.bp.bufferPosition.toNat ≤ 255) :
    commitPending s = .go (s.setBp s.bp.commit) := if_pos h

/-- The event of a sink write of `n` bytes that the sink answers so. -/
abbrev State.sinkEvent (s : State) (n : Nat) (answer : SinkAnswer) : SinkEvent :=
  { sink := s.bp.sink, bytes := s.bp.bufferPrefix n, answer := answer }

/-- The state after a sink write of `n` bytes that the sink answers `ok` (R121). -/
abbrev State.afterWrite (s : State) (n : Nat) : State :=
  (s.setSinkPort (s.sinkPort.draw.2.record (s.sinkEvent n .ok))).setBp s.bp.resetBuffer

/-- The state after a sink write of `n` bytes that the sink answers `fail`, before the completion record (R121, U1). -/
abbrev State.afterFailure (s : State) (n : Nat) : State :=
  (s.setSinkPort (s.sinkPort.draw.2.record (s.sinkEvent n .fail))).setBp s.bp.latchFault.unspecify

/-- The state of a command that waits for its sink write to be answered (R242). -/
abbrev State.afterSilence (s : State) : State := (s.setSinkPort s.sinkPort.draw.2).block

/-- Everything a sink write of at most 256 bytes can do (R121, R242). -/
theorem sinkWrite_cases (s : State) {n : Nat} (h : n ≤ 256) :
    (s.sinkPort.draw.1 = some .ok ∧ sinkWrite n s = .go (s.afterWrite n)) ∨
    (s.sinkPort.draw.1 = some .fail ∧ sinkWrite n s = raise .sinkWriteFailed (s.afterFailure n)) ∨
    (s.sinkPort.draw.1 = none ∧ sinkWrite n s = .ended s.afterSilence) := by
  unfold sinkWrite
  rw [if_pos h]
  rcases hd : s.sinkPort.draw with ⟨_ | a, p⟩
  · exact .inr (.inr ⟨rfl, by simp [State.afterSilence, hd]⟩)
  · cases a
    · exact .inl ⟨rfl, by simp [sinkAnswered, State.afterWrite, hd, State.sinkEvent]⟩
    · exact .inr (.inl ⟨rfl, by simp [sinkAnswered, State.afterFailure, hd, State.sinkEvent]⟩)

theorem sinkWrite_ok {s : State} {n : Nat} (h : n ≤ 256) (hd : s.sinkPort.draw.1 = some .ok) :
    sinkWrite n s = .go (s.afterWrite n) := by
  rcases sinkWrite_cases s h with ⟨-, e⟩ | ⟨h', -⟩ | ⟨h', -⟩
  · exact e
  · simp [hd] at h'
  · simp [hd] at h'

theorem sinkWrite_fail {s : State} {n : Nat} (h : n ≤ 256) (hd : s.sinkPort.draw.1 = some .fail) :
    sinkWrite n s = raise .sinkWriteFailed (s.afterFailure n) := by
  rcases sinkWrite_cases s h with ⟨h', -⟩ | ⟨-, e⟩ | ⟨h', -⟩
  · simp [hd] at h'
  · exact e
  · simp [hd] at h'

theorem sinkWrite_silent {s : State} {n : Nat} (h : n ≤ 256) (hd : s.sinkPort.draw.1 = none) :
    sinkWrite n s = .ended s.afterSilence := by
  rcases sinkWrite_cases s h with ⟨h', -⟩ | ⟨h', -⟩ | ⟨-, e⟩
  · simp [hd] at h'
  · simp [hd] at h'
  · exact e

/-- Everything the first statement of `PutBit` can do (R137). -/
theorem makeRoom_cases (s : State) (h : s.bp.bufferPosition.toNat ≤ 255) :
    (s.bp.bitsRemaining ≠ 0 ∧ makeRoom s = .go s) ∨
    (s.bp.bitsRemaining = 0 ∧ s.bp.bufferPosition.toNat < 255 ∧ makeRoom s = .go (s.setBp s.bp.commit)) ∨
    (s.bp.bitsRemaining = 0 ∧ s.bp.bufferPosition.toNat = 255 ∧ makeRoom s = sinkWrite 256 (s.setBp s.bp.commit)) := by
  unfold makeRoom
  by_cases hr : s.bp.bitsRemaining = 0
  · right
    rw [if_pos hr, commitPending_eq h, Flow.go_andThen]
    by_cases hp : s.bp.bufferPosition.toNat = 255
    · have : s.bp.commit.bufferPosition = 256 := BitVec.eq_of_toNat_eq (by rw [BitPacker.commit_position_toNat h, hp]; rfl)
      exact .inr ⟨hr, hp, by rw [State.setBp_bp, if_pos this]⟩
    · have : s.bp.commit.bufferPosition ≠ 256 := by
        intro he
        have := congrArg BitVec.toNat he
        rw [BitPacker.commit_position_toNat h] at this
        simp at this; omega
      exact .inl ⟨hr, by omega, by rw [State.setBp_bp, if_neg this]⟩
  · exact .inl ⟨hr, if_neg hr⟩

/-- Everything `PutBit` can do from a state at rest (R137). -/
theorem putBit_cases (bit : Bool) (s : State) (h : s.bp.bufferPosition.toNat ≤ 255) :
    (s.bp.bitsRemaining ≠ 0 ∧ putBit bit s = .go (s.setBp (s.bp.insert bit))) ∨
    (s.bp.bitsRemaining = 0 ∧ s.bp.bufferPosition.toNat < 255 ∧
      putBit bit s = .go (s.setBp (s.bp.commit.insert bit))) ∨
    (s.bp.bitsRemaining = 0 ∧ s.bp.bufferPosition.toNat = 255 ∧ s.sinkPort.draw.1 = some .ok ∧
      putBit bit s = .go (((s.setBp s.bp.commit).afterWrite 256).setBp
        (s.bp.commit.resetBuffer.insert bit))) ∨
    (s.bp.bitsRemaining = 0 ∧ s.bp.bufferPosition.toNat = 255 ∧ s.sinkPort.draw.1 = some .fail ∧
      putBit bit s = raise .sinkWriteFailed ((s.setBp s.bp.commit).afterFailure 256)) ∨
    (s.bp.bitsRemaining = 0 ∧ s.bp.bufferPosition.toNat = 255 ∧ s.sinkPort.draw.1 = none ∧
      putBit bit s = .ended (s.setBp s.bp.commit).afterSilence) := by
  unfold putBit
  rcases makeRoom_cases s h with ⟨hr, e⟩ | ⟨hr, hp, e⟩ | ⟨hr, hp, e⟩
  · exact .inl ⟨hr, by rw [e]; rfl⟩
  · exact .inr (.inl ⟨hr, hp, by rw [e]; rfl⟩)
  · rcases sinkWrite_cases (s.setBp s.bp.commit) (Nat.le_refl 256) with ⟨hd, e'⟩ | ⟨hd, e'⟩ | ⟨hd, e'⟩
    · exact .inr (.inr (.inl ⟨hr, hp, hd, by rw [e, e']; rfl⟩))
    · exact .inr (.inr (.inr (.inl ⟨hr, hp, hd, by rw [e, e']; rfl⟩)))
    · exact .inr (.inr (.inr (.inr ⟨hr, hp, hd, by rw [e, e']; rfl⟩)))

/-- What a procedure of the BitPacker leaves alone, whatever else it does: the parameters, the Resampler, the host's moves,
the sink binding; and the host's record only grows. -/
structure PackerFrame (s t : State) : Prop where
  params : t.params = s.params
  rs : t.rs = s.rs
  inputs : t.hostPort.inputs = s.hostPort.inputs
  sink : t.bp.sink = s.bp.sink
  log : s.sinkPort.log <+: t.sinkPort.log

theorem PackerFrame.refl (s : State) : PackerFrame s s := ⟨rfl, rfl, rfl, rfl, List.prefix_rfl⟩

theorem PackerFrame.trans {s t u : State} (h : PackerFrame s t) (h' : PackerFrame t u) : PackerFrame s u :=
  ⟨h'.params.trans h.params, h'.rs.trans h.rs, h'.inputs.trans h.inputs, h'.sink.trans h.sink, h.log.trans h'.log⟩

theorem PackerFrame.complete {s t : State} (h : PackerFrame s t) (c : Status) : PackerFrame s (t.complete c) :=
  ⟨h.params, h.rs, h.inputs, h.sink, h.log⟩

theorem PackerFrame.afterWrite (s : State) (n : Nat) : PackerFrame s (s.afterWrite n) :=
  ⟨rfl, rfl, rfl, rfl, by simp⟩

theorem PackerFrame.afterFailure (s : State) (n : Nat) : PackerFrame s (s.afterFailure n) :=
  ⟨rfl, rfl, rfl, rfl, by simp⟩

theorem PackerFrame.afterSilence (s : State) : PackerFrame s s.afterSilence :=
  ⟨rfl, rfl, rfl, rfl, by simp⟩

/-- How a procedure of the BitPacker can end early, after the sink writes `pre`, at a sink write of `len` bytes: the sink
failed, or the sink is silent. -/
inductive Interrupted (pre : List SinkEvent) (len : Nat) (s t : State) : Prop where
  /-- `SinkWriteFailed` (R136, R191): the failed write is logged, the fault latched, the record delivered. -/
  | failed (frame : PackerFrame s t) (fault : t.bp.bpFault = true)
      (record : t.hostPort = { s.hostPort with outputs := s.hostPort.outputs ++ [.completion Status.sinkWriteFailed.code] })
      (logged : ∃ e, t.sinkPort.log = s.sinkPort.log ++ pre ++ [e] ∧ e.answer = .fail ∧ e.sink = s.bp.sink ∧
        e.bytes.length = len)
      (emptied : t.bp.internalBuffer = [])
  /-- No answer (R242): nothing is logged, no record is delivered, the command waits. -/
  | waiting (frame : PackerFrame s t) (fault : t.bp.bpFault = s.bp.bpFault)
      (record : t.hostPort = { s.hostPort with blocked := true })
      (logged : t.sinkPort.log = s.sinkPort.log ++ pre)
      (buffer : s.bp.Inv → t.bp.Inv)

theorem BitPacker.Inv.commit {b : BitPacker} (h : b.Inv) (hp : b.bufferPosition.toNat ≤ 255) : b.commit.Inv :=
  ⟨Memory.wf_write _ _ h.wf, Memory.below_write _ h.below (by omega)⟩

theorem BitPacker.Inv.of_nil {b : BitPacker} (h : b.internalBuffer = []) : b.Inv :=
  ⟨by rw [h]; rfl, by rw [h]; intro c hc; simp at hc⟩

/-- A freshly started byte leaves no position of the old one (R122). -/
theorem BitPacker.commit_heldBits {b : BitPacker} (hp : b.bufferPosition.toNat ≤ 255) :
    b.commit.heldBits = bitsOf (b.bufferPrefix b.bufferPosition.toNat) ++ byteBits b.pendingByte := by
  simp only [BitPacker.heldBits, BitPacker.commit_position_toNat hp, BitPacker.bufferPrefix_commit, bitsOf_append,
    bitsOf_singleton, BitPacker.pendingBits, BitPacker.commit_bitsRemaining]
  simp

/-- Moving a full pending byte out keeps the held bits (R122, R128). -/
theorem BitPacker.commit_heldBits_full {b : BitPacker} (hp : b.bufferPosition.toNat ≤ 255) (hr : b.bitsRemaining = 0) :
    b.commit.heldBits = b.heldBits := by
  rw [BitPacker.commit_heldBits hp, BitPacker.heldBits, BitPacker.pendingBits, hr]
  simp

theorem BitPacker.insert_heldBits (b : BitPacker) (bit : Bool) (h : 1 ≤ b.bitsRemaining.toNat)
    (h8 : b.bitsRemaining.toNat ≤ 8) (hz : ∀ i, i < b.bitsRemaining.toNat → b.pendingByte.getLsbD i = false) :
    (b.insert bit).heldBits = b.heldBits ++ [bit] := by
  simp only [BitPacker.heldBits, BitPacker.insert_bufferPosition, BitPacker.insert_bufferPrefix,
    BitPacker.pendingBits_insert b bit h h8 hz,
    List.append_assoc]

/-- An insertion into a byte with room leaves the packer at rest (R134). -/
theorem BitPacker.insert_atRest {b : BitPacker} (bit : Bool) (h : 1 ≤ b.bitsRemaining.toNat)
    (h8 : b.bitsRemaining.toNat ≤ 8) (hp : b.bufferPosition.toNat ≤ 255)
    (hz : ∀ i, i < b.bitsRemaining.toNat → b.pendingByte.getLsbD i = false)
    (hl : Memory.listed b.internalBuffer b.bufferPosition.toNat) : (b.insert bit).AtRest where
  remaining_le := by rw [BitPacker.insert_bitsRemaining, toNat_sub_one h]; omega
  position_le := hp
  unfilled_zero i hi := by
    rw [BitPacker.insert_bitsRemaining, toNat_sub_one h] at hi
    rw [BitPacker.insert_getLsbD b bit i h h8, hz i (by omega)]
    have : i ≠ b.bitsRemaining.toNat - 1 := by omega
    simp [this]
  pending_of_committed _ := by rw [BitPacker.insert_bitsRemaining, toNat_sub_one h]; omega
  committed_listed := hl

/-- The number of bits the BitPacker holds (R128). -/
theorem BitPacker.heldBits_length (b : BitPacker) :
    b.heldBits.length = 8 * b.bufferPosition.toNat + (8 - b.bitsRemaining.toNat) := by
  simp [BitPacker.heldBits]

/-- `PutBit` of each bit of `bits`, reaching its end after the sink writes `pre` (R68, R128, R131, R134, R137). -/
structure PutDone (pre : List SinkEvent) (bits : List Bool) (s t : State) : Prop where
  frame : PackerFrame s t
  fault : t.bp.bpFault = s.bp.bpFault
  epoch : t.bp.epoch = s.bp.epoch
  hostPort : t.hostPort = s.hostPort
  atRest : t.bp.AtRest
  inv : s.bp.Inv → t.bp.Inv
  written : t.writtenBits = s.writtenBits ++ bits
  logged : t.sinkPort.log = s.sinkPort.log ++ pre
  automatic : ∀ e ∈ pre, e.answer = .ok ∧ e.bytes.length = 256 ∧ e.sink = s.bp.sink
  held : t.bp.heldBits.length + 2048 * pre.length = s.bp.heldBits.length + bits.length
  held_pos : bits ≠ [] → 1 ≤ t.bp.heldBits.length
  quiet : bits = [] → pre = []
  replies : pre.length ≤ s.sinkPort.replies.length → t.sinkPort.replies = s.sinkPort.replies.drop pre.length

theorem State.afterWrite_stream (s : State) (n : Nat) :
    (s.afterWrite n).sinkPort.stream = s.sinkPort.stream ++ s.bp.bufferPrefix n := by
  simp [SinkEvent.accepted, SinkPort.stream_draw]

theorem State.afterFailure_stream (s : State) (n : Nat) :
    (s.afterFailure n).sinkPort.stream = s.sinkPort.stream := by
  simp [SinkEvent.accepted, SinkPort.stream_draw]

theorem interrupted_afterFailure (s : State) (n : Nat) {b : BitPacker} (hs : b.sink = s.bp.sink) :
    Interrupted [] n s (((s.setBp b).afterFailure n).complete .sinkWriteFailed) :=
  .failed ⟨rfl, rfl, rfl, hs, by simp⟩ rfl rfl ⟨_, by simp; rfl, rfl, hs, by simp⟩ rfl

theorem interrupted_afterSilence (s : State) {b : BitPacker} (hs : b.sink = s.bp.sink)
    (hf : b.bpFault = s.bp.bpFault) (n : Nat) (hi : s.bp.Inv → b.Inv) : Interrupted [] n s (s.setBp b).afterSilence :=
  .waiting ⟨rfl, rfl, rfl, hs, by simp⟩ hf rfl (by simp) hi

theorem SinkPort.draw_replies {k : SinkPort} (h : 1 ≤ k.replies.length) :
    k.draw.2.replies = k.replies.drop 1 := by
  unfold SinkPort.draw
  split
  · simp_all
  · simp_all

/-- The drawn answer is the next listed one (log 4). -/
theorem SinkPort.draw_answersOk {k : SinkPort} {n : Nat} (h : k.answersOk n) (hn : 1 ≤ n) :
    k.draw.1 = some .ok := by
  unfold SinkPort.answersOk at h
  unfold SinkPort.draw
  obtain ⟨m, rfl⟩ : ∃ m, n = m + 1 := ⟨n - 1, by omega⟩
  split
  · rename_i r rest heq
    rw [heq] at h
    simp [List.replicate_succ] at h
    exact h.1
  · rename_i heq
    rw [heq] at h
    simp [List.replicate_succ] at h

/-- `PutBit` from a state at rest: it reaches its end, or it finds a full buffer and the sink stops it; it never runs out
of the buffer. -/
theorem putBit_spec (bit : Bool) {s : State} (h : s.bp.AtRest) :
    (∃ pre t, putBit bit s = .go t ∧ PutDone pre [bit] s t) ∨
    (s.bp.heldBits.length = 2048 ∧ s.sinkPort.draw.1 ≠ some .ok ∧
      ∃ t, putBit bit s = .ended t ∧ Interrupted [] 256 s t) := by
  rcases putBit_cases bit s h.position_le with ⟨hr, e⟩ | ⟨hr, hp, e⟩ | ⟨hr, hp, hd, e⟩ | ⟨hr, hp, hd, e⟩ | ⟨hr, hp, hd, e⟩
  · left
    have h1 : 1 ≤ s.bp.bitsRemaining.toNat := by
      rw [Ne, eq_zero_iff_toNat] at hr; omega
    have hh := BitPacker.insert_heldBits _ bit h1 h.remaining_le h.unfilled_zero
    refine ⟨[], _, e, ⟨rfl, rfl, rfl, rfl, List.prefix_rfl⟩, rfl, rfl, rfl, ?_, fun hi => ⟨hi.wf, hi.below⟩, ?_,
      by simp, by simp, ?_, ?_, by simp, by simp⟩
    · exact BitPacker.insert_atRest bit h1 h.remaining_le h.position_le h.unfilled_zero h.committed_listed
    · simp [State.writtenBits, hh]
    · simp [hh]
    · simp [hh]
  · left
    have hh := BitPacker.insert_heldBits s.bp.commit bit (by simp) (by simp) (by simp)
    rw [BitPacker.commit_heldBits_full h.position_le hr] at hh
    refine ⟨[], _, e, ⟨rfl, rfl, rfl, rfl, List.prefix_rfl⟩, rfl, rfl, rfl, ?_, fun hi => ?_, ?_,
      by simp, by simp, ?_, ?_, by simp, by simp⟩
    · refine BitPacker.insert_atRest bit (by simp) (by simp) ?_ (by simp) ?_
      · rw [BitPacker.commit_position_toNat h.position_le]; omega
      · rw [BitPacker.commit_position_toNat h.position_le]
        exact Memory.listed_write_next _ h.committed_listed
    · have := hi.commit h.position_le
      exact ⟨this.wf, this.below⟩
    · simp [State.writtenBits, hh]
    · simp [hh]
    · simp [hh]
  · left
    have hw : s.bp.commit.bufferPrefix 256 = s.bp.bufferPrefix s.bp.bufferPosition.toNat ++ [s.bp.pendingByte] := by
      rw [← BitPacker.bufferPrefix_commit, hp]
    have hh := BitPacker.insert_heldBits s.bp.commit.resetBuffer bit (by simp) (by simp) (by simp)
    have hlen : s.bp.heldBits.length = 2048 := by rw [BitPacker.heldBits_length, hp, hr]; rfl
    refine ⟨[(s.setBp s.bp.commit).sinkEvent 256 .ok], _, e, ⟨rfl, rfl, rfl, rfl, by simp⟩, rfl, rfl, rfl, ?_, fun hi => ?_,
      ?_, by simp, by simp, ?_, ?_, by simp, ?_⟩
    · exact BitPacker.insert_atRest bit (by simp) (by simp) (by simp) (by simp) (Memory.listed_zero _)
    · have := hi.commit h.position_le
      exact ⟨this.wf, this.below⟩
    · simp only [State.writtenBits, State.setBp_bp, State.setBp_sinkPort, State.setSinkPort_sinkPort,
        SinkPort.stream_record, SinkPort.stream_draw, SinkEvent.accepted, hw, hh]
      simp [BitPacker.heldBits, BitPacker.pendingBits, hr, BitPacker.bufferPrefix]
    · rw [hlen]; simp [hh, BitPacker.heldBits_length]
    · simp [hh]
    · intro hl
      simp only [List.length_singleton] at hl
      simp [SinkPort.draw_replies hl]
  all_goals
    have hlen : s.bp.heldBits.length = 2048 := by rw [BitPacker.heldBits_length, hp, hr]; rfl
  · exact .inr ⟨hlen, by simp [hd], _, e, interrupted_afterFailure s 256 rfl⟩
  · exact .inr ⟨hlen, by simp [hd], _, e, interrupted_afterSilence (b := s.bp.commit) s rfl rfl 256 fun hi => hi.commit h.position_le⟩

theorem PutDone.refl {s : State} (h : s.bp.AtRest) : PutDone [] [] s s :=
  ⟨.refl s, rfl, rfl, rfl, h, id, by simp, by simp, by simp, by simp, by simp, by simp, by simp⟩

theorem PutDone.trans {pre pre' : List SinkEvent} {bits bits' : List Bool} {s t u : State}
    (h : PutDone pre bits s t) (h' : PutDone pre' bits' t u) : PutDone (pre ++ pre') (bits ++ bits') s u where
  frame := h.frame.trans h'.frame
  fault := h'.fault.trans h.fault
  epoch := h'.epoch.trans h.epoch
  hostPort := h'.hostPort.trans h.hostPort
  atRest := h'.atRest
  inv hi := h'.inv (h.inv hi)
  written := by rw [h'.written, h.written, List.append_assoc]
  logged := by rw [h'.logged, h.logged, List.append_assoc]
  automatic e he := by
    rcases List.mem_append.1 he with he | he
    · exact h.automatic e he
    · rw [← h.frame.sink]; exact h'.automatic e he
  held := by have := h.held; have := h'.held; simp only [List.length_append]; omega
  held_pos hne := by
    by_cases hb : bits' = []
    · subst hb
      have h1 := h.held_pos (by simpa using hne)
      have h2 := h'.held
      simp only [List.length_nil] at h2
      rw [h'.quiet rfl] at h2
      simp at h2; omega
    · exact h'.held_pos hb
  quiet hb := by
    obtain ⟨h1, h2⟩ := List.append_eq_nil_iff.1 hb
    rw [h.quiet h1, h'.quiet h2]; rfl
  replies hl := by
    rw [List.length_append] at hl
    rw [h'.replies (by rw [h.replies (by omega), List.length_drop]; omega), h.replies (by omega), List.drop_drop,
      List.length_append]

theorem Interrupted.after {pre pre' : List SinkEvent} {bits : List Bool} {n : Nat} {s t u : State}
    (h : PutDone pre bits s t) (h' : Interrupted pre' n t u) : Interrupted (pre ++ pre') n s u := by
  cases h' with
  | failed frame fault record logged emptied =>
    obtain ⟨e, h1, h2, h3, h4⟩ := logged
    exact .failed (h.frame.trans frame) fault (by rw [record, h.hostPort])
      ⟨e, by rw [h1, h.logged]; simp, h2, h3.trans h.frame.sink, h4⟩ emptied
  | waiting frame fault record logged buffer =>
    exact .waiting (h.frame.trans frame) (fault.trans h.fault) (by rw [record, h.hostPort])
      (by rw [logged, h.logged]; simp) fun hi => buffer (h.inv hi)

/-- `PutBit` of each bit from a state at rest: it reaches its end, or the sink stops it at a full buffer. -/
theorem putBits_spec (bits : List Bool) {s : State} (h : s.bp.AtRest) :
    (∃ pre t, putBits bits s = .go t ∧ PutDone pre bits s t) ∨
    (∃ pre t, putBits bits s = .ended t ∧ Interrupted pre 256 s t ∧ (∀ e ∈ pre, e.answer = .ok ∧ e.bytes.length = 256) ∧
      2048 * (pre.length + 1) < s.bp.heldBits.length + bits.length) := by
  induction bits generalizing s with
  | nil => exact .inl ⟨[], s, rfl, .refl h⟩
  | cons b bs ih =>
    rcases putBit_spec b h with ⟨pre, t, e, hd⟩ | ⟨hl, -, t, e, hi⟩
    · rcases ih hd.atRest with ⟨pre', u, e', hd'⟩ | ⟨pre', u, e', hi', hok, hlt⟩
      · refine .inl ⟨pre ++ pre', u, ?_, ?_⟩
        · simp [putBits, e, e']
        · simpa using hd.trans hd'
      · refine .inr ⟨pre ++ pre', u, by simp [putBits, e, e'], hi'.after hd, ?_, ?_⟩
        · intro x hx
          rcases List.mem_append.1 hx with hx | hx
          · exact ⟨(hd.automatic x hx).1, (hd.automatic x hx).2.1⟩
          · exact hok x hx
        · have := hd.held
          simp only [List.length_append, List.length_cons, List.length_nil] at *; omega
    · refine .inr ⟨[], t, by simp [putBits, e], hi, by simp, ?_⟩
      simp only [List.length_cons, List.length_nil]; omega

theorem SinkPort.answersOk_drop {k k' : SinkPort} {n m : Nat} (h : k.answersOk n)
    (hr : k'.replies = k.replies.drop m) : k'.answersOk (n - m) := by
  unfold SinkPort.answersOk at *
  rw [hr, ← List.drop_take, h, List.drop_replicate]

theorem SinkPort.answersOk_length {k : SinkPort} {n : Nat} (h : k.answersOk n) : n ≤ k.replies.length := by
  have := congrArg List.length h
  simp at this; omega

/-- With enough `ok` answers listed, `PutBit` of each bit reaches its end. -/
theorem putBits_live (bits : List Bool) {s : State} (h : s.bp.AtRest) {k : Nat} (hk : s.sinkPort.answersOk k)
    (hb : s.bp.heldBits.length + bits.length ≤ 2048 * (k + 1)) :
    ∃ pre t, putBits bits s = .go t ∧ PutDone pre bits s t := by
  induction bits generalizing s k with
  | nil => exact ⟨[], s, rfl, .refl h⟩
  | cons b bs ih =>
    rcases putBit_spec b h with ⟨pre, t, e, hd⟩ | ⟨hl, hd, -⟩
    · have hheld := hd.held
      have hle : t.bp.heldBits.length ≤ 2048 := by
        rw [BitPacker.heldBits_length]; have := hd.atRest.position_le; omega
      have hpos := hd.held_pos (by simp)
      simp only [List.length_cons, List.length_nil] at hb hheld
      have hpk : pre.length ≤ k := by omega
      have hrep := hd.replies (by have := SinkPort.answersOk_length hk; omega)
      obtain ⟨pre', u, e', hd'⟩ := ih hd.atRest (SinkPort.answersOk_drop hk hrep) (by omega)
      exact ⟨pre ++ pre', u, by simp [putBits, e, e'], by simpa using hd.trans hd'⟩
    · exfalso
      simp only [List.length_cons] at hb
      exact hd (SinkPort.draw_answersOk hk (by omega))

end Sys2Proof.Machine
end

