-- ==== Sys2Proof/Laws/Flush.lean ====
section
/-! SUPPORT. Everything `BP.FLUSH` can do (R125). -/

namespace Sys2Proof.Machine

theorem BitPacker.commit_startByte (b : BitPacker) : b.commit.startByte = b.commit := rfl

/-- At rest an empty pending byte means an empty packer, which starting a byte leaves as it is (R25, R134). -/
theorem BitPacker.AtRest.startByte_self {b : BitPacker} (h : b.AtRest) (hr : b.bitsRemaining.toNat = 8) :
    b.startByte = b := by
  have hp : b.pendingByte = 0 := by
    apply BitVec.eq_of_getLsbD_eq
    intro i hi
    rw [h.unfilled_zero i (by omega)]; simp
  have hr' : b.bitsRemaining = 8 := BitVec.eq_of_toNat_eq hr
  cases b
  simp_all [BitPacker.startByte]

theorem BitPacker.AtRest.position_zero {b : BitPacker} (h : b.AtRest) (hr : b.bitsRemaining.toNat = 8) :
    b.bufferPosition.toNat = 0 := by
  have := h.pending_of_committed; omega

/-- At rest with nothing pending, `BP.FLUSH` only completes (R125, R129). -/
theorem execBpFlush_empty {s : State} (h : s.bp.AtRest) (hf : s.bp.bpFault = false) (hr : s.bp.bitsRemaining.toNat = 8) :
    execBpFlush s = .next (s.complete .ok) := by
  simp [execBpFlush, packerUsable, hf, flushPending, hr, h.startByte_self hr, h.position_zero hr]

/-- With something pending, `BP.FLUSH` commits it and writes everything committed (R125). -/
theorem execBpFlush_pending {s : State} (hf : s.bp.bpFault = false) (hr : s.bp.bitsRemaining.toNat < 8)
    (hp : s.bp.bufferPosition.toNat ≤ 255) :
    execBpFlush s = (sinkWrite (s.bp.bufferPosition.toNat + 1) (s.setBp s.bp.commit)).finish := by
  simp only [execBpFlush, packerUsable, hf, flushPending, hr, commitPending_eq hp, Bool.not_false, if_true,
    Flow.go_andThen, State.setBp_bp, BitPacker.commit_startByte, State.setBp_setBp,
    BitPacker.commit_position_toNat hp, Nat.succ_pos]

/-- The state after a flush whose sink write the sink accepts. -/
abbrev State.flushed (s : State) : State :=
  (s.setBp s.bp.commit).afterWrite (s.bp.bufferPosition.toNat + 1)

theorem State.flushed_empty (s : State) : s.flushed.bp.empty := ⟨rfl, rfl, rfl⟩

theorem BitPacker.empty.atRest {b : BitPacker} (h : b.empty) : b.AtRest := by
  obtain ⟨h1, h2, h3⟩ := h
  exact ⟨by simp [h1], by simp [h3], by simp [h2], by simp [h3], by rw [h3]; exact Memory.listed_zero _⟩

theorem BitPacker.empty.heldBits {b : BitPacker} (h : b.empty) : b.heldBits = [] := by
  obtain ⟨h1, h2, h3⟩ := h
  simp [BitPacker.heldBits, BitPacker.pendingBits, h1, h3, BitPacker.bufferPrefix]

/-- A flush the sink accepts sends every held bit, padded with zeros to whole bytes (R125, R128). -/
theorem State.flushed_stream {s : State} (h : s.bp.AtRest) :
    bitsOf s.flushed.sinkPort.stream = s.writtenBits ++ List.replicate s.bp.bitsRemaining.toNat false := by
  rw [State.flushed, State.afterWrite_stream]
  simp only [State.setBp_sinkPort, State.setBp_bp, BitPacker.bufferPrefix_commit, bitsOf_append, bitsOf_singleton,
    BitPacker.byteBits_pendingByte _ h.remaining_le h.unfilled_zero, State.writtenBits, BitPacker.heldBits,
    List.append_assoc]

/-- Everything `BP.FLUSH` can do from a state at rest without a fault (R125, R129, R136). -/
theorem execBpFlush_cases {s : State} (h : s.bp.AtRest) (hf : s.bp.bpFault = false) :
    (s.bp.bitsRemaining.toNat = 8 ∧ execBpFlush s = .next (s.complete .ok)) ∨
    (s.bp.bitsRemaining.toNat < 8 ∧ s.sinkPort.draw.1 = some .ok ∧ execBpFlush s = .next (s.flushed.complete .ok)) ∨
    (s.bp.bitsRemaining.toNat < 8 ∧ s.sinkPort.draw.1 ≠ some .ok ∧
      ∃ t, execBpFlush s = .next t ∧ Interrupted [] (s.bp.bufferPosition.toNat + 1) s t) := by
  by_cases hr : s.bp.bitsRemaining.toNat = 8
  · exact .inl ⟨hr, execBpFlush_empty h hf hr⟩
  · have hr : s.bp.bitsRemaining.toNat < 8 := by have := h.remaining_le; omega
    have hp := h.position_le
    rw [execBpFlush_pending hf hr hp]
    rcases sinkWrite_cases (s.setBp s.bp.commit) (n := s.bp.bufferPosition.toNat + 1) (by omega) with
      ⟨hd, e⟩ | ⟨hd, e⟩ | ⟨hd, e⟩
    · exact .inr (.inl ⟨hr, hd, by rw [e]; rfl⟩)
    · refine .inr (.inr ⟨hr, ?_, _, by rw [e]; rfl, interrupted_afterFailure (b := s.bp.commit) s _ rfl⟩)
      intro h'; simp only [State.setBp_sinkPort] at hd; simp [hd] at h'
    · refine .inr (.inr ⟨hr, ?_, _, by rw [e]; rfl,
        interrupted_afterSilence (b := s.bp.commit) s rfl rfl _ fun hi => hi.commit h.position_le⟩)
      intro h'; simp only [State.setBp_sinkPort] at hd; simp [hd] at h'

end Sys2Proof.Machine
end

