-- ==== Sys2Proof/Laws/Resampler.lean ====
section
/-! SUPPORT. The loops of `RS.RESIZE` on valid dimensions: accumulator invariants, closed form, and what they leave alone
(R157, R158, R159, R161, R162, R163, R167). -/

namespace Sys2Proof.Machine

/-- A sum of two remainders carries at most once. -/
theorem carry_once {b x m : Nat} (q : Nat) (hx : x < b) (hm : m < b) :
    ((b * q + (x + m)) / b = q + (if b ≤ x + m then 1 else 0)) ∧
    ((b * q + (x + m)) % b = if b ≤ x + m then x + m - b else x + m) := by
  have hb : 0 < b := by omega
  by_cases h : b ≤ x + m
  · have e : b * q + (x + m) = b * (q + 1) + (x + m - b) := by rw [Nat.mul_add]; omega
    rw [if_pos h, if_pos h, e, Nat.mul_add_div hb, Nat.mul_add_mod, Nat.div_eq_of_lt (by omega),
      Nat.mod_eq_of_lt (by omega)]
    exact ⟨rfl, rfl⟩
  · rw [if_neg h, if_neg h, Nat.mul_add_div hb, Nat.mul_add_mod, Nat.div_eq_of_lt (by omega),
      Nat.mod_eq_of_lt (by omega)]
    exact ⟨rfl, rfl⟩

theorem floor_split (a b c : Nat) (hb : 0 < b) : c * a / b = c * (a / b) + c * (a % b) / b := by
  have h : c * a = c * (a / b) * b + c * (a % b) := by
    conv_lhs => rw [← Nat.div_add_mod a b]
    ring
  rw [h, Nat.add_comm, Nat.add_mul_div_right _ _ hb, Nat.add_comm]

/-- `floor(c*a / b)` advances by `a / b`, and by one more when the accumulated remainder reaches `b` (R167). -/
theorem floor_step (a b c : Nat) (hb : 0 < b) :
    ((c + 1) * a / b = c * a / b + a / b + (if b ≤ (c * (a % b)) % b + a % b then 1 else 0)) ∧
    (((c + 1) * (a % b)) % b =
      if b ≤ (c * (a % b)) % b + a % b then (c * (a % b)) % b + a % b - b else (c * (a % b)) % b + a % b) := by
  obtain ⟨h1, h2⟩ := carry_once (c * (a % b) / b) (Nat.mod_lt (c * (a % b)) hb) (Nat.mod_lt a hb)
  have e : (c + 1) * (a % b) = b * (c * (a % b) / b) + (c * (a % b) % b + a % b) := by
    rw [← Nat.add_assoc, Nat.div_add_mod, Nat.add_mul, Nat.one_mul]
  rw [e, floor_split a b (c + 1) hb, floor_split a b c hb, e, h1, h2, Nat.add_mul, Nat.one_mul]
  exact ⟨by ac_rfl, rfl⟩

theorem floor_lt {a b c : Nat} (ha : 0 < a) (hc : c < b) : c * a / b < a := by
  rw [Nat.div_lt_iff_lt_mul (by omega)]
  calc c * a < b * a := Nat.mul_lt_mul_of_pos_right hc ha
    _ = a * b := Nat.mul_comm _ _

/-- Every sampled index is inside the source image (R162). -/
theorem sampleIndex_lt {orgWidth orgHeight width height r c : Nat} (hw : 0 < orgWidth) (hh : 0 < orgHeight)
    (hr : r < height) (hc : c < width) :
    sampleIndex orgWidth orgHeight width height r c < orgWidth * orgHeight := by
  have h1 := floor_lt hh hr
  have h2 := floor_lt hw hc
  unfold sampleIndex
  calc r * orgHeight / height * orgWidth + c * orgWidth / width
      < r * orgHeight / height * orgWidth + orgWidth := by omega
    _ = (r * orgHeight / height + 1) * orgWidth := by ring
    _ ≤ orgHeight * orgWidth := Nat.mul_le_mul_right _ h1
    _ = orgWidth * orgHeight := Nat.mul_comm _ _

theorem readSrc_eq {p : Params} {r : Resampler} {i : Nat} (h : i < p.maxPixels) :
    readSrc p r i = .ok (r.srcPixel p i) := if_pos h

theorem readDst_eq {p : Params} {r : Resampler} {i : Nat} (h : i < p.maxPixels) :
    readDst p r i = .ok (r.dstPixel p i) := if_pos h

/-- `r` with another `DST`. -/
def Resampler.withDst (r : Resampler) (m : Memory Pixel) : Resampler := { r with dst := m }

@[simp] theorem Resampler.withDst_dst (r : Resampler) (m : Memory Pixel) : (r.withDst m).dst = m := rfl
@[simp] theorem Resampler.withDst_src (r : Resampler) (m : Memory Pixel) : (r.withDst m).src = r.src := rfl
@[simp] theorem Resampler.withDst_srcLen (r : Resampler) (m : Memory Pixel) : (r.withDst m).srcLen = r.srcLen := rfl
@[simp] theorem Resampler.withDst_srcEpoch (r : Resampler) (m : Memory Pixel) :
    (r.withDst m).srcEpoch = r.srcEpoch := rfl
@[simp] theorem Resampler.withDst_srcPixel (p : Params) (r : Resampler) (m : Memory Pixel) (i : Nat) :
    (r.withDst m).srcPixel p i = r.srcPixel p i := rfl
@[simp] theorem Resampler.withDst_withDst (r : Resampler) (m m' : Memory Pixel) :
    (r.withDst m).withDst m' = r.withDst m' := rfl
@[simp] theorem Resampler.withDst_self (r : Resampler) : r.withDst r.dst = r := rfl

theorem writeDst_eq {p : Params} {r : Resampler} {i : Nat} {v : Pixel} (h : i < p.maxPixels) :
    writeDst p r i v = .ok (r.withDst (Memory.write r.dst i v)) := if_pos h

/-- `n` elements written from index `base` on, the `k`-th being `f k`. -/
def Memory.writeRun (f : Nat → Pixel) (base : Nat) : Nat → Memory Pixel → Memory Pixel
  | 0, m => m
  | n + 1, m => Memory.writeRun (fun k => f (k + 1)) (base + 1) n (Memory.write m base (f 0))

theorem Memory.get?_writeRun (f : Nat → Pixel) (base n : Nat) (m : Memory Pixel) (i : Nat) :
    Memory.get? (Memory.writeRun f base n m) i =
      if base ≤ i ∧ i < base + n then some (f (i - base)) else Memory.get? m i := by
  induction n generalizing f base m with
  | zero => rw [Memory.writeRun, if_neg (by omega)]
  | succ n ih =>
    rw [Memory.writeRun, ih, Memory.get?_write]
    by_cases h1 : base + 1 ≤ i ∧ i < base + 1 + n
    · rw [if_pos h1, if_pos (by omega)]
      congr 2; omega
    · rw [if_neg h1]
      by_cases h2 : i = base
      · subst h2; simp
      · rw [if_neg h2, if_neg (by omega)]

theorem Memory.wf_writeRun (f : Nat → Pixel) (base n : Nat) {m : Memory Pixel} (h : Memory.wf m = true) :
    Memory.wf (Memory.writeRun f base n m) = true := by
  induction n generalizing f base m with
  | zero => exact h
  | succ n ih => exact ih _ _ (Memory.wf_write _ _ h)

theorem Memory.below_writeRun (f : Nat → Pixel) {base n b : Nat} {m : Memory Pixel} (h : Memory.below b m)
    (hb : base + n ≤ b) : Memory.below b (Memory.writeRun f base n m) := by
  induction n generalizing f base m with
  | zero => exact h
  | succ n ih => exact ih _ (Memory.below_write _ h (by omega)) (by omega)

theorem Memory.mem_writeRun {f : Nat → Pixel} {base n : Nat} {m : Memory Pixel} {c : Nat × Pixel}
    (h : c ∈ Memory.writeRun f base n m) : (∃ k, k < n ∧ c.2 = f k) ∨ c ∈ m := by
  induction n generalizing f base m with
  | zero => exact .inr h
  | succ n ih =>
    rcases ih h with ⟨k, hk, e⟩ | h
    · exact .inl ⟨k + 1, by omega, e⟩
    · rcases Memory.mem_write h with rfl | h
      · exact .inl ⟨0, by omega, rfl⟩
      · exact .inr h

/-- A run of writes split in two. -/
theorem Memory.writeRun_add (f : Nat → Pixel) (base n k : Nat) (m : Memory Pixel) :
    Memory.writeRun f base (n + k) m =
      Memory.writeRun (fun i => f (n + i)) (base + n) k (Memory.writeRun f base n m) := by
  induction n generalizing f base m with
  | zero => simp [Memory.writeRun]
  | succ n ih =>
    rw [show n + 1 + k = (n + k) + 1 by omega, Memory.writeRun, ih, Memory.writeRun]
    congr 1
    · funext i; congr 1; omega
    · omega

theorem Memory.writeRun_congr {f g : Nat → Pixel} {base n : Nat} {m : Memory Pixel} (h : ∀ k, k < n → f k = g k) :
    Memory.writeRun f base n m = Memory.writeRun g base n m := by
  induction n generalizing f g base m with
  | zero => rfl
  | succ n ih =>
    rw [Memory.writeRun, Memory.writeRun, h 0 (by omega)]
    exact ih fun k hk => h (k + 1) (by omega)

/-- The column loop of a computed row (R158, R167). -/
theorem computeColumns_eq (p : Params) (orgWidth width : Nat) (steps : ResizeSteps) (hw : 0 < width)
    (hcol : steps.col = orgWidth / width) (hfrac : steps.colFraction = orgWidth % width)
    (n c rowStart dest : Nat) (r : Resampler)
    (hn : c + n = width)
    (hsrc : ∀ k, k < width → rowStart + k * orgWidth / width < p.maxPixels) (hdst : dest + n ≤ p.maxPixels) :
    ∃ g, computeColumns p width steps n
        { rs := r, hfrac := (c * (orgWidth % width)) % width, sourcePos := rowStart + c * orgWidth / width,
          destPos := dest } = .ok g ∧
      g.rs = r.withDst (Memory.writeRun (fun k => r.srcPixel p (rowStart + (c + k) * orgWidth / width)) dest n r.dst) ∧
      g.destPos = dest + n := by
  induction n generalizing c dest r with
  | zero => exact ⟨_, rfl, rfl, rfl⟩
  | succ n ih =>
    have hs : (c + 1) * orgWidth / width =
        c * orgWidth / width + orgWidth / width + (if width ≤ (c * (orgWidth % width)) % width + orgWidth % width then 1 else 0) :=
      (floor_step orgWidth width c hw).1
    have hf := (floor_step orgWidth width c hw).2
    simp only [computeColumns, readSrc_eq (hsrc c (by omega)), writeDst_eq (show dest < p.maxPixels by omega)]
    have hadv : advanceColumn width steps
        { rs := r.withDst (Memory.write r.dst dest (r.srcPixel p (rowStart + c * orgWidth / width))),
          hfrac := (c * (orgWidth % width)) % width, sourcePos := rowStart + c * orgWidth / width, destPos := dest } =
        { rs := r.withDst (Memory.write r.dst dest (r.srcPixel p (rowStart + c * orgWidth / width))),
          hfrac := ((c + 1) * (orgWidth % width)) % width, sourcePos := rowStart + (c + 1) * orgWidth / width,
          destPos := dest + 1 } := by
      rw [hs, hf]
      unfold advanceColumn
      simp only [hcol, hfrac]
      split <;> simp <;> omega
    rw [hadv]
    obtain ⟨g, e, h1, h2⟩ := ih (c + 1) (dest + 1)
      (r.withDst (Memory.write r.dst dest (r.srcPixel p (rowStart + c * orgWidth / width)))) (by omega) (by omega)
    refine ⟨g, e, ?_, by omega⟩
    rw [h1, Memory.writeRun]
    simp only [Resampler.withDst_srcPixel, Resampler.withDst_dst, Resampler.withDst_withDst, Nat.add_zero]
    congr 2
    funext k
    rw [show c + 1 + k = c + (k + 1) by omega]

/-- The element copies of a copied row (R157): they write what the row above holds. -/
theorem copyElements_eq (p : Params) (n src dst : Nat) (r : Resampler) (hs : src + n ≤ dst) (hd : dst + n ≤ p.maxPixels) :
    copyElements p n src dst r =
      .ok (r.withDst (Memory.writeRun (fun k => r.dstPixel p (src + k)) dst n r.dst)) := by
  induction n generalizing src dst r with
  | zero => rfl
  | succ n ih =>
    simp only [copyElements, readDst_eq (show src < p.maxPixels by omega), writeDst_eq (show dst < p.maxPixels by omega)]
    rw [ih (src + 1) (dst + 1) _ (by omega) (by omega), Memory.writeRun]
    simp only [Resampler.withDst_dst, Resampler.withDst_withDst, Nat.add_zero]
    congr 2
    refine Memory.writeRun_congr fun k hk => ?_
    have hne : src + 1 + k ≠ dst := by omega
    rw [Resampler.dstPixel, Resampler.withDst_dst, Memory.read_write, if_neg hne, show src + 1 + k = src + (k + 1) by omega]
    rfl

/-- The pixel the closed form gives for destination index `i` (R161). -/
def Resampler.sample (p : Params) (r : Resampler) (orgWidth orgHeight width height i : Nat) : Pixel :=
  r.srcPixel p (sampleIndex orgWidth orgHeight width height (i / width) (i % width))

theorem div_row {row k width : Nat} (h : k < width) : (row * width + k) / width = row := by
  rw [Nat.mul_comm, Nat.mul_add_div (by omega), Nat.div_eq_of_lt h]; omega

theorem mod_row {row k width : Nat} (h : k < width) : (row * width + k) % width = k := by
  rw [Nat.mul_comm, Nat.mul_add_mod, Nat.mod_eq_of_lt h]

/-- What the row loop has reached at the start of row `row` (R155, R167), in terms of the Resampler it started from. -/
structure RowInv (p : Params) (r0 : Resampler) (orgWidth orgHeight width height row : Nat) (g : RowRegs) : Prop where
  vfrac : g.vfrac = (row * (orgHeight % height)) % height
  sourceRowPos : g.sourceRowPos = orgWidth * (row * orgHeight / height)
  destPos : g.destPos = row * width
  last : (row = 0 ∧ g.lastRowPos = -1) ∨
    (1 ≤ row ∧ g.lastRowPos = ((orgWidth * ((row - 1) * orgHeight / height) : Nat) : Int))
  rs : g.rs = r0.withDst (Memory.writeRun (r0.sample p orgWidth orgHeight width height) 0 (row * width) r0.dst)

theorem RowInv.init (p : Params) (r0 : Resampler) (orgWidth orgHeight width height : Nat) :
    RowInv p r0 orgWidth orgHeight width height 0 (initAccumulators r0) := by
  constructor <;> simp [initAccumulators, Memory.writeRun]

/-- One destination row (R157, R158, R163): copied or computed, it holds the closed form. -/
theorem produceRow_eq {p : Params} {r0 : Resampler} {orgWidth orgHeight width height row : Nat} {g : RowRegs}
    (hw : 0 < orgWidth) (hh : 0 < orgHeight) (hwidth : 0 < width) (hrow : row < height)
    (hsrc : orgWidth * orgHeight ≤ p.maxPixels) (hdst : width * height ≤ p.maxPixels)
    (inv : RowInv p r0 orgWidth orgHeight width height row g) :
    ∃ g', produceRow p width (precompute orgWidth orgHeight width height) row g = .ok g' ∧
      g'.vfrac = g.vfrac ∧ g'.sourceRowPos = g.sourceRowPos ∧ g'.destPos = (row + 1) * width ∧
      g'.lastRowPos = (g.sourceRowPos : Int) ∧
      g'.rs = r0.withDst (Memory.writeRun (r0.sample p orgWidth orgHeight width height) 0 ((row + 1) * width) r0.dst) := by
  have hlast : (row + 1) * width ≤ width * height := by
    rw [Nat.mul_comm]; exact Nat.mul_le_mul_left _ hrow
  have hexp : (row + 1) * width = row * width + width := by ring
  have hsplit := Memory.writeRun_add (r0.sample p orgWidth orgHeight width height) 0 (row * width) width r0.dst
  rw [← hexp, Nat.zero_add] at hsplit
  unfold produceRow
  by_cases hcopy : (g.sourceRowPos : Int) = g.lastRowPos
  · rw [if_pos hcopy]
    rcases inv.last with ⟨-, hl⟩ | ⟨h1, hl⟩
    · rw [hl] at hcopy; omega
    · have hsame : row * orgHeight / height = (row - 1) * orgHeight / height := by
        rw [hl, inv.sourceRowPos] at hcopy
        exact Nat.eq_of_mul_eq_mul_left hw (by exact_mod_cast hcopy)
      have hprev : (row - 1) * width + width = row * width := by
        rw [← Nat.succ_mul]; congr 1; omega
      unfold copyPrevRow
      rw [copyElements_eq p width _ _ g.rs (by omega) (by omega)]
      refine ⟨_, rfl, rfl, rfl, ?_, hcopy.symm, ?_⟩
      · simp only [inv.destPos]; omega
      · simp only [inv.rs, Resampler.withDst_dst, Resampler.withDst_withDst, hsplit]
        congr 1
        refine Memory.writeRun_congr fun k hk => ?_
        rw [Resampler.dstPixel, Resampler.withDst_dst, Memory.read, Memory.get?_writeRun, if_pos (by omega)]
        simp only [Option.getD_some, Nat.sub_zero, Resampler.sample, sampleIndex, div_row hk, mod_row hk, hsame]
  · rw [if_neg hcopy]
    have hbound : ∀ k, k < width → g.sourceRowPos + k * orgWidth / width < p.maxPixels := by
      intro k hk
      have := sampleIndex_lt hw hh hrow hk
      rw [sampleIndex, Nat.mul_comm _ orgWidth, ← inv.sourceRowPos] at this
      omega
    obtain ⟨c, e, h1, h2⟩ := computeColumns_eq p orgWidth width (precompute orgWidth orgHeight width height) hwidth rfl rfl
      width 0 g.sourceRowPos g.destPos g.rs (by omega) hbound (by rw [inv.destPos]; omega)
    simp only [Nat.zero_mul, Nat.zero_mod, Nat.zero_div, Nat.add_zero, Nat.zero_add] at e h1
    unfold computeRow
    rw [e]
    refine ⟨_, rfl, rfl, rfl, ?_, rfl, ?_⟩
    · simp only [h2, inv.destPos]; omega
    · simp only [h1, inv.rs, Resampler.withDst_dst, Resampler.withDst_withDst, inv.destPos, hsplit,
        Resampler.withDst_srcPixel]
      congr 1
      refine Memory.writeRun_congr fun k hk => ?_
      simp only [Resampler.sample, sampleIndex, div_row hk, mod_row hk, inv.sourceRowPos]
      rw [Nat.mul_comm orgWidth]

/-- One turn of the row loop keeps its invariant (R159, R167). -/
theorem RowInv.advance {p : Params} {r0 : Resampler} {orgWidth orgHeight width height row : Nat} {g g' : RowRegs}
    (hheight : 0 < height) (inv : RowInv p r0 orgWidth orgHeight width height row g)
    (h1 : g'.vfrac = g.vfrac) (h2 : g'.sourceRowPos = g.sourceRowPos) (h3 : g'.destPos = (row + 1) * width)
    (h4 : g'.lastRowPos = (g.sourceRowPos : Int))
    (h5 : g'.rs = r0.withDst
      (Memory.writeRun (r0.sample p orgWidth orgHeight width height) 0 ((row + 1) * width) r0.dst)) :
    RowInv p r0 orgWidth orgHeight width height (row + 1)
      (advanceVertical orgWidth height (precompute orgWidth orgHeight width height) g') := by
  obtain ⟨hs, hf⟩ := floor_step orgHeight height row hheight
  have hv := inv.vfrac
  have hp := inv.sourceRowPos
  unfold advanceVertical
  simp only [precompute, h1, h2, hv, hp]
  have hrow : orgWidth * (row * orgHeight / height) + orgHeight / height * orgWidth =
      orgWidth * (row * orgHeight / height + orgHeight / height) := by ring
  split
  · rename_i hle
    rw [if_pos hle] at hs hf
    refine ⟨hf.symm, ?_, h3, .inr ⟨by omega, ?_⟩, h5⟩
    · simp only [hs, hrow, Nat.mul_add, Nat.mul_one]
    · simp only [h4, hp, Nat.add_sub_cancel]
  · rename_i hle
    rw [if_neg hle] at hs hf
    refine ⟨hf.symm, ?_, h3, .inr ⟨by omega, ?_⟩, h5⟩
    · simp only [hs, hrow, Nat.add_zero]
    · simp only [h4, hp, Nat.add_sub_cancel]

/-- The row loop runs to its end on valid dimensions, keeping its invariant (R73, R150, R162, R167). -/
theorem resizeRows_eq {p : Params} {r0 : Resampler} {orgWidth orgHeight width height : Nat}
    (hw : 0 < orgWidth) (hh : 0 < orgHeight) (hwidth : 0 < width)
    (hsrc : orgWidth * orgHeight ≤ p.maxPixels) (hdst : width * height ≤ p.maxPixels) (n row : Nat) (g : RowRegs)
    (hn : row + n ≤ height) (inv : RowInv p r0 orgWidth orgHeight width height row g) :
    ∃ g', resizeRows p orgWidth width height (precompute orgWidth orgHeight width height) n row g = .ok g' ∧
      RowInv p r0 orgWidth orgHeight width height (row + n) g' := by
  induction n generalizing row g with
  | zero => exact ⟨g, rfl, inv⟩
  | succ n ih =>
    obtain ⟨g', e, h1, h2, h3, h4, h5⟩ := produceRow_eq hw hh hwidth (show row < height by omega) hsrc hdst inv
    obtain ⟨g'', e', inv'⟩ := ih (row + 1) _ (by omega) (inv.advance (by omega) h1 h2 h3 h4 h5)
    refine ⟨g'', by simp only [resizeRows, e, e'], ?_⟩
    rwa [show row + (n + 1) = row + 1 + n by omega]

/-- The Resampler after the general path on valid dimensions (R160, R161). -/
def Resampler.resized (p : Params) (r : Resampler) (orgWidth orgHeight width height : Nat) : Resampler :=
  { r with
    dst := Memory.writeRun (r.sample p orgWidth orgHeight width height) 0 (width * height) r.dst
    dstLen := width * height
    resultSel := .dst
    resultLen := width * height }

/-- The general path never faults on valid dimensions and gives the closed form (R161). -/
theorem resizeGeneral_eq {p : Params} {r : Resampler} {orgWidth orgHeight width height : Nat}
    (hw : 0 < orgWidth) (hh : 0 < orgHeight) (hwidth : 0 < width)
    (hsrc : orgWidth * orgHeight ≤ p.maxPixels) (hdst : width * height ≤ p.maxPixels) :
    resizeGeneral p orgWidth orgHeight width height r = .ok (r.resized p orgWidth orgHeight width height) := by
  obtain ⟨g, e, inv⟩ := resizeRows_eq hw hh hwidth hsrc hdst height 0 _ (by omega)
    (RowInv.init p r orgWidth orgHeight width height)
  unfold resizeGeneral
  rw [e]
  simp only [Nat.zero_add] at inv
  simp only [inv.rs, Resampler.withDst, Resampler.resized, Nat.mul_comm height width]

end Sys2Proof.Machine
end

