-- ==== Sys2Proof/Laws/Frames.lean ====
section
/-! SUPPORT. What the commands do from any state, at rest or not: frames, completion records, and the three ways a command
of the BitPacker can end (R190, R199). -/

namespace Sys2Proof.Machine

/-- What a procedure of the BitPacker that reaches its end keeps. -/
structure WentOn (s t : State) : Prop where
  frame : PackerFrame s t
  hostPort : t.hostPort = s.hostPort
  fault : t.bp.bpFault = s.bp.bpFault
  stream : s.sinkPort.stream <+: t.sinkPort.stream

/-- What a procedure of the BitPacker that ends its command keeps: it has failed, or it waits. -/
structure Stopped (s t : State) : Prop where
  frame : PackerFrame s t
  stream : s.sinkPort.stream <+: t.sinkPort.stream
  how : (t.hostPort = { s.hostPort with outputs := s.hostPort.outputs ++ [.completion Status.sinkWriteFailed.code] } ∧
      t.bp.bpFault = true ∧ ∃ l e, t.sinkPort.log = s.sinkPort.log ++ l ++ [e] ∧ e.answer = .fail) ∨
    (t.hostPort = { s.hostPort with blocked := true } ∧ t.bp.bpFault = s.bp.bpFault)

/-- Where a flow from `s` can lead. -/
def Flow.Framed (s : State) : Flow → Prop
  | .go t => WentOn s t
  | .ended t => Stopped s t
  | .fault _ => True

theorem WentOn.refl (s : State) : WentOn s s := ⟨.refl s, rfl, rfl, List.prefix_rfl⟩

theorem WentOn.trans {s t u : State} (h : WentOn s t) (h' : WentOn t u) : WentOn s u :=
  ⟨h.frame.trans h'.frame, h'.hostPort.trans h.hostPort, h'.fault.trans h.fault, h.stream.trans h'.stream⟩

theorem Stopped.after {s t u : State} (h : WentOn s t) (h' : Stopped t u) : Stopped s u :=
  ⟨h.frame.trans h'.frame, h.stream.trans h'.stream, by
    rcases h'.how with ⟨hr, hf, l, e, hl, he⟩ | ⟨hr, hf⟩
    · obtain ⟨l', hl'⟩ := h.frame.log
      exact .inl ⟨by rw [hr, h.hostPort], hf, l' ++ l, e, by rw [hl, ← hl']; simp, he⟩
    · exact .inr ⟨by rw [hr, h.hostPort], by rw [hf, h.fault]⟩⟩

theorem Flow.Framed.andThen {s : State} {x : Flow} {f : State → Flow} (h : x.Framed s)
    (hf : ∀ t, WentOn s t → (f t).Framed t) : (x.andThen f).Framed s := by
  cases x with
  | go t =>
    have hx : WentOn s t := h
    have := hf t hx
    rw [Flow.go_andThen]
    cases hft : f t with
    | go u => rw [hft] at this; exact hx.trans this
    | ended u => rw [hft] at this; exact Stopped.after hx this
    | fault r => trivial
  | ended t => exact h
  | fault r => trivial

theorem commitPending_framed (s : State) : (commitPending s).Framed s := by
  unfold commitPending; split
  · exact ⟨⟨rfl, rfl, rfl, rfl, List.prefix_rfl⟩, rfl, rfl, List.prefix_rfl⟩
  · trivial

theorem sinkWrite_framed (n : Nat) (s : State) : (sinkWrite n s).Framed s := by
  by_cases h : n ≤ 256
  · rcases sinkWrite_cases s h with ⟨-, e⟩ | ⟨-, e⟩ | ⟨-, e⟩ <;> rw [e]
    · exact ⟨.afterWrite s n, rfl, rfl, by rw [State.afterWrite_stream]; exact List.prefix_append _ _⟩
    · refine ⟨(PackerFrame.afterFailure s n).complete _, ?_, .inl ⟨rfl, rfl, [], _, by simp; rfl, rfl⟩⟩
      rw [State.complete_sinkPort, State.afterFailure_stream]
    · exact ⟨.afterSilence s, by simp [SinkPort.stream_draw], .inr ⟨rfl, rfl⟩⟩
  · rw [sinkWrite, if_neg h]; trivial

theorem makeRoom_framed (s : State) : (makeRoom s).Framed s := by
  unfold makeRoom; split
  · refine (commitPending_framed s).andThen fun t _ => ?_
    split
    · exact sinkWrite_framed _ _
    · exact .refl t
  · exact .refl s

theorem putBit_framed (bit : Bool) (s : State) : (putBit bit s).Framed s :=
  (makeRoom_framed s).andThen fun _ _ => ⟨⟨rfl, rfl, rfl, rfl, List.prefix_rfl⟩, rfl, rfl, List.prefix_rfl⟩

theorem putBits_framed (bits : List Bool) (s : State) : (putBits bits s).Framed s := by
  induction bits generalizing s with
  | nil => exact .refl s
  | cons b bs ih => exact (putBit_framed b s).andThen fun t _ => ih t

theorem flush_framed (s : State) :
    ((flushPending s).andThen fun t =>
      if 0 < t.bp.bufferPosition.toNat then sinkWrite t.bp.bufferPosition.toNat t else .go t).Framed s := by
  have hp : (flushPending s).Framed s := by
    refine Flow.Framed.andThen ?_ fun _ _ => ⟨⟨rfl, rfl, rfl, rfl, List.prefix_rfl⟩, rfl, rfl, List.prefix_rfl⟩
    split
    · exact commitPending_framed s
    · exact .refl s
  refine hp.andThen fun t _ => ?_
  split
  · exact sinkWrite_framed _ _
  · exact .refl t

/-- The procedure a command of the BitPacker runs once it is past the gate and its operand check. -/
def Instr.procedure : Instr → State → Flow
  | .bpWritebit bit, s => putBit bit s
  | .bpWrite value nbits, s => putBits (valueBits value nbits.toNat) s
  | .bpFlush, s => (flushPending s).andThen fun t =>
      if 0 < t.bp.bufferPosition.toNat then sinkWrite t.bp.bufferPosition.toNat t else .go t
  | .rsResize _ _ _ _, s => .go s

theorem Instr.procedure_framed (i : Instr) (s : State) : (Instr.procedure i s).Framed s := by
  cases i with
  | bpWritebit bit => exact putBit_framed _ _
  | bpWrite value nbits => exact putBits_framed _ _
  | bpFlush => exact flush_framed s
  | rsResize => exact .refl s

/-- The condition a BP command is rejected with at the gate or its operand check (R120, R124, R198). -/
def Instr.packerCheck (i : Instr) (s : State) : Option Status :=
  if s.bp.bpFault then some .packerUnusable
  else
    match i with
    | .bpWrite _ nbits => if nbitsLegal nbits then none else some .invalidBitCount
    | _ => none

/-- A BP command is its gate, its operand check and its procedure (R123, R124, R125). -/
theorem exec_packer {i : Instr} (hi : i.isPacker = true) (s : State) :
    exec i s = match Instr.packerCheck i s with
      | some c => reject c s
      | none => (Instr.procedure i s).finish := by
  cases i with
  | rsResize => cases hi
  | bpWritebit bit => cases h : s.bp.bpFault <;> simp [exec, execBpWritebit, packerUsable, Instr.packerCheck, h, Instr.procedure]
  | bpFlush => cases h : s.bp.bpFault <;> simp [exec, execBpFlush, packerUsable, Instr.packerCheck, h, Instr.procedure]
  | bpWrite value nbits =>
    cases h : s.bp.bpFault <;> cases h' : nbitsLegal nbits <;>
      simp [exec, execBpWrite, packerUsable, Instr.packerCheck, h, h', Instr.procedure]

theorem Instr.packerCheck_status {i : Instr} {s : State} {c : Status} (h : Instr.packerCheck i s = some c) :
    (c = .packerUnusable ∧ s.bp.bpFault = true) ∨
    (c = .invalidBitCount ∧ s.bp.bpFault = false ∧ ∃ v n, i = .bpWrite v n ∧ (n < 0 ∨ 32 < n)) := by
  unfold Instr.packerCheck at h
  cases hf : s.bp.bpFault with
  | true => simp [hf] at h; exact .inl ⟨h.symm, rfl⟩
  | false =>
    cases i with
    | bpWrite v n =>
      cases hn : nbitsLegal n with
      | true => simp [hf, hn] at h
      | false =>
        simp [hf, hn] at h
        refine .inr ⟨h.symm, rfl, v, n, rfl, ?_⟩
        simp [nbitsLegal] at hn; omega
    | _ => simp [hf] at h

/-- The three ways a BP command that answers a next state can end (R11, R190): rejected with the state unchanged, completed
OK, or stopped by the sink. -/
theorem exec_packer_cases {i : Instr} (hi : i.isPacker = true) {s t : State} (h : exec i s = .next t) :
    (∃ c, Instr.packerCheck i s = some c ∧ t = s.complete c) ∨
    (Instr.packerCheck i s = none ∧ ∃ u, Instr.procedure i s = .go u ∧ WentOn s u ∧ t = u.complete .ok) ∨
    (Instr.packerCheck i s = none ∧ Instr.procedure i s = .ended t ∧ Stopped s t) := by
  rw [exec_packer hi] at h
  have hfr := Instr.procedure_framed i s
  cases hc : Instr.packerCheck i s with
  | some c =>
    rw [hc] at h
    exact .inl ⟨c, rfl, by simpa [reject] using h.symm⟩
  | none =>
    rw [hc] at h
    simp only at h
    cases hp : Instr.procedure i s with
    | go u =>
      rw [hp] at h hfr
      exact .inr (.inl ⟨rfl, u, rfl, hfr, by simpa using h.symm⟩)
    | ended u =>
      rw [hp] at h hfr
      have : u = t := by simpa using h
      subst this
      exact .inr (.inr ⟨rfl, rfl, hfr⟩)
    | fault r => rw [hp] at h; simp at h

/-- Whatever a BP command does, it leaves the parameters, the Resampler, the host's queue and the sink binding alone. -/
theorem exec_packer_frame {i : Instr} (hi : i.isPacker = true) {s t : State} (h : exec i s = .next t) :
    PackerFrame s t ∧ s.sinkPort.stream <+: t.sinkPort.stream := by
  rcases exec_packer_cases hi h with ⟨c, -, rfl⟩ | ⟨-, u, -, hu, rfl⟩ | ⟨-, -, ht⟩
  · exact ⟨(PackerFrame.refl s).complete c, List.prefix_rfl⟩
  · exact ⟨hu.frame.complete _, hu.stream⟩
  · exact ⟨ht.frame, ht.stream⟩

/-- The ways `RS.RESIZE` can end with a next state (R150). -/
theorem exec_resize_cases {ow oh w h : Int} {s t : State} (he : exec (.rsResize ow oh w h) s = .next t) :
    (∃ c, validate ow oh w h s = some c ∧ t = s.complete c) ∨
    (validate ow oh w h s = none ∧ ow = w ∧ oh = h ∧
      t = (s.setRs { s.rs with resultSel := .src, resultLen := s.rs.srcLen }).complete .ok) ∨
    (validate ow oh w h s = none ∧ ¬ (ow = w ∧ oh = h) ∧
      ∃ r, resizeGeneral s.params ow.toNat oh.toNat w.toNat h.toNat s.rs = .ok r ∧ t = (s.setRs r).complete .ok) := by
  simp only [exec, execRsResize] at he
  cases hv : validate ow oh w h s with
  | some c => rw [hv] at he; exact .inl ⟨c, rfl, by simpa [reject] using he.symm⟩
  | none =>
    rw [hv] at he
    simp only at he
    by_cases hid : ow = w ∧ oh = h
    · rw [if_pos (by simpa [dimsIdentical] using hid)] at he
      exact .inr (.inl ⟨rfl, hid.1, hid.2, by simpa using he.symm⟩)
    · rw [if_neg (by simpa [dimsIdentical] using hid)] at he
      cases hr : resizeGeneral s.params ow.toNat oh.toNat w.toNat h.toNat s.rs with
      | error e => rw [hr] at he; simp at he
      | ok r => rw [hr] at he; exact .inr (.inr ⟨rfl, hid, r, rfl, by simpa using he.symm⟩)

theorem validate_cases (ow oh w h : Int) (s : State) :
    (validate ow oh w h s = some .invalidDimensions ∧
      (ow ≤ 0 ∨ oh ≤ 0 ∨ w ≤ 0 ∨ h ≤ 0 ∨ ow * oh ≠ s.rs.srcLen)) ∨
    (validate ow oh w h s = some .outputCapacityExceeded ∧ 0 < ow ∧ 0 < oh ∧ 0 < w ∧ 0 < h ∧
      ow * oh = s.rs.srcLen ∧ (s.params.maxPixels : Int) < w * h) ∨
    (validate ow oh w h s = none ∧ 0 < ow ∧ 0 < oh ∧ 0 < w ∧ 0 < h ∧
      ow * oh = s.rs.srcLen ∧ w * h ≤ s.params.maxPixels) := by
  unfold validate
  by_cases hp : dimsPositive ow oh w h = true
  · rw [if_pos hp]
    simp only [dimsPositive, decide_eq_true_eq] at hp
    by_cases hl : ow * oh = s.rs.srcLen
    · rw [if_pos hl]
      by_cases hm : w * h ≤ s.params.maxPixels
      · rw [if_pos hm]; exact .inr (.inr ⟨rfl, hp.1, hp.2.1, hp.2.2.1, hp.2.2.2, hl, hm⟩)
      · rw [if_neg hm]; exact .inr (.inl ⟨rfl, hp.1, hp.2.1, hp.2.2.1, hp.2.2.2, hl, by omega⟩)
    · rw [if_neg hl]; exact .inl ⟨rfl, by simp [hl]⟩
  · rw [if_neg hp]
    refine .inl ⟨rfl, ?_⟩
    simp only [dimsPositive, decide_eq_true_eq] at hp
    by_contra hc
    simp only [not_or] at hc
    exact hp ⟨by omega, by omega, by omega, by omega⟩

/-- `RS.RESIZE` on valid dimensions that are not the identity (R161). -/
theorem exec_resize_general {ow oh w h : Int} {s : State} (hv : validate ow oh w h s = none)
    (hid : ¬ (ow = w ∧ oh = h)) (hs : s.rs.srcLen ≤ s.params.maxPixels) :
    exec (.rsResize ow oh w h) s =
      .next ((s.setRs (s.rs.resized s.params ow.toNat oh.toNat w.toNat h.toNat)).complete .ok) := by
  rcases validate_cases ow oh w h s with ⟨e, -⟩ | ⟨e, -⟩ | ⟨-, how, hoh, hw, hh, hl, hm⟩
  · simp [e] at hv
  · simp [e] at hv
  · obtain ⟨a, rfl⟩ := Int.eq_ofNat_of_zero_le how.le
    obtain ⟨b, rfl⟩ := Int.eq_ofNat_of_zero_le hoh.le
    obtain ⟨c, rfl⟩ := Int.eq_ofNat_of_zero_le hw.le
    obtain ⟨d, rfl⟩ := Int.eq_ofNat_of_zero_le hh.le
    simp only [exec, execRsResize, hv]
    rw [if_neg (by simpa [dimsIdentical] using hid)]
    simp only [Int.toNat_natCast]
    rw [resizeGeneral_eq (by omega) (by omega) (by omega) (by
      have : a * b = s.rs.srcLen := by exact_mod_cast hl
      omega) (by exact_mod_cast hm)]

end Sys2Proof.Machine
end

