-- ==== Sys2Proof/Laws/Step.lean ====
section
/-! SUPPORT. What a completion record tells of how a command ended, everything a step can do, and the bits of a value. -/

namespace Sys2Proof.Machine

theorem next_inj {s t : State} (h : (Host.Outcome.next s : Host.Outcome State Fault Refusal) = .next t) : s = t := by
  simpa using h

theorem complete_inj {s t : State} {c d : Status} (ho : s.hostPort.outputs = t.hostPort.outputs) (h : s.complete c = t.complete d) : c = d := by
  have := congrArg (fun u => u.hostPort.outputs) h
  simp [ho] at this
  cases c <;> cases d <;> first | rfl | (revert this; decide)

/-- the record a packer command ends with decides how it ended -/
theorem exec_packer_record {i : Instr} (hi : i.isPacker = true) {s : State} {c : Status} (hc : c.isRejection = true)
    (h : exec i s = .next (s.complete c)) : Instr.packerCheck i s = some c := by
  rcases exec_packer_cases hi h with ⟨d, hd, e⟩ | ⟨-, u, -, hu, e⟩ | ⟨-, -, ht⟩
  · rw [complete_inj rfl e, hd]
  · exfalso
    have := complete_inj (by rw [hu.hostPort]) e
    subst this; cases hc
  · exfalso
    rcases ht.how with ⟨hh, -⟩ | ⟨hh, -⟩
    · have := congrArg HostPort.outputs hh
      simp at this
      cases c <;> simp [Status.isRejection, Status.code] at *
    · have := congrArg HostPort.outputs hh
      simp at this

theorem exec_resize_record {ow oh w h : Int} {s : State} {c : Status} (hc : c.isRejection = true)
    (he : exec (.rsResize ow oh w h) s = .next (s.complete c)) : validate ow oh w h s = some c := by
  rcases exec_resize_cases he with ⟨d, hd, e⟩ | ⟨-, -, -, e⟩ | ⟨-, -, r, -, e⟩
  · rw [complete_inj rfl e, hd]
  · have := complete_inj (by rfl) e
    subst this; cases hc
  · have := complete_inj (by rfl) e
    subst this; cases hc

theorem validate_status {ow oh w h : Int} {s : State} {c : Status} (hv : validate ow oh w h s = some c) :
    c = .invalidDimensions ∨ c = .outputCapacityExceeded := by
  rcases validate_cases ow oh w h s with ⟨e, -⟩ | ⟨e, -⟩ | ⟨e, -⟩
  · left; rw [e] at hv; simpa using hv.symm
  · right; rw [e] at hv; simpa using hv.symm
  · rw [e] at hv; cases hv

/-- whole-machine step inversion -/
theorem step_cases {s t : State} (h : step s = .next t) :
    t = s ∨ (∃ m rest, s.hostPort.inputs = m :: rest ∧ (s.hostPort.blocked = false ∨ m = .reset) ∧ runMove m (s.dequeue rest) = .next t) := by
  unfold step at h
  split at h
  · exact .inl (next_inj h).symm
  · rename_i m rest hi
    split at h
    · exact .inl (next_inj h).symm
    · rename_i hb
      refine .inr ⟨m, rest, hi, ?_, h⟩
      by_cases hm : m = .reset
      · exact .inr hm
      · left; simpa [hm] using hb

theorem insert_fresh (b : BitPacker) (bit : Bool) (hr : b.bitsRemaining = 8) (hp : b.pendingByte = 0) :
   b.insert bit = { b with pendingByte := if bit then 0x80#8 else 0#8, bitsRemaining := 7 } := by
  simp only [BitPacker.insert, hr, hp]
  cases bit <;> rfl

theorem valueBits_eq (v : Word) (n : Nat) : valueBits v n = (List.range n).map (fun k => v.getLsbD (n - 1 - k)) := by
  induction n with
  | zero => rfl
  | succ n ih =>
    rw [valueBits, ih, List.range_succ_eq_map, valueBit_eq]
    simp only [List.map_cons, List.map_map, Nat.add_sub_cancel, Nat.sub_zero, List.cons.injEq, true_and]
    refine List.map_congr_left fun k hk => ?_
    simp only [Function.comp]; congr 1; omega

theorem legal {n : Nat} (h : n ≤ 32) : nbitsLegal (n : Int) = true := by simp [nbitsLegal]; omega

theorem exec_write {v : Word} {n : Nat} {s : State} (hn : n ≤ 32) (hf : s.bp.bpFault = false) :
    exec (.bpWrite v n) s = (putBits (valueBits v n) s).finish := by
  simp [exec, execBpWrite, packerUsable, hf, legal hn]

theorem bitsValue_valueBits (v : Word) (n : Nat) : bitsValue (valueBits v n) = v.toNat % 2 ^ n := by
  induction n with
  | zero => simp [valueBits, bitsValue, Nat.mod_one]
  | succ n ih =>
    rw [valueBits, bitsValue_cons, ih, valueBits_length, valueBit_eq, BitVec.getLsbD, Nat.toNat_testBit, Nat.mod_pow_succ]
    ring

/-- A procedure that ended early did not leave the BitPacker usable and the block unblocked. -/
theorem Interrupted.not_ready {pre : List SinkEvent} {n : Nat} {s t : State} (h : Interrupted pre n s t) : ¬ t.ready := by
  intro ht
  cases h with
  | failed _ hf _ _ _ => rw [ht.1] at hf; cases hf
  | waiting _ _ hrec _ _ => have := ht.2; rw [hrec] at this; cases this

end Sys2Proof.Machine
end

