-- ==== Sys2Proof/Laws/Runs.lean ====
section
/-! SUPPORT. Runs of commands: the procedures of the BitPacker under another host port, and legal writing commands one after another. -/

namespace Sys2Proof.Machine

/-- The procedures neither read nor write the host port: a reached end carries over to any other. -/
theorem commitPending_host {s t : State} (h : HostPort) (e : commitPending s = .go t) :
    commitPending (s.setHostPort h) = .go (t.setHostPort h) := by
  unfold commitPending at *
  split at e
  · rename_i hp
    have : s.setBp s.bp.commit = t := by simpa using e
    subst this
    exact if_pos hp
  · cases e

theorem sinkWrite_host {n : Nat} {s t : State} (h : HostPort) (e : sinkWrite n s = .go t) :
    sinkWrite n (s.setHostPort h) = .go (t.setHostPort h) := by
  by_cases hn : n ≤ 256
  · rcases sinkWrite_cases s hn with ⟨hd, e'⟩ | ⟨-, e'⟩ | ⟨-, e'⟩
    · rw [e'] at e
      have : s.afterWrite n = t := by simpa using e
      subst this
      rw [sinkWrite_ok hn (by simpa using hd)]
      rfl
    · rw [e'] at e; cases e
    · rw [e'] at e; cases e
  · rw [sinkWrite, if_neg hn] at e; cases e

theorem makeRoom_host {s t : State} (h : HostPort) (e : makeRoom s = .go t) :
    makeRoom (s.setHostPort h) = .go (t.setHostPort h) := by
  unfold makeRoom at *
  split at e
  · rename_i hr
    rw [if_pos (by simpa using hr)]
    cases hc : commitPending s with
    | go u =>
      rw [hc] at e
      rw [commitPending_host h hc]
      simp only [Flow.go_andThen] at e ⊢
      split at e
      · rename_i hb
        rw [if_pos (by simpa using hb)]; exact sinkWrite_host h e
      · rename_i hb
        rw [if_neg (by simpa using hb)]
        have : u = t := by simpa using e
        rw [this]
    | ended u => rw [hc] at e; cases e
    | fault r => rw [hc] at e; cases e
  · rename_i hr
    rw [if_neg (by simpa using hr)]
    have : s = t := by simpa using e
    rw [this]

theorem putBit_host {b : Bool} {s t : State} (h : HostPort) (e : putBit b s = .go t) :
    putBit b (s.setHostPort h) = .go (t.setHostPort h) := by
  unfold putBit at *
  cases hc : makeRoom s with
  | go u =>
    rw [hc] at e
    rw [makeRoom_host h hc]
    have : u.setBp (u.bp.insert b) = t := by simpa using e
    subst this; rfl
  | ended u => rw [hc] at e; cases e
  | fault r => rw [hc] at e; cases e

theorem putBits_host {bs : List Bool} {s t : State} (h : HostPort) (e : putBits bs s = .go t) :
    putBits bs (s.setHostPort h) = .go (t.setHostPort h) := by
  induction bs generalizing s with
  | nil => have : s = t := by simpa [putBits] using e
           rw [← this]; rfl
  | cons b bs ih =>
    simp only [putBits] at *
    cases hc : putBit b s with
    | go u => rw [hc] at e; rw [putBit_host h hc]; exact ih e
    | ended u => rw [hc] at e; cases e
    | fault r => rw [hc] at e; cases e

theorem putBits_go_of_framed {bs : List Bool} {s t : State} (e : putBits bs s = .go t) : WentOn s t := by
  have := putBits_framed bs s; rwa [e] at this
theorem putBit_go_of_framed {b : Bool} {s t : State} (e : putBit b s = .go t) : WentOn s t := by
  have := putBit_framed b s; rwa [e] at this

theorem exec_writebit {b : Bool} {s : State} (hf : s.bp.bpFault = false) : exec (.bpWritebit b) s = (putBit b s).finish := by
  simp [exec, execBpWritebit, packerUsable, hf]

theorem putBits_append (bs cs : List Bool) (s : State) : putBits (bs ++ cs) s = (putBits bs s).andThen (putBits cs) := by
  induction bs generalizing s with
  | nil => rfl
  | cons b bs ih =>
    simp only [List.cons_append, putBits, Flow.andThen_assoc]
    congr 1; exact funext ih

/-- A legal writing command is `PutBit` of its bits (R123, R124). -/
theorem exec_legal_write {i : Instr} {s : State} (hf : s.bp.bpFault = false)
    (hi : (∃ bit, i = .bpWritebit bit) ∨ (∃ value, ∃ nbits : Nat, nbits ≤ 32 ∧ i = .bpWrite value nbits)) :
    exec i s = (putBits (i.appendedBits 0) s).finish := by
  rcases hi with ⟨b, rfl⟩ | ⟨v, n, hn, rfl⟩
  · rw [exec_writebit hf]
    cases h : putBit b s <;> simp [Instr.appendedBits, putBits, h]
  · rw [exec_write hn hf, valueBits_eq]; rfl

/-- Legal writing commands are `PutBit` of all their bits in order, with one record each (R123, R124, R131). -/
theorem run_legal_writes {writes : List Instr} {s t : State}
    (hl : ∀ i ∈ writes, (∃ bit, i = .bpWritebit bit) ∨ (∃ value, ∃ nbits : Nat, nbits ≤ 32 ∧ i = .bpWrite value nbits))
    (hf : s.bp.bpFault = false) (e : putBits (writes.flatMap (Instr.appendedBits 0)) s = .go t) :
    runInstrs writes s = .next (t.setHostPort { t.hostPort with
      outputs := t.hostPort.outputs ++ List.replicate writes.length (.completion 0) }) := by
  induction writes generalizing s t with
  | nil => have : s = t := by simpa [putBits] using e
           subst this; simp [runInstrs, State.setHostPort]
  | cons i is ih =>
    rw [List.flatMap_cons, putBits_append] at e
    cases hc : putBits (i.appendedBits 0) s with
    | go u =>
      rw [hc, Flow.go_andThen] at e
      have h1 := putBits_go_of_framed hc
      have h2 := putBits_go_of_framed e
      simp only [runInstrs, exec_legal_write hf (hl i List.mem_cons_self), hc, Flow.finish_go]
      rw [ih (s := u.complete .ok) (fun j hj => hl j (List.mem_cons_of_mem _ hj))
        (by rw [State.complete_bp, h1.fault, hf]) (putBits_host (u.complete .ok).hostPort e)]
      simp [State.complete, h2.hostPort, Status.code, List.replicate_succ]
    | ended u => rw [hc] at e; cases e
    | fault r => rw [hc] at e; cases e

/-- `BP.WRITEBIT` of each bit is `PutBit` of each bit, with one record each (R123, R124, R131). -/
theorem run_writebits {bs : List Bool} {s t : State} (hf : s.bp.bpFault = false) (e : putBits bs s = .go t) :
    runInstrs (bs.map .bpWritebit) s = .next (t.setHostPort { t.hostPort with
      outputs := t.hostPort.outputs ++ List.replicate bs.length (.completion 0) }) := by
  have h : (bs.map Instr.bpWritebit).flatMap (Instr.appendedBits 0) = bs := by
    simp [List.flatMap_map, Instr.appendedBits]
  simpa using run_legal_writes (writes := bs.map .bpWritebit)
    (by simp only [List.mem_map]; rintro _ ⟨b, -, rfl⟩; exact .inl ⟨b, rfl⟩) hf (by rw [h]; exact e)

theorem Stopped.not_ready {s t : State} (h : Stopped s t) : ¬ t.ready := by
  intro ht
  rcases h.how with ⟨-, hf, -⟩ | ⟨hb, -⟩
  · rw [ht.1] at hf; cases hf
  · have := ht.2; rw [hb] at this; cases this

/-- Nothing but `HostReset` makes an unusable or waiting block ready (R120, R242). -/
theorem exec_not_ready {i : Instr} (hi : i.isPacker = true) {s t : State} (hs : ¬ s.ready) (e : exec i s = .next t) : ¬ t.ready := by
  rcases exec_packer_cases hi e with ⟨c, -, rfl⟩ | ⟨-, u, -, hu, rfl⟩ | ⟨-, -, ht⟩
  · exact hs
  · intro h; apply hs
    exact ⟨by rw [← hu.fault]; exact h.1, by rw [← hu.hostPort]; exact h.2⟩
  · exact ht.not_ready

theorem run_not_ready {is : List Instr} (hi : ∀ i ∈ is, i.isPacker = true) {s t : State} (hs : ¬ s.ready) (e : runInstrs is s = .next t) : ¬ t.ready := by
  induction is generalizing s with
  | nil => have := next_inj e; rwa [← this]
  | cons i is ih =>
    simp only [runInstrs] at e
    cases hx : exec i s with
    | next u => rw [hx] at e
                exact ih (fun j hj => hi j (List.mem_cons_of_mem _ hj)) (exec_not_ready (hi i List.mem_cons_self) hs hx) e
    | fault r => rw [hx] at e; cases e
    | refused r => rw [hx] at e; cases e

theorem run_writebits_ready {bs : List Bool} {s t : State} (hr : s.ready)
    (e : runInstrs (bs.map .bpWritebit) s = .next t) (ht : t.ready) : ∃ u, putBits bs s = .go u := by
  induction bs generalizing s with
  | nil => exact ⟨s, rfl⟩
  | cons b bs ih =>
    simp only [List.map_cons, runInstrs] at e
    rw [exec_writebit hr.1] at e
    cases hc : putBit b s with
    | go u =>
      rw [hc] at e
      simp only [Flow.finish_go] at e
      have h1 := putBit_go_of_framed hc
      obtain ⟨v, hv⟩ := ih (s := u.complete .ok) ⟨by rw [State.complete_bp, h1.fault, hr.1], by rw [State.complete_blocked, h1.hostPort, hr.2]⟩ e
      have := putBits_host u.hostPort hv
      exact ⟨_, by simp only [putBits, hc, Flow.go_andThen]; exact this⟩
    | ended u =>
      exfalso
      rw [hc] at e
      have := putBit_framed b s
      rw [hc] at this
      exact run_not_ready (by intro i hi; simp only [List.mem_map] at hi; obtain ⟨_, -, rfl⟩ := hi; rfl) this.not_ready e ht
    | fault r => rw [hc] at e; cases e

end Sys2Proof.Machine
end

