-- ==== Sys2Proof/Laws/Units.lean ====
section
/-! SUPPORT. The two units share nothing (R1, R2): the BitPacker's commands under a change of what they do not read, and
states up to the host's record. -/

namespace Sys2Proof.Machine

/-- `f` changes nothing that the BitPacker's procedures read, and commutes with all they write. -/
structure Blind (f : State → State) : Prop where
  bp : ∀ s, (f s).bp = s.bp
  sinkPort : ∀ s, (f s).sinkPort = s.sinkPort
  setBp : ∀ s b, (f s).setBp b = f (s.setBp b)
  setSinkPort : ∀ s k, (f s).setSinkPort k = f (s.setSinkPort k)
  block : ∀ s, (f s).block = f s.block
  complete : ∀ s c, (f s).complete c = f (s.complete c)

/-- A flow with its state changed by `f`. -/
def Flow.map (f : State → State) : Flow → Flow
  | .go s => .go (f s)
  | .ended s => .ended (f s)
  | .fault r => .fault r

theorem Flow.map_andThen {f : State → State} {x : Flow} {k : State → Flow} (hk : ∀ t, k (f t) = (k t).map f) :
    (x.map f).andThen k = (x.andThen k).map f := by
  cases x with
  | go t => exact hk t
  | ended t => rfl
  | fault r => rfl

theorem Blind.commitPending {f : State → State} (hf : Blind f) (s : State) :
    commitPending (f s) = (commitPending s).map f := by
  unfold Machine.commitPending
  rw [hf.bp]
  by_cases h : s.bp.bufferPosition.toNat ≤ 255
  · rw [if_pos h, if_pos h, hf.setBp]; rfl
  · rw [if_neg h, if_neg h]; rfl

theorem Blind.sinkWrite {f : State → State} (hf : Blind f) (n : Nat) (s : State) :
    sinkWrite n (f s) = (sinkWrite n s).map f := by
  by_cases h : n ≤ 256
  · rcases sinkWrite_cases s h with ⟨hd, e⟩ | ⟨hd, e⟩ | ⟨hd, e⟩ <;> rw [← hf.sinkPort] at hd
    · rw [e, sinkWrite_ok h hd]
      simp only [State.afterWrite, State.sinkEvent, hf.bp, hf.sinkPort, hf.setBp, hf.setSinkPort]; rfl
    · rw [e, sinkWrite_fail h hd]
      simp only [State.afterFailure, State.sinkEvent, hf.bp, hf.sinkPort, hf.setBp, hf.setSinkPort, raise, hf.complete]; rfl
    · rw [e, sinkWrite_silent h hd]
      simp only [State.afterSilence, hf.sinkPort, hf.setSinkPort, hf.block]; rfl
  · rw [Machine.sinkWrite, Machine.sinkWrite, if_neg h, if_neg h]; rfl

theorem Blind.makeRoom {f : State → State} (hf : Blind f) (s : State) : makeRoom (f s) = (makeRoom s).map f := by
  unfold Machine.makeRoom
  rw [hf.bp]
  by_cases h : s.bp.bitsRemaining = 0
  · rw [if_pos h, if_pos h, hf.commitPending]
    refine Flow.map_andThen fun t => ?_
    rw [hf.bp]
    by_cases h' : t.bp.bufferPosition = 256
    · rw [if_pos h', if_pos h', hf.sinkWrite]
    · rw [if_neg h', if_neg h']; rfl
  · rw [if_neg h, if_neg h]; rfl

theorem Blind.putBit {f : State → State} (hf : Blind f) (b : Bool) (s : State) : putBit b (f s) = (putBit b s).map f := by
  unfold Machine.putBit
  rw [hf.makeRoom]
  exact Flow.map_andThen fun t => by rw [hf.bp, hf.setBp]; rfl

theorem Blind.putBits {f : State → State} (hf : Blind f) (bs : List Bool) (s : State) :
    putBits bs (f s) = (putBits bs s).map f := by
  induction bs generalizing s with
  | nil => rfl
  | cons b bs ih => rw [Machine.putBits, Machine.putBits, hf.putBit]; exact Flow.map_andThen ih

theorem Blind.flushPending {f : State → State} (hf : Blind f) (s : State) :
    flushPending (f s) = (flushPending s).map f := by
  unfold Machine.flushPending
  rw [hf.bp]
  by_cases h : s.bp.bitsRemaining.toNat < 8
  · rw [if_pos h, if_pos h, hf.commitPending]
    exact Flow.map_andThen fun t => by rw [hf.bp, hf.setBp]; rfl
  · rw [if_neg h, if_neg h, Flow.go_andThen, Flow.go_andThen, hf.bp, hf.setBp]; rfl

/-- The BitPacker's procedures do not see what `f` changes (R1, R2). -/
theorem Blind.procedure {f : State → State} (hf : Blind f) (i : Instr) (s : State) :
    Instr.procedure i (f s) = (Instr.procedure i s).map f := by
  cases i with
  | bpWritebit b => exact hf.putBit b s
  | bpWrite v n => exact hf.putBits _ s
  | rsResize => rfl
  | bpFlush =>
    simp only [Instr.procedure]
    rw [hf.flushPending]
    refine Flow.map_andThen fun t => ?_
    rw [hf.bp]
    by_cases h : 0 < t.bp.bufferPosition.toNat
    · rw [if_pos h, if_pos h, hf.sinkWrite]
    · rw [if_neg h, if_neg h]; rfl

theorem Blind.exec {f : State → State} (hf : Blind f) {i : Instr} (hi : i.isPacker = true) {s t : State}
    (h : Machine.exec i s = .next t) : Machine.exec i (f s) = .next (f t) := by
  rw [exec_packer hi] at h ⊢
  have hc : Instr.packerCheck i (f s) = Instr.packerCheck i s := by unfold Instr.packerCheck; rw [hf.bp]
  rw [hc]
  cases hc : Instr.packerCheck i s with
  | some c => rw [hc] at h; have := next_inj h; subst this; rw [← hf.complete]; rfl
  | none =>
    rw [hc] at h
    simp only at h ⊢
    rw [hf.procedure]
    cases hp : Instr.procedure i s with
    | go u => rw [hp] at h; have := next_inj h; subst this; rw [← hf.complete]; rfl
    | ended u => rw [hp] at h; have := next_inj h; subst this; rfl
    | fault r => rw [hp] at h; cases h

/-- And the other way: what runs under `f` runs without it. -/
theorem Blind.exec_inv {f : State → State} (hf : Blind f) {i : Instr} (hi : i.isPacker = true) {s t : State}
    (h : Machine.exec i (f s) = .next t) : ∃ u, Machine.exec i s = .next u ∧ t = f u := by
  cases hs : Machine.exec i s with
  | next u => exact ⟨u, rfl, (next_inj ((hf.exec hi hs).symm.trans h)).symm⟩
  | fault r =>
    rw [exec_packer hi] at h hs
    have hc : Instr.packerCheck i (f s) = Instr.packerCheck i s := by unfold Instr.packerCheck; rw [hf.bp]
    rw [hc] at h
    cases hc : Instr.packerCheck i s with
    | some c => rw [hc] at hs; cases hs
    | none =>
      rw [hc] at h hs
      simp only [hf.procedure] at h hs
      cases hp : Instr.procedure i s <;> rw [hp] at h hs
      · cases hs
      · cases hs
      · cases h
  | refused r =>
    rw [exec_packer hi] at hs
    cases hc : Instr.packerCheck i s with
    | some c => rw [hc] at hs; cases hs
    | none =>
      rw [hc] at hs
      simp only at hs
      cases hp : Instr.procedure i s <;> rw [hp] at hs <;> cases hs

theorem blind_setRs (r : Resampler) : Blind (·.setRs r) := ⟨fun _ => rfl, fun _ => rfl, fun _ _ => rfl, fun _ _ => rfl, fun _ => rfl, fun _ _ => rfl⟩

/-- `s` as if the host had received `outs` before. -/
def State.received (outs : List HostReply) (s : State) : State :=
  s.setHostPort { s.hostPort with outputs := outs ++ s.hostPort.outputs }

theorem blind_received (outs : List HostReply) : Blind (State.received outs) :=
  ⟨fun _ => rfl, fun _ => rfl, fun _ _ => rfl, fun _ _ => rfl, fun _ => rfl,
    fun s c => by simp [State.received, State.complete]⟩

theorem State.received_silent (s : State) : State.received s.hostPort.outputs s.silent = s := by
  simp only [State.received, State.silent, State.setHostPort_setHostPort, State.setHostPort_hostPort, List.append_nil]
  rfl

theorem silent_received (outs : List HostReply) (s : State) : (State.received outs s).silent = s.silent := rfl

/-- A BP command does the same whatever the host has received. -/
theorem exec_packer_silent {i : Instr} (hi : i.isPacker = true) {s t s' : State} (h : exec i s = .next t)
    (hs : s'.silent = s.silent) : ∃ t', exec i s' = .next t' ∧ t'.silent = t.silent := by
  rw [← State.received_silent s] at h
  obtain ⟨u, hu, rfl⟩ := (blind_received _).exec_inv hi h
  rw [← hs] at hu
  have := (blind_received s'.hostPort.outputs).exec hi hu
  rw [State.received_silent] at this
  exact ⟨_, this, rfl⟩

end Sys2Proof.Machine
end

