-- ==== Sys2Proof/Laws/HostPort.lean ====
section
/-! SUPPORT. Everything the host's moves other than a command can do (R80, R230). -/

namespace Sys2Proof.Machine

/-- Everything `HostLoadSource` can do. -/
theorem hostLoadSource_cases (pixels : List Pixel) (s : State) :
    (pixels.length ≤ s.params.maxPixels ∧ (∀ v ∈ pixels, v < 2 ^ s.params.pixW) ∧
      hostLoadSource pixels s = .next (s.setRs { s.rs with
        src := Memory.ofList 0 pixels, srcLen := pixels.length, srcEpoch := s.rs.srcEpoch + 1 })) ∨
    (pixels.length ≤ s.params.maxPixels ∧ (∃ v ∈ pixels, 2 ^ s.params.pixW ≤ v) ∧
      hostLoadSource pixels s = .refused .hostPixelTooWide) ∨
    (s.params.maxPixels < pixels.length ∧ hostLoadSource pixels s = .refused .hostLoadTooLong) := by
  unfold hostLoadSource
  by_cases h1 : pixels.length ≤ s.params.maxPixels
  · rw [if_pos h1]
    by_cases h2 : pixels.all (pixelFits s.params) = true
    · rw [if_pos h2]; exact .inl ⟨h1, by simpa [pixelFits] using h2, rfl⟩
    · rw [if_neg h2]; exact .inr (.inl ⟨h1, by simpa [pixelFits] using h2, rfl⟩)
  · rw [if_neg h1]; exact .inr (.inr ⟨by omega, rfl⟩)

/-- Everything `HostWriteSourcePixel` can do. -/
theorem hostWriteSourcePixel_cases (index : Nat) (value : Pixel) (s : State) :
    (index < s.rs.srcLen ∧ value < 2 ^ s.params.pixW ∧
      hostWriteSourcePixel index value s = .next (s.setRs { s.rs with src := Memory.write s.rs.src index value })) ∨
    (index < s.rs.srcLen ∧ 2 ^ s.params.pixW ≤ value ∧
      hostWriteSourcePixel index value s = .refused .hostPixelTooWide) ∨
    (s.rs.srcLen ≤ index ∧ hostWriteSourcePixel index value s = .refused .hostPixelIndex) := by
  unfold hostWriteSourcePixel
  by_cases h1 : index < s.rs.srcLen
  · rw [if_pos h1]
    by_cases h2 : pixelFits s.params value = true
    · rw [if_pos h2]; exact .inl ⟨h1, by simpa [pixelFits] using h2, rfl⟩
    · rw [if_neg h2]; exact .inr (.inl ⟨h1, by simpa [pixelFits] using h2, rfl⟩)
  · rw [if_neg h1]; exact .inr (.inr ⟨by omega, rfl⟩)

/-- A next state of `HostReadResult` differs in the host's record only. -/
theorem hostReadResult_next {s t : State} (h : hostReadResult s = .next t) :
    ∃ pixels, t = s.setHostPort { s.hostPort with
      outputs := s.hostPort.outputs ++ [.result s.rs.resultSel s.rs.resultLen pixels] } := by
  unfold hostReadResult at h
  split at h
  · cases h
  · exact ⟨_, (next_inj h).symm⟩

/-- What `SRC` reads as after `HostWriteSourcePixel` (R80). -/
theorem srcPixel_write (p : Params) (r : Resampler) (index k : Nat) (value : Pixel) :
    Resampler.srcPixel p { r with src := Memory.write r.src index value } k =
      if k = index then value else r.srcPixel p k := Memory.read_write ..

theorem readRun_eq {read : Nat → Except Fault Pixel} {f : Nat → Pixel} {i n : Nat}
    (h : ∀ k, i ≤ k → k < i + n → read k = .ok (f k)) :
    readRun read i n = .ok ((List.range n).map fun k => f (i + k)) := by
  induction n generalizing i with
  | zero => rfl
  | succ n ih =>
    rw [readRun, h i (by omega) (by omega), ih fun k h1 h2 => h k (by omega) (by omega)]
    simp only [List.range_succ_eq_map, List.map_cons, List.map_map, Nat.add_zero]
    congr 2
    refine List.map_congr_left fun k _ => ?_
    simp only [Function.comp]; congr 1; omega

/-- `HostReadResult` while there is no result (R80). -/
theorem hostReadResult_none {s : State} (h : s.rs.resultSel = .none) :
    hostReadResult s = .next (s.setHostPort { s.hostPort with outputs := s.hostPort.outputs ++
      [.result .none s.rs.resultLen []] }) := by
  simp [hostReadResult, resultPixels, h]

/-- `HostReadResult` while the result lies in `SRC` (R80). -/
theorem hostReadResult_src {s : State} (h : s.rs.resultSel = .src) (hl : s.rs.resultLen ≤ s.params.maxPixels) :
    hostReadResult s = .next (s.setHostPort { s.hostPort with outputs := s.hostPort.outputs ++
      [.result .src s.rs.resultLen ((List.range s.rs.resultLen).map (s.rs.srcPixel s.params))] }) := by
  simp only [hostReadResult, resultPixels, h]
  rw [readRun_eq (f := s.rs.srcPixel s.params) fun k _ hk => readSrc_eq (by omega)]
  simp

/-- `HostReadResult` while the result lies in `DST` (R80). -/
theorem hostReadResult_dst {s : State} (h : s.rs.resultSel = .dst) (hl : s.rs.resultLen ≤ s.params.maxPixels) :
    hostReadResult s = .next (s.setHostPort { s.hostPort with outputs := s.hostPort.outputs ++
      [.result .dst s.rs.resultLen ((List.range s.rs.resultLen).map (s.rs.dstPixel s.params))] }) := by
  simp only [hostReadResult, resultPixels, h]
  rw [readRun_eq (f := s.rs.dstPixel s.params) fun k _ hk => readDst_eq (by omega)]
  simp

end Sys2Proof.Machine
end

