-- ==== Sys2Proof/Laws/PerInstr.lean ====
section
/-! SUPPORT. A statement about every instruction as syntax, one lemma per constructor: the packet that `encode` makes has the
length that its own opcode requires (R90, R98). -/

namespace Sys2Proof.Laws.EncodeLength

/-- The encoding has a header, and as many words as the header's opcode requires (R98). -/
def Statement (i : Instr) : Prop :=
  ∃ w0 operands, encode i = w0 :: operands ∧ packetLength (opcField w0) = some (operands.length + 1)

theorem bpWritebit (bit : Bool) : Statement (.bpWritebit bit) := by
  refine ⟨_, _, rfl, ?_⟩
  cases bit <;> decide

theorem bpWrite (value : Word) (nbits : Int) : Statement (.bpWrite value nbits) := by
  refine ⟨_, _, rfl, ?_⟩
  have h : ∀ x : BitVec 8, opcField (0x00000002#32 ||| (x.zeroExtend 32 <<< 8)) = 0x02#8 := by decide
  rw [h]; exact (by decide : packetLength 0x02#8 = some 2)

theorem bpFlush : Statement .bpFlush := ⟨_, _, rfl, by decide⟩

theorem rsResize (orgWidth orgHeight width height : Int) : Statement (.rsResize orgWidth orgHeight width height) :=
  ⟨_, _, rfl, (by decide : packetLength (opcField 0x00000010#32) = some 5)⟩

end Sys2Proof.Laws.EncodeLength
end

