-- ==== Sys2Proof/Tests/Slice0.lean ====
section
/-! SUPPORT. Tests on single steps, expected values from spec/95_test_vectors.md and spec/30_encoding.md; and for every
statement with hypotheses a named witness that they can be met. -/

namespace Sys2Proof.Tests

open Sys2Proof Sys2Proof.Machine

/-! ## Helpers -/

/-- The outcome is a next state that satisfies `f`. -/
def gives (o : Host.Outcome State Fault Refusal) (f : State → Bool) : Bool :=
  match o with
  | .next t => f t
  | _ => false

theorem gives_next {o : Host.Outcome State Fault Refusal} {f : State → Bool} (h : gives o f = true) :
    ∃ t, o = .next t ∧ f t = true := by
  cases o with
  | next t => exact ⟨t, rfl, h⟩
  | fault r => cases h
  | refused r => cases h

/-- The machine after reset with 8-bit pixels and 64 of them. -/
def machine : State := State.resetOf { pixW := 8, maxPixels := 64 }

/-- The machine with `position` bytes 0xFF committed, the pending byte as given, and the sink's next answers listed. -/
def packer (position remaining : Nat) (pending : Byte) (replies : List (Option SinkAnswer)) : State :=
  (machine.setBp { machine.bp with
    internalBuffer := Memory.ofList 0 (List.replicate position 0xFF#8)
    bufferPosition := BitVec.ofNat 9 position
    pendingByte := pending
    bitsRemaining := BitVec.ofNat 4 remaining }).setSinkPort { log := [], replies := replies, draws := 0 }

/-- The machine after a failed sink write. -/
def faulted : State := machine.setBp { machine.bp with bpFault := true }

/-- The machine with a source buffer loaded. -/
def loaded (pixels : List Pixel) : State :=
  machine.setRs { machine.rs with src := Memory.ofList 0 pixels, srcLen := pixels.length }

/-- `s` with the host's moves to come. -/
def moves (inputs : List HostMove) (s : State) : State := s.setHostPort { s.hostPort with inputs := inputs }

/-- `s` with a command waiting for its sink. -/
def waiting (s : State) : State := s.setHostPort { s.hostPort with blocked := true }

/-- Position, pending byte and unfilled positions, as the vectors write a BitPacker state. -/
def bpState (t : State) : Nat × Nat × Nat :=
  (t.bp.bufferPosition.toNat, t.bp.pendingByte.toNat, t.bp.bitsRemaining.toNat)

/-- The last thing the host has received. -/
def lastReply (t : State) : Option HostReply := t.hostPort.outputs.getLast?

/-- The bytes and answers of the sink writes. -/
def writes (t : State) : List (List Byte × SinkAnswer) := t.sinkPort.log.map fun e => (e.bytes, e.answer)

theorem packer_atRest {position remaining : Nat} {pending : Byte} {replies : List (Option SinkAnswer)}
    (hp : position ≤ 255) (hr : remaining ≤ 7)
    (hz : ∀ i, i < remaining → pending.getLsbD i = false) : (packer position remaining pending replies).bp.AtRest := by
  have h1 : (packer position remaining pending replies).bp.bufferPosition.toNat = position := by
    simp [packer]; omega
  have h2 : (packer position remaining pending replies).bp.bitsRemaining.toNat = remaining := by
    simp [packer]; omega
  refine ⟨by omega, by omega, ?_, fun _ => by omega, ?_⟩
  · rw [h2]; exact hz
  · rw [h1]
    have := Memory.listed_ofList (List.replicate position 0xFF#8)
    rwa [List.length_replicate] at this

theorem machine_empty : machine.bp.empty := ⟨rfl, rfl, rfl⟩
theorem machine_atRest : machine.bp.AtRest := machine_empty.atRest
theorem machine_ready : machine.ready := ⟨rfl, rfl⟩
theorem packer_ready (position remaining : Nat) (pending : Byte) (replies : List (Option SinkAnswer)) :
    (packer position remaining pending replies).ready := ⟨rfl, rfl⟩

theorem machine_inv : machine.Inv := by
  refine ⟨⟨by decide, by decide, by decide⟩, BitPacker.Inv.of_nil rfl, ?_, fun _ _ => machine_atRest⟩
  exact ⟨rfl, rfl, fun c hc => absurd hc (by simp [machine, State.resetOf, Resampler.afterReset]),
    fun c hc => absurd hc (by simp [machine, State.resetOf, Resampler.afterReset]),
    fun c hc => absurd hc (by simp [machine, State.resetOf, Resampler.afterReset]),
    fun c hc => absurd hc (by simp [machine, State.resetOf, Resampler.afterReset]),
    Nat.zero_le _, Nat.zero_le _, Nat.zero_le _, Memory.listed_zero _, Memory.listed_zero _,
    fun h => absurd h (by decide), fun _ => rfl⟩

/-! ## Well-formed commands: one refused term per check of `Instr.wf` -/

theorem test_wf_nbits_low : Instr.wf (.bpWrite 0 (-129)) = false := by decide
theorem test_wf_nbits_high : Instr.wf (.bpWrite 0 128) = false := by decide
theorem test_wf_orgWidth_low : Instr.wf (.rsResize (-2147483649) 1 1 1) = false := by decide
theorem test_wf_orgWidth_high : Instr.wf (.rsResize 2147483648 1 1 1) = false := by decide
theorem test_wf_orgHeight_low : Instr.wf (.rsResize 1 (-2147483649) 1 1) = false := by decide
theorem test_wf_orgHeight_high : Instr.wf (.rsResize 1 2147483648 1 1) = false := by decide
theorem test_wf_width_low : Instr.wf (.rsResize 1 1 (-2147483649) 1) = false := by decide
theorem test_wf_width_high : Instr.wf (.rsResize 1 1 2147483648 1) = false := by decide
theorem test_wf_height_low : Instr.wf (.rsResize 1 1 1 (-2147483649)) = false := by decide
theorem test_wf_height_high : Instr.wf (.rsResize 1 1 1 2147483648) = false := by decide

/-! ## Decoding: words written out bit by bit from the header layout (R91) as RSV, BIT, NBITS, OPC -/

/-- E1: `bp.writebit 1`. -/
theorem test_decode_writebit : decode [0b000000000000000_1_00000000_00000001#32] = .ok (.bpWritebit true) := by decide
/-- E3: `bp.write 5, 3`. -/
theorem test_decode_write : decode [0b000000000000000_0_00000011_00000010#32, 5#32] = .ok (.bpWrite 5#32 3) := by decide
/-- E5: `NBITS` is signed. -/
theorem test_decode_write_negative :
    decode [0b000000000000000_0_10000000_00000010#32, 0#32] = .ok (.bpWrite 0#32 (-128)) := by decide
/-- E7: `bp.flush`. -/
theorem test_decode_flush : decode [0b000000000000000_0_00000000_00000011#32] = .ok .bpFlush := by decide
/-- E18: `rs.resize 1, 2, 1, 4`; the operand words in the source's order. -/
theorem test_decode_resize :
    decode [0b000000000000000_0_00000000_00010000#32, 1#32, 2#32, 1#32, 4#32] = .ok (.rsResize 1 2 1 4) := by decide
/-- The last worked encoding: dimensions are signed. -/
theorem test_decode_resize_negative :
    decode [0b000000000000000_0_00000000_00010000#32, 4#32, 4#32, 0xFFFFFFFF#32, 2#32] = .ok (.rsResize 4 4 (-1) 2) := by
  decide
/-- E12: `BP.WRITE` without its operand word. -/
theorem test_decode_write_short : decode [0x00000002#32] = .error .wrongLength := by decide
/-- E13: `NBITS` nonzero outside `BP.WRITE`. -/
theorem test_decode_resize_nbits : decode [0x00000110#32, 1#32, 1#32, 1#32, 1#32] = .error .noSuchHeader := by decide
/-- E14: an unassigned opcode. -/
theorem test_decode_unassigned : decode [0x00000004#32] = .error .noSuchHeader := by decide
/-- E15: `RS.RESIZE` with 4 words. -/
theorem test_decode_resize_short : decode [0x00000010#32, 4#32, 4#32, 2#32] = .error .wrongLength := by decide
/-- The table's numbering: the second word stands above the first. -/
theorem test_table_word : decodeTableWord 64 0x0000000500000302 = some (.bpWrite 5#32 3) := by decide

/-! ## One step each -/

/-- B1: the first bit goes to bit 7. -/
theorem test_writebit_first : gives (exec (.bpWritebit true) machine) (fun t => bpState t = (0, 0x80, 7)) = true := by
  decide
/-- B8b at its ninth bit: the full byte is committed, the bit starts a fresh byte. -/
theorem test_writebit_commits :
    gives (exec (.bpWritebit true) (packer 0 0 0xFF []))
      (fun t => bpState t = (1, 0x80, 7) && Memory.get? t.bp.internalBuffer 0 == some 0xFF#8) = true := by decide
/-- B3: the second byte of a 16-bit write is still pending. -/
theorem test_write_sixteen :
    gives (exec (.bpWrite 0xABCD#32 16) machine)
      (fun t => bpState t = (1, 0xCD, 0) && Memory.get? t.bp.internalBuffer 0 == some 0xAB#8) = true := by decide
/-- B7: a bit count of 33 is rejected with code 3. -/
theorem test_write_rejected :
    gives (exec (.bpWrite 7#32 33) machine)
      (fun t => bpState t = (0, 0, 8) && lastReply t == some (.completion 3)) = true := by decide
/-- B2 at its flush: the partial byte goes out padded with zeros. -/
theorem test_flush_partial :
    gives (exec .bpFlush (packer 0 5 0xA0 [some .ok]))
      (fun t => bpState t = (0, 0, 8) && writes t == [([0xA0#8], .ok)]) = true := by decide
/-- P5 at its flush: a sink that fails is reported with code 1, and the fault is latched. -/
theorem test_flush_fails :
    gives (exec .bpFlush (packer 0 0 0xA5 [some .fail]))
      (fun t => t.bp.bpFault && writes t == [([0xA5#8], .fail)] && lastReply t == some (.completion 1)) = true := by
  decide
/-- Q5: widths and heights that do not divide. -/
theorem test_resize_fractions :
    gives (exec (.rsResize 2 3 3 2) (loaded [1, 2, 3, 4, 5, 6]))
      (fun t => t.rs.dst == Memory.ofList 0 [1, 1, 2, 3, 3, 4] && t.rs.resultLen == 6) = true := by decide
/-- Q8: copied rows. -/
theorem test_resize_copies :
    gives (exec (.rsResize 2 2 2 4) (loaded [1, 2, 3, 4]))
      (fun t => t.rs.dst == Memory.ofList 0 [1, 2, 1, 2, 3, 4, 3, 4] && t.rs.resultSel == .dst) = true := by decide
/-- E16: an illegal packet is answered with code 4 also while the packer is unusable. -/
theorem test_illegal_before_gate :
    gives (step (moves [.command [0#32]] faulted)) (fun t => lastReply t == some (.completion 4)) = true := by decide
/-- E17: the gate comes before the operand check. -/
theorem test_gate_before_operands :
    gives (step (moves [.command [0x0000FF02#32, 7#32]] faulted)) (fun t => lastReply t == some (.completion 5)) = true := by
  decide
/-- Q20 at its last step: a write to `SRC` shows in the result. -/
theorem test_alias :
    gives (hostReadResult ((loaded [99, 1, 2, 3]).setRs
        { (loaded [99, 1, 2, 3]).rs with resultSel := .src, resultLen := 4 }))
      (fun t => lastReply t == some (.result .src 4 [99, 1, 2, 3])) = true := by decide
/-- The command placed by `withFetchWord` is the very next one. -/
theorem test_withFetchWord :
    gives (step (machine.withFetchWord 32 0x00010001)) (fun t => bpState t = (0, 0x80, 7)) = true := by decide

/-! ## Witnesses: the hypotheses of each statement, clause by clause, met by concrete states and operands -/

theorem witness_ResetMeetsTheInvariant :
    Params.Inv ⟨8, 64⟩ ∧ Params.Inv ⟨1, 1⟩ ∧ Params.Inv ⟨1, 4611686018427387903⟩ :=
  ⟨⟨by decide, by decide, by decide⟩, ⟨by decide, by decide, by decide⟩, ⟨by decide, by decide, by decide⟩⟩

theorem witness_HostResetRestoresTheResetState :
    (moves [.reset, .readResult] (waiting faulted)).hostPort.inputs = .reset :: [.readResult] := rfl

theorem witness_DecodeInvertsEncode :
    Instr.wf (.bpWritebit true) = true ∧ Instr.wf (.bpWrite 0xFFFFFFFF#32 (-128)) = true ∧
    Instr.wf (.bpWrite 0 127) = true ∧ Instr.wf .bpFlush = true ∧
    Instr.wf (.rsResize (-2147483648) 2147483647 0 (-1)) = true := by decide

theorem witness_EncodeInvertsDecode : decode [0x00002002#32, 0x80000001#32] = .ok (.bpWrite 0x80000001#32 32) := by
  decide

theorem witness_DecodeRejectsExactlyTheIllegalPackets :
    decode [] = .error .emptyPacket ∧ decode [0x00020001#32] = .error .noSuchHeader ∧
    decode [0x00000003#32, 0#32] = .error .wrongLength ∧ 0x0000FF02#32 &&& 0xFFFF00FF#32 = 0x00000002#32 := by decide

theorem witness_PacketLengthFollowsTheOpcode :
    (0x00#8 ≠ 0x01#8 ∧ 0x00#8 ≠ 0x02#8 ∧ 0x00#8 ≠ 0x03#8 ∧ 0x00#8 ≠ 0x10#8) ∧
    decode (0x00000003#32 :: []) = .ok .bpFlush := by decide

theorem witness_IllegalPacketsAreRejected :
    (moves [.command []] faulted).hostPort.inputs = .command [] :: [] ∧
    (moves [.command []] faulted).hostPort.blocked = false ∧ decode [] = .error .emptyPacket := by decide

theorem witness_StepRunsTheDecodedInstruction :
    (moves [.command [0x00000003#32], .reset] machine).hostPort.inputs = .command [0x00000003#32] :: [.reset] ∧
    (moves [.command [0x00000003#32], .reset] machine).hostPort.blocked = false ∧ Instr.wf .bpFlush = true ∧
    decode [0x00000003#32] = .ok .bpFlush := by decide

theorem witness_StepWaitsForTheHostAndTheSink :
    machine.hostPort.inputs = [] ∧ (moves [.readResult] (waiting machine)).hostPort.inputs = .readResult :: [] ∧
    (moves [.readResult] (waiting machine)).hostPort.blocked = true ∧ HostMove.readResult ≠ .reset := by decide

theorem witness_PackerUnusableExactlyWhileFaulted :
    (Instr.isPacker .bpFlush = true ∧ faulted.bp.bpFault = true) ∧
    ∃ t, step (moves [.reset] faulted) = .next t ∧ (moves [.reset] faulted).bp.bpFault = true ∧ t.bp.bpFault = false :=
  ⟨by decide, _, rfl, rfl, rfl⟩

theorem witness_WritebitFollowsPutBit :
    faulted.bp.bpFault = true ∧
    ((packer 255 1 0xFE []).bp.bpFault = false ∧ (packer 255 1 0xFE []).bp.bitsRemaining ≠ 0) ∧
    ((packer 254 0 0xFF []).bp.bitsRemaining = 0 ∧ (packer 254 0 0xFF []).bp.bufferPosition.toNat < 255) ∧
    ((packer 255 0 0xFF [some .ok]).bp.bitsRemaining = 0 ∧ (packer 255 0 0xFF [some .ok]).bp.bufferPosition.toNat = 255 ∧
      (packer 255 0 0xFF [some .ok]).sinkPort.draw.1 = some .ok) ∧
    (packer 255 0 0xFF [some .fail]).sinkPort.draw.1 = some .fail ∧
    (packer 255 0 0xFF [none]).sinkPort.draw.1 = none := by decide

theorem witness_WriteFollowsItsPseudocode :
    faulted.bp.bpFault = true ∧ machine.bp.bpFault = false ∧ ((-1 : Int) < 0 ∨ (32 : Int) < -1) ∧
    ((33 : Int) < 0 ∨ (32 : Int) < 33) ∧ 31 < 32 := by decide

theorem witness_WriteAppendsItsBits :
    ((packer 255 0 0xFF [some .ok]).bp.AtRest ∧ (packer 255 0 0xFF [some .ok]).ready ∧ 32 ≤ 32 ∧
      (packer 255 0 0xFF [some .ok]).sinkPort.answersOk 1) ∧
    (machine.bp.AtRest ∧ machine.ready ∧ machine.bp.heldBits.length + 32 ≤ 2048) :=
  ⟨⟨packer_atRest (by decide) (by decide) (by decide), packer_ready .., by decide, rfl⟩,
    machine_atRest, machine_ready, by rw [machine_empty.heldBits]; decide⟩

theorem witness_WriteIsItsBits :
    machine.ready ∧ 3 ≤ 32 ∧ (∃ t, exec (.bpWrite 5#32 (3 : Nat)) machine = .next t ∧ t.ready) ∧
    ∃ t, runInstrs (((List.range 3).map fun k => (5#32).getLsbD (3 - 1 - k)).map .bpWritebit) machine = .next t ∧
      t.ready := ⟨machine_ready, by decide, ⟨_, rfl, rfl, rfl⟩, ⟨_, rfl, rfl, rfl⟩⟩

theorem witness_InvalidBitCountExactly :
    ∃ i, exec i machine = .next (machine.complete .invalidBitCount) := ⟨.bpWrite 7#32 (-1), rfl⟩

theorem witness_WriteIgnoresHigherBits :
    decode [0x00000402#32, 0x1F5#32] = .ok (.bpWrite 0x1F5#32 4) ∧
    ∀ i : Nat, (i : Int) < 4 → (0x1F5#32).getLsbD i = (0x005#32).getLsbD i := by
  refine ⟨by decide, fun i hi => ?_⟩
  have h : ∀ j : Fin 4, (0x1F5#32).getLsbD j = (0x005#32).getLsbD j := by decide
  exact h ⟨i, by omega⟩

theorem witness_WriteReadsBack :
    3 ≤ 32 ∧ machine.bp.AtRest ∧ machine.ready ∧
    ∃ t, exec (.bpWrite 5#32 (3 : Nat)) machine = .next t ∧ t.ready :=
  ⟨by decide, machine_atRest, machine_ready, _, rfl, rfl, rfl⟩

theorem witness_FlushFollowsItsPseudocode :
    faulted.bp.bpFault = true ∧
    (machine.bp.bpFault = false ∧ machine.bp.bufferPosition.toNat ≤ 255 ∧ ¬ machine.bp.bitsRemaining.toNat < 8) ∧
    ((packer 255 0 0xFF [some .ok]).bp.bufferPosition.toNat ≤ 255 ∧
      (packer 255 0 0xFF [some .ok]).bp.bitsRemaining.toNat < 8 ∧
      (packer 255 0 0xFF [some .ok]).bp.bufferPosition + 1 ≠ 0 ∧
      (packer 255 0 0xFF [some .ok]).sinkPort.draw.1 = some .ok) ∧
    (packer 0 7 0x80 [some .fail]).sinkPort.draw.1 = some .fail ∧ (packer 0 7 0x80 [none]).sinkPort.draw.1 = none := by
  decide

theorem witness_FlushTwiceIsOneFlush :
    (packer 0 5 0xA0 [some .ok]).bp.AtRest ∧ (packer 0 5 0xA0 [some .ok]).ready ∧
    ∃ t, exec .bpFlush (packer 0 5 0xA0 [some .ok]) = .next t ∧ t.ready :=
  ⟨packer_atRest (by decide) (by decide) (by decide), packer_ready .., _, rfl, rfl, rfl⟩

theorem witness_StreamLaw :
    (∃ t, step (moves [.reset] (waiting faulted)) = .next t) ∧
    (machine.bp.AtRest ∧ machine.ready ∧
      ∃ t, exec (.bpWritebit true) machine = .next t ∧ t.ready ∧
        t.hostPort.outputs = machine.hostPort.outputs ++ [.completion 0]) ∧
    (∃ t, exec .bpFlush (packer 0 5 0xA0 [some .ok]) = .next t ∧ t.ready ∧
        t.hostPort.outputs = (packer 0 5 0xA0 [some .ok]).hostPort.outputs ++ [.completion 0]) ∧
    (∃ t, exec (.rsResize 1 2 1 4) (loaded [5, 9]) = .next t ∧ t.ready ∧
        t.hostPort.outputs = (loaded [5, 9]).hostPort.outputs ++ [.completion 0]) ∧
    (∃ t, runPacket [0x00000003#32, 0#32] machine = .next t ∧
        t.hostPort.outputs = machine.hostPort.outputs ++ [.completion 4]) ∧
    (∃ t, step (moves [.loadSource [5]] machine) = .next t) ∧
    (∀ packet rest, (moves [.loadSource [5]] machine).hostPort.inputs ≠ .command packet :: rest) ∧
    ∀ rest, (moves [.loadSource [5]] machine).hostPort.inputs ≠ .reset :: rest :=
  ⟨⟨_, rfl⟩, ⟨machine_atRest, machine_ready, _, rfl, ⟨rfl, rfl⟩, rfl⟩, ⟨_, rfl, ⟨rfl, rfl⟩, rfl⟩, ⟨_, rfl, ⟨rfl, rfl⟩, rfl⟩,
    ⟨_, rfl, rfl⟩, ⟨_, rfl⟩, fun _ _ h => (nomatch h), fun _ h => (nomatch h)⟩

theorem witness_FlushedBytesAreTheBitsPadded :
    (∀ i ∈ [Instr.bpWrite 5#32 (3 : Nat)],
      (∃ bit, i = .bpWritebit bit) ∨ (∃ value, ∃ nbits : Nat, nbits ≤ 32 ∧ i = .bpWrite value nbits)) ∧
    (packer 0 8 0 [some .ok]).bp.empty ∧ (packer 0 8 0 [some .ok]).ready ∧
    ∃ t, runInstrs ([Instr.bpWrite 5#32 (3 : Nat)] ++ [.bpFlush]) (packer 0 8 0 [some .ok]) = .next t ∧ t.ready :=
  ⟨by simp only [List.mem_singleton]; rintro i rfl; exact .inr ⟨_, 3, by decide, rfl⟩,
    ⟨rfl, rfl, rfl⟩, packer_ready .., _, rfl, rfl, rfl⟩

/-- A mixture of 2049 bits, the first count with an automatic sink write: 64 words and a bit. -/
theorem witness_AutomaticSinkWritesFollowTheBitCount :
    (∀ i ∈ List.replicate 64 (Instr.bpWrite 5#32 (32 : Nat)) ++ [Instr.bpWritebit true],
      (∃ bit, i = .bpWritebit bit) ∨ (∃ value, ∃ nbits : Nat, nbits ≤ 32 ∧ i = .bpWrite value nbits)) ∧
    2049 = ((List.replicate 64 (Instr.bpWrite 5#32 (32 : Nat)) ++ [Instr.bpWritebit true]).flatMap
      (Instr.appendedBits 0)).length ∧
    (packer 0 8 0 [some .ok]).bp.empty ∧ (packer 0 8 0 [some .ok]).ready ∧
    (packer 0 8 0 [some .ok]).sinkPort.answersOk ((2049 - 1) / 2048) := by
  refine ⟨fun i hi => ?_, ?_, ⟨rfl, rfl, rfl⟩, packer_ready .., rfl⟩
  · rcases List.mem_append.1 hi with hi | hi
    · exact .inr ⟨_, 32, by decide, List.eq_of_mem_replicate hi⟩
    · exact .inl ⟨true, List.mem_singleton.1 hi⟩
  · simp only [List.flatMap_append, List.length_append, List.length_flatMap, List.map_replicate, List.map_cons,
      List.map_nil, Instr.appendedBits, List.length_map, List.length_range]
    decide

theorem witness_SinkWriteLengths :
    Instr.isPacker .bpFlush = true ∧ (packer 0 5 0xA0 [some .fail]).bp.AtRest ∧
    ∃ t, exec .bpFlush (packer 0 5 0xA0 [some .fail]) = .next t :=
  ⟨rfl, packer_atRest (by decide) (by decide) (by decide), _, rfl⟩

theorem witness_SinkFailureEndsTheCommandAndThePacker :
    Instr.isPacker .bpFlush = true ∧ (packer 0 5 0xA0 [some .fail]).bp.AtRest ∧
    (packer 0 5 0xA0 [some .fail]).bp.bpFault = false ∧
    ∃ t, exec .bpFlush (packer 0 5 0xA0 [some .fail]) = .next t ∧ t.bp.bpFault = true :=
  ⟨rfl, packer_atRest (by decide) (by decide) (by decide), rfl, _, rfl, rfl⟩

theorem witness_SilentSinkLeavesTheCommandWaiting :
    Instr.isPacker .bpFlush = true ∧ (packer 0 5 0xA0 [none]).bp.AtRest ∧ (packer 0 5 0xA0 [none]).ready ∧
    ∃ t, exec .bpFlush (packer 0 5 0xA0 [none]) = .next t ∧ t.hostPort.blocked = true ∧
      ∀ rest, t.hostPort.inputs ≠ .reset :: rest :=
  ⟨rfl, packer_atRest (by decide) (by decide) (by decide), packer_ready .., _, rfl, rfl, fun _ h => by cases h⟩

theorem witness_PackerFrameHolds :
    Instr.isPacker .bpFlush = true ∧ (packer 2 5 0xA0 [some .ok]).bp.AtRest ∧
    (packer 2 5 0xA0 [some .ok]).bp.bpFault = false ∧
    (∃ t, exec .bpFlush (packer 2 5 0xA0 [some .ok]) = .next t ∧ t.bp.bpFault = false) ∧
    ∀ c, c < Instr.commits (packer 2 5 0xA0 [some .ok]).bp.bitsRemaining.toNat .bpFlush →
      1 ≠ ((packer 2 5 0xA0 [some .ok]).bp.bufferPosition.toNat + c) % 256 := by
  refine ⟨rfl, packer_atRest (by decide) (by decide) (by decide), rfl, ⟨_, rfl, rfl⟩, fun c hc => ?_⟩
  have h : Instr.commits (packer 2 5 0xA0 [some .ok]).bp.bitsRemaining.toNat .bpFlush = 1 := by decide
  have : c = 0 := by omega
  subst this; decide

theorem witness_EveryCommandDeliversOneRecord :
    machine.hostPort.blocked = false ∧ ∃ t, runPacket [0x00000003#32] machine = .next t := ⟨rfl, _, rfl⟩

theorem witness_RejectionsChangeNothing :
    (∃ t, runPacket [0#32] machine = .next t ∧
      t.hostPort.outputs = machine.hostPort.outputs ++ [.completion 4] ∧ 2 ≤ (4 : BitVec 8).toNat) ∧
    ∃ t, runPacket [0x00000003#32] (packer 0 5 0xA0 [some .fail]) = .next t ∧
      t.hostPort.outputs = (packer 0 5 0xA0 [some .fail]).hostPort.outputs ++ [.completion 1] :=
  ⟨⟨_, rfl, rfl, by decide⟩, _, rfl, rfl⟩

theorem witness_InvalidDimensionsExactly :
    ((4 : Int) ≤ 0 ∨ (4 : Int) ≤ 0 ∨ (0 : Int) ≤ 0 ∨ (2 : Int) ≤ 0 ∨ (4 : Int) * 4 ≠ (loaded []).rs.srcLen) ∧
    ∃ i, exec i machine = .next (machine.complete .invalidDimensions) := ⟨by decide, .rsResize 1 1 2 2, rfl⟩

theorem witness_OutputCapacityExceededExactly :
    (0 : Int) < 1 ∧ (0 : Int) < 2 ∧ (0 : Int) < 5 ∧ (0 : Int) < 13 ∧ (1 : Int) * 2 = (loaded [5, 9]).rs.srcLen ∧
    ((loaded [5, 9]).params.maxPixels : Int) < 5 * 13 := by decide

theorem witness_IdentityPathReturnsTheSource :
    ((0 : Int) < 2 ∧ (0 : Int) < 2 ∧ (2 : Int) * 2 = (loaded [1, 2, 3, 4]).rs.srcLen ∧
      (loaded [1, 2, 3, 4]).rs.srcLen ≤ (loaded [1, 2, 3, 4]).params.maxPixels) ∧
    ∃ t, exec (.rsResize 2 2 2 1) (loaded [1, 2, 3, 4]) = .next t ∧
      t.hostPort.outputs = (loaded [1, 2, 3, 4]).hostPort.outputs ++ [.completion 0] ∧ ¬ ((2 : Int) = 2 ∧ (2 : Int) = 1) :=
  ⟨by decide, _, rfl, rfl, by decide⟩

theorem witness_ResizeGivesTheClosedForm :
    (0 < 1 ∧ 0 < 2 ∧ 0 < 16 ∧ 0 < 4 ∧ 1 * 2 = (loaded [5, 9]).rs.srcLen ∧
      16 * 4 ≤ (loaded [5, 9]).params.maxPixels ∧ (loaded [5, 9]).rs.srcLen ≤ (loaded [5, 9]).params.maxPixels ∧
      ¬ (1 = 16 ∧ 2 = 4)) ∧ 3 < 4 ∧ 15 < 16 := by decide

theorem witness_ResizeReadsOnlyTheLoadedBuffer :
    (loaded [5, 9]).rs.srcLen = (loaded [5, 9]).rs.srcLen ∧
    (∀ i, i < (loaded [5, 9]).rs.srcLen → ((loaded [5, 9]).setRs { (loaded [5, 9]).rs with
        src := Memory.ofList 0 [5, 9, 7] }).rs.srcPixel machine.params i = (loaded [5, 9]).rs.srcPixel machine.params i) ∧
    (∃ t, exec (.rsResize 1 2 1 4) (loaded [5, 9]) = .next t) ∧
    ∃ t, exec (.rsResize 1 2 1 4) ((loaded [5, 9]).setRs { (loaded [5, 9]).rs with
        src := Memory.ofList 0 [5, 9, 7] }) = .next t := by
  refine ⟨rfl, fun i hi => ?_, ⟨_, rfl⟩, ⟨_, rfl⟩⟩
  have : i < 2 := hi
  match i, this with
  | 0, _ => rfl
  | 1, _ => rfl

theorem witness_ResizeOnlyCopiesPixels :
    (loaded [5, 9]).rs.srcLen ≤ (loaded [5, 9]).params.maxPixels ∧
    ∃ t, exec (.rsResize 1 2 1 4) (loaded [5, 9]) = .next t ∧ t.rs.resultSel = .dst ∧
      t.hostPort.outputs = (loaded [5, 9]).hostPort.outputs ++ [.completion 0] ∧ 3 < t.rs.resultLen :=
  ⟨by decide, _, rfl, rfl, rfl, by decide⟩

theorem witness_ResizeOutputLength :
    ∃ t, exec (.rsResize 1 2 1 4) (loaded [5, 9]) = .next t ∧
      t.hostPort.outputs = (loaded [5, 9]).hostPort.outputs ++ [.completion 0] := ⟨_, rfl, rfl⟩

theorem witness_RowReuseIsInvisible :
    0 < 1 ∧ 0 < 2 ∧ 0 < 1 ∧ 0 < 4 ∧ 1 * 2 ≤ machine.params.maxPixels ∧ 1 * 4 ≤ machine.params.maxPixels := by decide

theorem witness_AccumulatorsFollowTheirClosedForms :
    0 < 2 ∧ 0 < 3 ∧ 0 < 3 ∧ 0 < 2 ∧ 2 * 3 ≤ machine.params.maxPixels ∧ 3 * 2 ≤ machine.params.maxPixels ∧
    2 ≤ 2 ∧ 1 < 2 ∧ 3 ≤ 3 := by decide

theorem witness_ResizeFrameHolds :
    (loaded [5, 9]).rs.srcLen ≤ (loaded [5, 9]).params.maxPixels ∧
    (∃ t, exec (.rsResize 1 2 1 4) (loaded [5, 9]) = .next t) ∧ (1 : Int) * 4 ≤ (4 : Nat) ∧
    ∃ t, exec (.rsResize 1 2 0 4) (loaded [5, 9]) = .next t ∧
      t.hostPort.outputs ≠ (loaded [5, 9]).hostPort.outputs ++ [.completion 0] :=
  ⟨by decide, ⟨_, rfl⟩, by decide, _, rfl, by decide⟩

theorem witness_UnitsShareNoState :
    (Instr.isPacker (.bpWritebit true) = true ∧ ∃ t, exec (.bpWritebit true) machine = .next t) ∧
    (Instr.isPacker (.rsResize 1 2 1 4) = false ∧ ∃ t, exec (.rsResize 1 2 1 4) (loaded [5, 9]) = .next t) :=
  ⟨⟨rfl, _, rfl⟩, rfl, _, rfl⟩

theorem witness_UnitsCommute :
    Instr.isPacker (.bpWritebit true) ≠ Instr.isPacker (.rsResize 1 2 1 4) ∧
    ∃ t, runInstrs [.bpWritebit true, .rsResize 1 2 1 4] (loaded [5, 9]) = .next t ∧ t.hostPort.blocked = false :=
  ⟨by decide, _, rfl, rfl⟩

theorem witness_HostLoadReplacesTheSource :
    (moves [.loadSource [5, 255]] machine).hostPort.inputs = .loadSource [5, 255] :: [] ∧
    (moves [.loadSource [5, 255]] machine).hostPort.blocked = false ∧
    [5, 255].length ≤ machine.params.maxPixels ∧ (∀ v ∈ [5, 255], v < 2 ^ machine.params.pixW) ∧
    (List.replicate 64 0).length ≤ machine.params.maxPixels ∧
    machine.params.maxPixels < (List.replicate 65 0).length := by decide

/-- The machine after an identity resize of a loaded buffer. -/
def aliased : State := (loaded [5, 9]).setRs { (loaded [5, 9]).rs with resultSel := .src, resultLen := 2 }

theorem aliased_inv : aliased.rs.Inv aliased.params := by
  have h := machine_inv.rs
  have hb : ∀ c ∈ aliased.rs.src, c.1 < 64 ∧ c.2 < 256 := by decide
  exact ⟨rfl, h.dst_wf, fun c hc => (hb c hc).1, h.dst_below, fun c hc => (hb c hc).2, h.dst_pixels, by decide,
    h.dstLen_le, by decide, Memory.listed_ofList [5, 9], h.dst_listed, fun e => absurd e (by decide),
    fun e => absurd e (by decide)⟩

theorem witness_SourceWriteShowsThroughTheAlias :
    aliased.rs.Inv aliased.params ∧ aliased.rs.resultSel = .src ∧ 1 < aliased.rs.srcLen ∧
    255 < 2 ^ aliased.params.pixW := ⟨aliased_inv, rfl, by decide, by decide⟩

theorem witness_ReadResultReturnsTheResizedImage :
    0 < 1 ∧ 0 < 2 ∧ 0 < 1 ∧ 0 < 4 ∧ 1 * 2 = (loaded [5, 9]).rs.srcLen ∧ 1 * 4 ≤ (loaded [5, 9]).params.maxPixels ∧
    (loaded [5, 9]).rs.srcLen ≤ (loaded [5, 9]).params.maxPixels ∧
    (∃ t, exec (.rsResize (1 : Nat) (2 : Nat) (1 : Nat) (4 : Nat)) (loaded [5, 9]) = .next t) ∧ 3 < 4 ∧ 0 < 1 :=
  ⟨by decide, by decide, by decide, by decide, rfl, by decide, by decide, ⟨_, rfl⟩, by decide, by decide⟩

theorem witness_HostWritesOneSourcePixel :
    ((moves [.writeSourcePixel 1 255] (loaded [5, 9])).hostPort.inputs = .writeSourcePixel 1 255 :: [] ∧
      (moves [.writeSourcePixel 1 255] (loaded [5, 9])).hostPort.blocked = false ∧
      1 < (loaded [5, 9]).rs.srcLen ∧ 255 < 2 ^ (loaded [5, 9]).params.pixW) ∧
    ((moves [.writeSourcePixel 2 0] (loaded [5, 9])).hostPort.inputs = .writeSourcePixel 2 0 :: [] ∧
      (loaded [5, 9]).rs.srcLen ≤ 2) ∧
    (moves [.writeSourcePixel 0 256] (loaded [5, 9])).hostPort.inputs = .writeSourcePixel 0 256 :: [] ∧
      0 < (loaded [5, 9]).rs.srcLen ∧ 2 ^ (loaded [5, 9]).params.pixW ≤ 256 := by decide

/-- The machine after a resize on the general path. -/
def resized : State :=
  machine.setRs { machine.rs with dst := Memory.ofList 0 [5, 5], dstLen := 2, resultSel := .dst, resultLen := 2 }

theorem resized_inv : resized.rs.Inv resized.params := by
  have h := machine_inv.rs
  have hb : ∀ c ∈ resized.rs.dst, c.1 < 64 ∧ c.2 < 256 := by decide
  exact ⟨h.src_wf, rfl, h.src_below, fun c hc => (hb c hc).1, h.src_pixels, fun c hc => (hb c hc).2, h.srcLen_le,
    by decide, by decide, h.src_listed, Memory.listed_ofList [5, 5], fun _ => rfl, fun e => absurd e (by decide)⟩

/-- One state for each value of `resultSel`. -/
theorem witness_ReadResultReturnsTheNamedMemory :
    ((moves [.readResult] machine).hostPort.inputs = .readResult :: [] ∧
      (moves [.readResult] machine).hostPort.blocked = false ∧
      (moves [.readResult] machine).rs.Inv (moves [.readResult] machine).params ∧
      (moves [.readResult] machine).rs.resultSel = .none) ∧
    ((moves [.readResult] aliased).rs.Inv (moves [.readResult] aliased).params ∧
      (moves [.readResult] aliased).rs.resultSel = .src) ∧
    (moves [.readResult] resized).rs.Inv (moves [.readResult] resized).params ∧
      (moves [.readResult] resized).rs.resultSel = .dst :=
  ⟨⟨rfl, rfl, machine_inv.rs, rfl⟩, ⟨aliased_inv, rfl⟩, resized_inv, rfl⟩

/-- Q1 before any resize: there is no result. -/
theorem test_no_result :
    gives (hostReadResult machine) (fun t => lastReply t == some (.result .none 0 [])) = true := by decide

theorem moves_inv {s : State} (inputs : List HostMove) (h : s.Inv) : (moves inputs s).Inv :=
  ⟨h.params, h.bp, h.rs, h.atRest⟩

theorem witness_StepKeepsTheInvariant :
    (moves [.command [0x00010001#32]] machine).Inv ∧
    ∃ t, step (moves [.command [0x00010001#32]] machine) = .next t := ⟨moves_inv _ machine_inv, _, rfl⟩

theorem witness_NoStepFaults :
    (moves [.loadSource [256]] machine).Inv ∧ step (moves [.loadSource [256]] machine) = .refused .hostPixelTooWide ∧
    (moves [.writeSourcePixel 0 0] machine).Inv ∧
    step (moves [.writeSourcePixel 0 0] machine) = .refused .hostPixelIndex :=
  ⟨moves_inv _ machine_inv, rfl, moves_inv _ machine_inv, rfl⟩

theorem witness_SinkBindingChangesOnlyAtReset :
    (∃ t, step (moves [.reset] machine) = .next t) ∧
    ∃ t, step (moves [.command [0x00000003#32]] machine) = .next t := ⟨⟨_, rfl⟩, _, rfl⟩

theorem witness_OnlyTheHostWritesTheSource :
    (∃ t, step (moves [.loadSource [5]] machine) = .next t) ∧
    ∃ t, step (moves [.writeSourcePixel 1 7] (loaded [5, 9])) = .next t := ⟨⟨_, rfl⟩, _, rfl⟩

theorem witness_SinkLogOnlyGrows :
    ∃ t, step (moves [.command [0x00000003#32]] (packer 0 5 0xA0 [some .ok])) = .next t := ⟨_, rfl⟩

end Sys2Proof.Tests
end

section
/-! Proofs of the statements about reset (spec/10_state.md). -/

namespace Sys2Proof.Proofs

open Sys2Proof Sys2Proof.Machine

/-- R40: a memory that lists nothing has no value for any element. -/
@[simp] theorem memory_get?_nil {α : Type} (i : Nat) : Memory.get? ([] : Memory α) i = none := rfl

/-- The BitPacker's rows of R40, at any reset of its life. -/
theorem bitPacker_afterReset_values (epoch : Nat) :
    (BitPacker.afterReset epoch).bitsRemaining = 8 ∧ (BitPacker.afterReset epoch).pendingByte = 0 ∧
    (BitPacker.afterReset epoch).bufferPosition = 0 ∧
    (∀ i, Memory.get? (BitPacker.afterReset epoch).internalBuffer i = none) ∧
    (BitPacker.afterReset epoch).bpFault = false ∧
    (BitPacker.afterReset epoch).sink = Config.attachedSink epoch :=
  ⟨rfl, rfl, rfl, memory_get?_nil, rfl, rfl⟩

/-- The Resampler's rows of R40, at any epochs of its two memories. -/
theorem resampler_afterReset_values (srcEpoch dstEpoch : Nat) :
    (∀ i, Memory.get? (Resampler.afterReset srcEpoch dstEpoch).src i = none) ∧
    (Resampler.afterReset srcEpoch dstEpoch).srcLen = 0 ∧
    (∀ i, Memory.get? (Resampler.afterReset srcEpoch dstEpoch).dst i = none) ∧
    (Resampler.afterReset srcEpoch dstEpoch).dstLen = 0 ∧
    (Resampler.afterReset srcEpoch dstEpoch).resultSel = .none ∧
    (Resampler.afterReset srcEpoch dstEpoch).resultLen = 0 :=
  ⟨memory_get?_nil, rfl, memory_get?_nil, rfl, rfl, rfl⟩

/-- Settles O1: the reset state is the two units just after their reset, at epoch 0, and `State.reset` is by definition
that state for the parameters of `Config`. -/
theorem resetLeavesTheValuesOfTheTable : Obligations.ResetLeavesTheValuesOfTheTable := by
  unfold Obligations.ResetLeavesTheValuesOfTheTable
  refine ⟨fun p => ?_, rfl⟩
  have hbp : (State.resetOf p).bp = BitPacker.afterReset 0 := rfl
  have hrs : (State.resetOf p).rs = Resampler.afterReset 0 0 := rfl
  rw [hbp, hrs]
  obtain ⟨hbits, hbyte, hpos, hbuffer, hfault, hsink⟩ := bitPacker_afterReset_values 0
  exact ⟨hbits, hbyte, hpos, hbuffer, hfault, hsink, resampler_afterReset_values 0 0⟩

end Sys2Proof.Proofs
end

section
/-! Proofs of the statements about the command encoding (spec/30_encoding.md). -/

namespace Sys2Proof.Proofs

open Sys2Proof Sys2Proof.Machine

/-- R98: every opcode other than the four assigned ones has no length. -/
theorem packetLength_unassigned {opc : Byte} (hWritebit : opc ≠ 0x01#8) (hWrite : opc ≠ 0x02#8)
    (hFlush : opc ≠ 0x03#8) (hResize : opc ≠ 0x10#8) : packetLength opc = none := by
  simp only [packetLength, if_neg hWritebit, if_neg hWrite, if_neg hFlush, if_neg hResize]

theorem selects_eq_false_iff (r : HeaderRow) (w0 : Word) :
    r.selects w0 = false ↔ w0 &&& r.maskBits ≠ r.matchBits := beq_eq_false_iff_ne

/-- R99 (b): the header matches no row of the opcode map. -/
def SelectsNoRow (w0 : Word) : Prop :=
  HeaderRow.writebit.selects w0 = false ∧ HeaderRow.write.selects w0 = false ∧
    HeaderRow.flush.selects w0 = false ∧ HeaderRow.resize.selects w0 = false

/-- R99 (b) and (c): a packet with a header fails to decode exactly when the header matches no row or the length is not
its opcode's. -/
theorem decode_error_iff (w0 : Word) (operands : List Word) :
    (∃ e, decode (w0 :: operands) = .error e) ↔
      SelectsNoRow w0 ∨ packetLength (opcField w0) ≠ some (operands.length + 1) := by
  obtain ⟨hsel, hopc, hdec⟩ | ⟨hsel, hopc, ⟨hlen, hdec⟩ | ⟨w1, rfl, hdec⟩⟩ | ⟨hsel, hopc, hdec⟩ |
    ⟨hsel, hopc, ⟨hlen, hdec⟩ | ⟨w1, w2, w3, w4, rfl, hdec⟩⟩ | ⟨hWritebit, hWrite, hFlush, hResize, hdec⟩ :=
    decode_cases w0 operands
  case inl | inr.inr.inl => cases operands <;> simp [hdec, hopc, hsel, SelectsNoRow, packetLength]
  case inr.inl.inl | inr.inr.inr.inl.inl =>
    have hother : packetLength (opcField w0) ≠ some (operands.length + 1) := by
      simpa [hopc, packetLength] using hlen
    exact iff_of_true ⟨_, hdec⟩ (.inr hother)
  case inr.inl.inr | inr.inr.inr.inl.inr => simp [hdec, hopc, hsel, SelectsNoRow, packetLength]
  case inr.inr.inr.inr => exact iff_of_true ⟨_, hdec⟩ (.inl ⟨hWritebit, hWrite, hFlush, hResize⟩)

/-- R98: a packet that decodes has the length of its opcode. -/
theorem packetLength_of_decode {w0 : Word} {operands : List Word} {i : Instr} (h : decode (w0 :: operands) = .ok i) :
    packetLength (opcField w0) = some (operands.length + 1) := by
  by_contra hlen
  obtain ⟨e, he⟩ := (decode_error_iff w0 operands).2 (.inr hlen)
  rw [h] at he
  cases he

/-- R94: a header that selects the row of `BP.WRITE`, with one operand word, decodes whatever its `NBITS`. -/
theorem decode_write {w0 : Word} (h : HeaderRow.write.selects w0 = true) (w1 : Word) :
    decode [w0, w1] = .ok (.bpWrite w1 (nbitsField w0)) := by
  have hopc : opcField w0 = 0x02#8 := HeaderRow.opcField_of_selects h rfl
  obtain ⟨-, hopc', -⟩ | ⟨-, -, ⟨hlen, -⟩ | ⟨v, hv, hdec⟩⟩ | ⟨-, hopc', -⟩ | ⟨-, hopc', -⟩ | ⟨-, hWrite, -⟩ :=
    decode_cases w0 [w1]
  case inr.inl.inl => exact absurd rfl hlen
  case inr.inl.inr => rwa [← List.singleton_inj.1 hv] at hdec
  case inr.inr.inr.inr => rw [h] at hWrite; cases hWrite
  all_goals exact absurd (hopc.symm.trans hopc') (by decide)

/-- R98: the one opcode whose packets have two words is that of `BP.WRITE`. -/
theorem decode_two_words {w0 w1 : Word} {i : Instr} (h : decode [w0, w1] = .ok i) :
    i = .bpWrite w1 (nbitsField w0) := by
  obtain ⟨-, -, hdec⟩ | ⟨hsel, -⟩ | ⟨-, -, hdec⟩ | ⟨-, -, ⟨-, hdec⟩ | ⟨_, _, _, _, hops, -⟩⟩ | ⟨-, -, -, -, hdec⟩ :=
    decode_cases w0 [w1]
  case inr.inl => exact (Except.ok.inj ((decode_write hsel w1).symm.trans h)).symm
  case inr.inr.inr.inl.inr => simp at hops
  all_goals simp [h] at hdec

/-- R99, R194: an illegal packet is answered before any unit is involved. -/
theorem runPacket_of_decode_error {packet : List Word} {e : DecodeError} (h : decode packet = .error e) (s : State) :
    runPacket packet s = .next (s.complete .illegalCommand) := by
  rw [runPacket, h]; rfl

/-- R96: the bits that `BP.WRITE` writes are the bits of the value below the count. -/
theorem valueBits_congr {v v' : Word} {n : Nat} (h : ∀ i < n, v.getLsbD i = v'.getLsbD i) :
    valueBits v n = valueBits v' n := by
  rw [valueBits_eq, valueBits_eq]
  refine List.map_congr_left fun k hk => h _ ?_
  have := List.mem_range.1 hk
  omega

/-- `BP.WRITE` depends on its value through the bits it writes only: its gate and its operand check do not look at it. -/
theorem exec_bpWrite_congr {v v' : Word} {nbits : Int} (h : valueBits v nbits.toNat = valueBits v' nbits.toNat)
    (s : State) : exec (.bpWrite v nbits) s = exec (.bpWrite v' nbits) s := by
  have hcheck : Instr.packerCheck (.bpWrite v nbits) s = Instr.packerCheck (.bpWrite v' nbits) s := rfl
  have hproc : Instr.procedure (.bpWrite v nbits) s = Instr.procedure (.bpWrite v' nbits) s := by
    rw [Instr.procedure, Instr.procedure, h]
  rw [exec_packer rfl, exec_packer rfl, hcheck, hproc]

/-- Settles O7: a packet without a header is empty, and one with a header is judged by `decode_error_iff`. -/
theorem decodeRejectsExactlyTheIllegalPackets : Obligations.DecodeRejectsExactlyTheIllegalPackets := by
  unfold Obligations.DecodeRejectsExactlyTheIllegalPackets
  refine ⟨fun packet => ?_, fun operands => ?_, fun w0 w1 h => decode_write (beq_iff_eq.2 h) w1,
    fun packet e s h => runPacket_of_decode_error h s⟩
  · cases packet with
    | nil => exact iff_of_true ⟨.emptyPacket, rfl⟩ (.inl rfl)
    | cons w0 operands =>
      rw [decode_error_iff]
      simp only [SelectsNoRow, selects_eq_false_iff]
      constructor
      · exact fun h => .inr ⟨w0, operands, rfl, h⟩
      · rintro (hnil | ⟨w, ops, hpacket, h⟩)
        · cases hnil
        · cases hpacket
          exact h
  · exact (decode_error_iff _ _).2 (.inl ⟨rfl, rfl, rfl, rfl⟩)

/-- Settles O19: a two-word packet is a `BP.WRITE` of its second word, and values that agree below the count have the
same bits to write. -/
theorem writeIgnoresHigherBits : Obligations.WriteIgnoresHigherBits := by
  unfold Obligations.WriteIgnoresHigherBits
  refine ⟨fun w0 w1 i h => ⟨nbitsField w0, decode_two_words h⟩, fun v v' nbits s h => ?_⟩
  have hbits : ∀ i < nbits.toNat, v.getLsbD i = v'.getLsbD i := fun i hi => h i (by omega)
  exact exec_bpWrite_congr (valueBits_congr hbits) s

/-- Settles O9: the four lengths and no other, and decoding holds each packet to the length of its opcode. -/
theorem packetLengthFollowsTheOpcode : Obligations.PacketLengthFollowsTheOpcode := by
  unfold Obligations.PacketLengthFollowsTheOpcode
  exact ⟨rfl, rfl, rfl, rfl, fun _ => packetLength_unassigned, fun _ _ _ => packetLength_of_decode⟩

end Sys2Proof.Proofs
end

section
/-! Proofs of the statements about the BitPacker (spec/40_bitpacker.md). -/

namespace Sys2Proof.Proofs

open Sys2Proof Sys2Proof.Machine

/-- R120: the gate comes before every operand check, so it is all a faulted packer looks at. -/
theorem packerCheck_eq_packerUnusable_iff (i : Instr) (s : State) :
    Instr.packerCheck i s = some .packerUnusable ↔ s.bp.bpFault = true := by
  constructor
  · intro h
    obtain ⟨-, hf⟩ | ⟨hc, -⟩ := Instr.packerCheck_status h
    · exact hf
    · cases hc
  · exact fun hf => if_pos hf

/-- A BP command whose check finds a condition is rejected with it (R120, R124). -/
theorem exec_of_packerCheck {i : Instr} (hi : i.isPacker = true) {s : State} {c : Status}
    (h : Instr.packerCheck i s = some c) : exec i s = .next (s.complete c) := by
  rw [exec_packer hi, h]; rfl

/-- R120: a BP command on a faulted packer. -/
theorem exec_of_bpFault {i : Instr} (hi : i.isPacker = true) {s : State} (hf : s.bp.bpFault = true) :
    exec i s = .next (s.complete .packerUnusable) :=
  exec_of_packerCheck hi ((packerCheck_eq_packerUnusable_iff i s).2 hf)

/-- R120, R152: the checks of `RS.RESIZE` do not raise `PackerUnusable`, and a BP command raises it at its gate only. -/
theorem exec_eq_packerUnusable_iff (i : Instr) (s : State) :
    exec i s = .next (s.complete .packerUnusable) ↔ i.isPacker = true ∧ s.bp.bpFault = true := by
  constructor
  · intro h
    cases i with
    | rsResize ow oh w ht =>
      obtain hc | hc := validate_status (exec_resize_record rfl h) <;> cases hc
    | bpWritebit | bpWrite | bpFlush =>
      exact ⟨rfl, (packerCheck_eq_packerUnusable_iff _ s).1 (exec_packer_record rfl rfl h)⟩
  · exact fun ⟨hi, hf⟩ => exec_of_bpFault hi hf

/-- R2: `RS.RESIZE` leaves the BitPacker alone. -/
theorem exec_rsResize_bp {ow oh w h : Int} {s t : State} (he : exec (.rsResize ow oh w h) s = .next t) :
    t.bp = s.bp := by
  obtain ⟨_, -, rfl⟩ | ⟨-, -, -, rfl⟩ | ⟨-, -, _, -, rfl⟩ := exec_resize_cases he <;> rfl

/-- R120: no command changes a faulted packer. -/
theorem exec_bp_of_bpFault {i : Instr} {s t : State} (hf : s.bp.bpFault = true) (h : exec i s = .next t) :
    t.bp = s.bp := by
  cases i with
  | rsResize => exact exec_rsResize_bp h
  | bpWritebit | bpWrite | bpFlush =>
    rw [exec_of_bpFault rfl hf] at h
    rw [← next_inj h, State.complete_bp]

/-- R80, R120: of the host's moves only `HostReset` changes a faulted packer. -/
theorem runMove_bp_of_bpFault {m : HostMove} {s t : State} (hm : m ≠ .reset) (hf : s.bp.bpFault = true)
    (h : runMove m s = .next t) : t.bp = s.bp := by
  cases m with
  | reset => exact absurd rfl hm
  | command packet =>
    rw [runMove] at h
    cases hd : decode packet with
    | ok i => rw [runPacket, hd] at h; exact exec_bp_of_bpFault hf h
    | error e =>
      rw [runPacket_of_decode_error hd] at h
      rw [← next_inj h, State.complete_bp]
  | loadSource pixels =>
    rw [runMove] at h
    obtain ⟨-, -, e⟩ | ⟨-, -, e⟩ | ⟨-, e⟩ := hostLoadSource_cases pixels s <;> rw [e] at h <;> cases h
    rfl
  | writeSourcePixel index value =>
    rw [runMove] at h
    obtain ⟨-, -, e⟩ | ⟨-, -, e⟩ | ⟨-, e⟩ := hostWriteSourcePixel_cases index value s <;> rw [e] at h <;> cases h
    rfl
  | readResult =>
    obtain ⟨_, rfl⟩ := hostReadResult_next h
    rfl

/-- Settles O13: the record tells that the gate rejected the command, and every step but a `HostReset` leaves a faulted
packer as it is. -/
theorem packerUnusableExactlyWhileFaulted : Obligations.PackerUnusableExactlyWhileFaulted := by
  unfold Obligations.PackerUnusableExactlyWhileFaulted
  refine ⟨exec_eq_packerUnusable_iff, fun s t h hs ht => ?_⟩
  obtain rfl | ⟨m, rest, hin, -, hrun⟩ := step_cases h
  · cases hs.symm.trans ht
  · by_cases hm : m = .reset
    · exact ⟨rest, hm ▸ hin⟩
    · have hbp : t.bp = s.bp := runMove_bp_of_bpFault (s := s.dequeue rest) hm hs hrun
      rw [hbp, hs] at ht
      cases ht

/-- R124: past the gate, an illegal bit count is what `BP.WRITE` is rejected for. -/
theorem packerCheck_bpWrite_illegal {value : Word} {nbits : Int} {s : State} (hf : s.bp.bpFault = false)
    (hn : nbits < 0 ∨ 32 < nbits) : Instr.packerCheck (.bpWrite value nbits) s = some .invalidBitCount := by
  have hlegal : nbitsLegal nbits = false := decide_eq_false (by omega)
  simp [Instr.packerCheck, hf, hlegal]

/-- R124, one turn of the loop: `BP.WRITE` of `n + 1` bits is `PutBit` of bit `n` and then the bits below it. -/
theorem exec_bpWrite_succ {value : Word} {n : Nat} {s : State} (hn : n < 32) (hf : s.bp.bpFault = false) :
    exec (.bpWrite value (n + 1)) s =
      ((putBit (value.getLsbD n) s).andThen (putBits (valueBits value n))).finish := by
  have h := exec_write (v := value) (n := n + 1) hn hf
  rwa [Nat.cast_succ, valueBits, valueBit_eq, putBits] at h

/-- Settles O15: the gate and the operand check, then the loop unrolled by its first turn; a `PutBit` that goes on leaves
the gate open for the `BP.WRITE` of the other bits. -/
theorem writeFollowsItsPseudocode : Obligations.WriteFollowsItsPseudocode := by
  unfold Obligations.WriteFollowsItsPseudocode
  refine fun value s => ⟨fun hf nbits => exec_of_bpFault rfl hf, fun hf => ⟨fun nbits hn => ?_, ?_, fun n hn => ?_⟩⟩
  · exact exec_of_packerCheck rfl (packerCheck_bpWrite_illegal hf hn)
  · exact exec_write (n := 0) (Nat.zero_le _) hf
  · rw [exec_bpWrite_succ hn hf]
    cases hput : putBit (value.getLsbD n) s with
    | go t =>
      have hft : t.bp.bpFault = false := (putBit_go_of_framed hput).fault.trans hf
      exact (exec_write hn.le hft).symm
    | ended t => rfl
    | fault r => rfl

/-- At rest, a `BP.WRITE` that leaves the block ready has put all its bits (R124, R128). -/
theorem exec_bpWrite_putDone {value : Word} {n : Nat} {s t : State} (hn : n ≤ 32) (hrest : s.bp.AtRest)
    (hf : s.bp.bpFault = false) (h : exec (.bpWrite value n) s = .next t) (ht : t.ready) :
    ∃ pre u, PutDone pre (valueBits value n) s u ∧ t = u.complete .ok := by
  rw [exec_write hn hf] at h
  obtain ⟨pre, u, hput, hdone⟩ | ⟨pre, u, hput, hint, -⟩ := putBits_spec (valueBits value n) hrest
  · rw [hput] at h
    exact ⟨pre, u, hdone, (next_inj h).symm⟩
  · rw [hput] at h
    cases next_inj h
    exact absurd ht hint.not_ready

/-- Settles O20: the appended string is `valueBits value nbits`, whose value is that of the low bits. -/
theorem writeReadsBack : Obligations.WriteReadsBack := by
  unfold Obligations.WriteReadsBack
  intro value nbits s t hn hrest hs h ht
  obtain ⟨pre, u, hdone, rfl⟩ := exec_bpWrite_putDone hn hrest hs.1 h ht
  exact ⟨valueBits value nbits, hdone.written, valueBits_length value nbits, bitsValue_valueBits value nbits⟩

end Sys2Proof.Proofs
end

section
/-! Proofs of the statements about the Resampler (spec/41_resampler.md). -/

namespace Sys2Proof.Proofs

open Sys2Proof Sys2Proof.Machine

/-- R152: what `Validate` lets through. -/
theorem validate_eq_none_iff {ow oh w h : Int} {s : State} :
    validate ow oh w h s = none ↔
      0 < ow ∧ 0 < oh ∧ 0 < w ∧ 0 < h ∧ ow * oh = s.rs.srcLen ∧ w * h ≤ s.params.maxPixels := by
  obtain ⟨e, hbad⟩ | ⟨e, -, -, -, -, -, hbig⟩ | ⟨e, hgood⟩ := validate_cases ow oh w h s
  · refine iff_of_false (by simp [e]) ?_
    rintro ⟨how, hoh, hw, hh, hlen, -⟩
    omega
  · exact iff_of_false (by simp [e]) fun ⟨_, _, _, _, _, hfits⟩ => by omega
  · exact iff_of_true e hgood

/-- R152, R190: the record of a rejected `RS.RESIZE` is not that of an OK command. -/
theorem validate_code_ne_zero {ow oh w h : Int} {s : State} {c : Status} (hv : validate ow oh w h s = some c) :
    c.code ≠ 0 := by
  obtain rfl | rfl := validate_status hv <;> decide

/-- `RS.RESIZE` on valid dimensions that are unchanged (R153). -/
theorem exec_resize_identity {w h : Int} {s : State} (hv : validate w h w h s = none) :
    exec (.rsResize w h w h) s =
      .next ((s.setRs { s.rs with resultSel := .src, resultLen := s.rs.srcLen }).complete .ok) := by
  simp [exec, execRsResize, hv, dimsIdentical]

/-- R160: the general path selects `DST`, for every Resampler and all dimensions. -/
theorem resizeGeneral_resultSel {p : Params} {ow oh w h : Nat} {r r' : Resampler}
    (hr : resizeGeneral p ow oh w h r = .ok r') : r'.resultSel = .dst := by
  unfold resizeGeneral at hr
  split at hr
  · cases hr
  · cases hr
    rfl

/-- The ways an `RS.RESIZE` on a buffer that fits can end with a next state, the general path by its closed form (R150,
R161). -/
theorem exec_resize_loaded_cases {ow oh w h : Int} {s t : State} (hs : s.rs.srcLen ≤ s.params.maxPixels)
    (he : exec (.rsResize ow oh w h) s = .next t) :
    (∃ c, validate ow oh w h s = some c ∧ t = s.complete c) ∨
    (validate ow oh w h s = none ∧ ow = w ∧ oh = h ∧
      t = (s.setRs { s.rs with resultSel := .src, resultLen := s.rs.srcLen }).complete .ok) ∨
    (validate ow oh w h s = none ∧ ¬ (ow = w ∧ oh = h) ∧
      t = (s.setRs (s.rs.resized s.params ow.toNat oh.toNat w.toNat h.toNat)).complete .ok) := by
  obtain hrej | hid | ⟨hv, hne, -⟩ := exec_resize_cases he
  · exact .inl hrej
  · exact .inr (.inl hid)
  · exact .inr (.inr ⟨hv, hne, next_inj (he.symm.trans (exec_resize_general hv hne hs))⟩)

/-- R161: after the general path the output holds the closed form. -/
theorem dstPixel_resized {p : Params} {r : Resampler} {ow oh w h i : Nat} (hi : i < w * h) :
    (r.resized p ow oh w h).dstPixel p i = r.sample p ow oh w h i := by
  simp [Resampler.dstPixel, Resampler.resized, Memory.read, Memory.get?_writeRun, hi]

/-- R162: the sampled pixel of every output index is one of the source image. -/
theorem sample_eq_srcPixel {p : Params} {r : Resampler} {ow oh w h i : Nat} (how : 0 < ow) (hoh : 0 < oh)
    (hi : i < w * h) : ∃ j, j < ow * oh ∧ r.sample p ow oh w h i = r.srcPixel p j := by
  have hw : 0 < w := Nat.pos_of_mul_pos_right (Nat.zero_lt_of_lt hi)
  have hrow : i / w < h := Nat.div_lt_of_lt_mul hi
  exact ⟨_, sampleIndex_lt how hoh hrow (Nat.mod_lt i hw), rfl⟩

/-- R152: the dimensions that `Validate` lets through, as the natural numbers the loops work with. -/
theorem validate_toNat {ow oh w h : Int} {s : State} (hv : validate ow oh w h s = none) :
    0 < ow.toNat ∧ 0 < oh.toNat ∧ ow.toNat * oh.toNat = s.rs.srcLen := by
  obtain ⟨how, hoh, -, -, hlen, -⟩ := validate_eq_none_iff.1 hv
  refine ⟨Int.pos_iff_toNat_pos.1 how, Int.pos_iff_toNat_pos.1 hoh, ?_⟩
  rw [← Int.toNat_mul how.le hoh.le, hlen, Int.toNat_natCast]

/-- Settles O37: on a buffer that fits, an `RS.RESIZE` that ends with `DST` selected and OK took the general path, whose
closed form reads inside the loaded buffer. -/
theorem resizeOnlyCopiesPixels : Obligations.ResizeOnlyCopiesPixels := by
  unfold Obligations.ResizeOnlyCopiesPixels
  intro ow oh w h s t hs he
  obtain ⟨c, hv, rfl⟩ | ⟨-, -, -, rfl⟩ | ⟨hv, -, rfl⟩ := exec_resize_loaded_cases hs he
  · refine ⟨rfl, rfl, fun _ hout => ?_⟩
    exact absurd (by simpa using hout) (validate_code_ne_zero hv)
  · exact ⟨rfl, rfl, fun hsel => by cases hsel⟩
  · refine ⟨rfl, rfl, fun _ _ i hi => ?_⟩
    obtain ⟨how, hoh, hlen⟩ := validate_toNat hv
    obtain ⟨j, hj, hpixel⟩ := sample_eq_srcPixel (p := s.params) (r := s.rs) how hoh hi
    exact ⟨j, hlen ▸ hj, (dstPixel_resized hi).trans hpixel⟩

/-- Settles O34: unchanged dimensions are valid as the buffer fits, and an OK command with other dimensions took the
general path. -/
theorem identityPathReturnsTheSource : Obligations.IdentityPathReturnsTheSource := by
  unfold Obligations.IdentityPathReturnsTheSource
  refine ⟨fun w h s hw hh hlen hs => ?_, fun ow oh w h s t he hout hne => ?_⟩
  · exact exec_resize_identity (validate_eq_none_iff.2 ⟨hw, hh, hw, hh, hlen, by omega⟩)
  · obtain ⟨c, hv, rfl⟩ | ⟨-, how, hoh, -⟩ | ⟨-, -, r, hr, rfl⟩ := exec_resize_cases he
    · exact absurd (by simpa using hout) (validate_code_ne_zero hv)
    · exact absurd ⟨how, hoh⟩ hne
    · exact resizeGeneral_resultSel hr

end Sys2Proof.Proofs
end

section
/-! Proofs of the statements about completion records and rejections (spec/60_exceptions.md). -/

namespace Sys2Proof.Proofs

open Sys2Proof Sys2Proof.Machine

/-- The condition a command is rejected with before any effect, if there is one: a BP command at its gate or its operand
check, `RS.RESIZE` by `Validate` (R198). `exec_eq_reject_iff` ties it to `exec`. -/
def rejection : Instr → State → Option Status
  | .rsResize ow oh w h, s => validate ow oh w h s
  | i, s => Instr.packerCheck i s

theorem rejection_of_isPacker {i : Instr} (hi : i.isPacker = true) (s : State) :
    rejection i s = Instr.packerCheck i s := by
  cases i with
  | rsResize => cases hi
  | bpWritebit | bpWrite | bpFlush => rfl

/-- R152: an `RS.RESIZE` that `Validate` rejects has no effect. -/
theorem exec_of_validate {ow oh w h : Int} {s : State} {c : Status} (hv : validate ow oh w h s = some c) :
    exec (.rsResize ow oh w h) s = .next (s.complete c) := by
  simp [exec, execRsResize, hv, reject]

/-- R199: a command ends as a bare rejection exactly when one of its checks raised that condition. -/
theorem exec_eq_reject_iff {c : Status} (hc : c.isRejection = true) (i : Instr) (s : State) :
    exec i s = .next (s.complete c) ↔ rejection i s = some c := by
  cases i with
  | rsResize ow oh w h => exact ⟨exec_resize_record hc, exec_of_validate⟩
  | bpWritebit | bpWrite | bpFlush =>
    rw [rejection_of_isPacker rfl]
    exact ⟨exec_packer_record rfl hc, exec_of_packerCheck rfl⟩

/-- Everything that can reject a command: the gate of a BP command, the operand check of `BP.WRITE`, `Validate` (R120, R124,
R152, R198). -/
theorem rejection_cases {i : Instr} {s : State} {c : Status} (h : rejection i s = some c) :
    (c = .packerUnusable ∧ i.isPacker = true ∧ s.bp.bpFault = true) ∨
    (c = .invalidBitCount ∧ ∃ value nbits, i = .bpWrite value nbits ∧ s.bp.bpFault = false ∧ (nbits < 0 ∨ 32 < nbits)) ∨
    ((c = .invalidDimensions ∨ c = .outputCapacityExceeded) ∧
      ∃ ow oh w h, i = .rsResize ow oh w h ∧ validate ow oh w h s = some c) := by
  cases i with
  | rsResize ow oh w h' => exact .inr (.inr ⟨validate_status h, ow, oh, w, h', rfl, h⟩)
  | bpWritebit | bpWrite | bpFlush =>
    rw [rejection_of_isPacker rfl] at h
    obtain ⟨hc, hf⟩ | ⟨hc, hf, value, nbits, hi, hn⟩ := Instr.packerCheck_status h
    · exact .inl ⟨hc, rfl, hf⟩
    · exact .inr (.inl ⟨hc, value, nbits, hi, hf, hn⟩)

/-- R190: the conditions of the checks are rejections. -/
theorem isRejection_of_rejection {i : Instr} {s : State} {c : Status} (h : rejection i s = some c) :
    c.isRejection = true := by
  obtain ⟨rfl, -⟩ | ⟨rfl, -⟩ | ⟨rfl | rfl, -⟩ := rejection_cases h <;> rfl

/-- R193: the gate comes first, and only `BP.WRITE` has a bit count to check. -/
theorem rejection_eq_invalidBitCount_iff (i : Instr) (s : State) :
    rejection i s = some .invalidBitCount ↔
      ∃ value nbits, i = .bpWrite value nbits ∧ s.bp.bpFault = false ∧ (nbits < 0 ∨ 32 < nbits) := by
  constructor
  · intro h
    obtain ⟨hc, -⟩ | ⟨-, hwrite⟩ | ⟨hc | hc, -⟩ := rejection_cases h
    case inr.inl => exact hwrite
    all_goals cases hc
  · rintro ⟨value, nbits, rfl, hf, hn⟩
    rw [rejection_of_isPacker rfl]
    exact packerCheck_bpWrite_illegal hf hn

/-- R192, R196: the conditions of `Validate` are raised by `RS.RESIZE` only. -/
theorem rejection_eq_some_iff_validate {c : Status} (hc : c = .invalidDimensions ∨ c = .outputCapacityExceeded)
    (i : Instr) (s : State) :
    rejection i s = some c ↔ ∃ ow oh w h, i = .rsResize ow oh w h ∧ validate ow oh w h s = some c := by
  constructor
  · intro hr
    obtain ⟨rfl, -⟩ | ⟨rfl, -⟩ | ⟨-, hresize⟩ := rejection_cases hr
    case inr.inr => exact hresize
    all_goals obtain hc | hc := hc <;> cases hc
  · rintro ⟨ow, oh, w, h, rfl, hv⟩
    exact hv

/-- R192: the condition of `InvalidDimensions`. -/
theorem validate_eq_invalidDimensions_iff {ow oh w h : Int} {s : State} :
    validate ow oh w h s = some .invalidDimensions ↔
      ow ≤ 0 ∨ oh ≤ 0 ∨ w ≤ 0 ∨ h ≤ 0 ∨ ow * oh ≠ s.rs.srcLen := by
  obtain ⟨e, hbad⟩ | ⟨e, how, hoh, hw, hh, hlen, -⟩ | ⟨e, how, hoh, hw, hh, hlen, -⟩ := validate_cases ow oh w h s
  · exact iff_of_true e hbad
  all_goals exact iff_of_false (by simp [e]) (by omega)

/-- R196: the condition of `OutputCapacityExceeded`. -/
theorem validate_eq_outputCapacityExceeded_iff {ow oh w h : Int} {s : State} :
    validate ow oh w h s = some .outputCapacityExceeded ↔
      0 < ow ∧ 0 < oh ∧ 0 < w ∧ 0 < h ∧ ow * oh = s.rs.srcLen ∧ (s.params.maxPixels : Int) < w * h := by
  obtain ⟨e, hbad⟩ | ⟨e, hbig⟩ | ⟨e, -, -, -, -, -, hfits⟩ := validate_cases ow oh w h s
  · refine iff_of_false (by simp [e]) ?_
    rintro ⟨how, hoh, hw, hh, hlen, -⟩
    omega
  · exact iff_of_true e hbig
  · exact iff_of_false (by simp [e]) fun ⟨_, _, _, _, _, hbig⟩ => by omega

/-- The three ways a command that answers a next state can end (R11, R190): rejected with the state unchanged, completed
OK, or stopped by the sink. -/
theorem exec_cases {i : Instr} {s t : State} (h : exec i s = .next t) :
    (∃ c, rejection i s = some c ∧ t = s.complete c) ∨
    (rejection i s = none ∧ ∃ u : State, t = u.complete .ok ∧ u.hostPort = s.hostPort) ∨
    (rejection i s = none ∧ Stopped s t) := by
  cases i with
  | rsResize ow oh w h' =>
    obtain hrej | ⟨hv, -, -, rfl⟩ | ⟨hv, -, r, -, rfl⟩ := exec_resize_cases h
    · exact .inl hrej
    · exact .inr (.inl ⟨hv, _, rfl, rfl⟩)
    · exact .inr (.inl ⟨hv, _, rfl, rfl⟩)
  | bpWritebit | bpWrite | bpFlush =>
    obtain hrej | ⟨hc, u, -, hu, rfl⟩ | ⟨hc, -, hstop⟩ := exec_packer_cases rfl h
    · exact .inl hrej
    · exact .inr (.inl ⟨hc, u, rfl, hu.hostPort⟩)
    · exact .inr (.inr ⟨hc, hstop⟩)

/-- The ways a packet, legal or not, that answers a next state can end (R190, R194). -/
theorem runPacket_cases {packet : List Word} {s t : State} (h : runPacket packet s = .next t) :
    (∃ c : Status, c.isRejection = true ∧ t = s.complete c) ∨
    (∃ u : State, t = u.complete .ok ∧ u.hostPort = s.hostPort) ∨
    Stopped s t := by
  cases hd : decode packet with
  | error e =>
    rw [runPacket_of_decode_error hd] at h
    exact .inl ⟨.illegalCommand, rfl, (next_inj h).symm⟩
  | ok i =>
    rw [runPacket, hd] at h
    obtain ⟨c, hc, ht⟩ | ⟨-, hok⟩ | ⟨-, hstop⟩ := exec_cases h
    · exact .inl ⟨c, isRejection_of_rejection hc, ht⟩
    · exact .inr (.inl hok)
    · exact .inr (.inr hstop)

/-- R190, R199: no rejection has the code of `SinkWriteFailed`. -/
theorem code_ne_one_of_isRejection {c : Status} (hc : c.isRejection = true) : c.code ≠ 1 := by
  cases c with
  | ok | sinkWriteFailed => cases hc
  | invalidDimensions | invalidBitCount | illegalCommand | packerUnusable | outputCapacityExceeded => decide

/-- A completion record appended to the same outputs is the same record. -/
theorem completion_append_inj {outs : List HostReply} {c d : BitVec 8}
    (h : outs ++ [.completion c] = outs ++ [.completion d]) : c = d := by
  simpa using h

/-- R121, R242: a stopped command that has delivered a record has failed at the sink. -/
theorem failed_of_stopped_of_record {s t : State} {c : BitVec 8} (h : Stopped s t)
    (hout : t.hostPort.outputs = s.hostPort.outputs ++ [.completion c]) :
    c = 1 ∧ t.bp.bpFault = true ∧
      ∃ written e, t.sinkPort.log = s.sinkPort.log ++ written ++ [e] ∧ e.answer = .fail := by
  obtain ⟨hfailed, hf, hlog⟩ | ⟨hwaiting, -⟩ := h.how
  · rw [hfailed] at hout
    exact ⟨(completion_append_inj hout).symm, hf, hlog⟩
  · rw [hwaiting] at hout
    exact absurd hout (by simp)

/-- At rest a step is the host's next move (R28, R77). -/
theorem step_of_inputs {s : State} {m : HostMove} {rest : List HostMove} (hin : s.hostPort.inputs = m :: rest)
    (hb : s.hostPort.blocked = false) : step s = runMove m (s.dequeue rest) := by
  simp [step, hin, hb]

/-- Settles O18: the record tells that a check raised the condition, and that check is the operand check of `BP.WRITE`. -/
theorem invalidBitCountExactly : Obligations.InvalidBitCountExactly := by
  unfold Obligations.InvalidBitCountExactly
  intro i s
  rw [exec_eq_reject_iff rfl, rejection_eq_invalidBitCount_iff]

/-- Settles O31: of the three ways a packet can end, a rejection adds its record and nothing else, an OK command has code
0, and a command stopped by the sink has code 1 or none. -/
theorem rejectionsChangeNothing : Obligations.RejectionsChangeNothing := by
  unfold Obligations.RejectionsChangeNothing
  intro packet s t c h hout
  obtain ⟨d, hd, rfl⟩ | ⟨u, rfl, hu⟩ | hstop := runPacket_cases h
  · obtain rfl : d.code = c := completion_append_inj hout
    exact ⟨fun _ => rfl, fun hone => absurd hone (code_ne_one_of_isRejection hd)⟩
  · rw [State.complete_outputs, hu] at hout
    obtain rfl : Status.ok.code = c := completion_append_inj hout
    exact ⟨fun hcode => absurd hcode (by decide), fun hone => absurd hone (by decide)⟩
  · obtain ⟨rfl, hfailed⟩ := failed_of_stopped_of_record hstop hout
    exact ⟨fun hcode => absurd hcode (by decide), fun _ => hfailed⟩

/-- Settles O32: the record tells that `Validate` raised the condition. -/
theorem invalidDimensionsExactly : Obligations.InvalidDimensionsExactly := by
  unfold Obligations.InvalidDimensionsExactly
  intro i s
  rw [exec_eq_reject_iff rfl, rejection_eq_some_iff_validate (.inl rfl)]
  simp only [validate_eq_invalidDimensions_iff]

/-- Settles O33: the record tells that `Validate` raised the condition. -/
theorem outputCapacityExceededExactly : Obligations.OutputCapacityExceededExactly := by
  unfold Obligations.OutputCapacityExceededExactly
  intro i s
  rw [exec_eq_reject_iff rfl, rejection_eq_some_iff_validate (.inr rfl)]
  simp only [validate_eq_outputCapacityExceeded_iff]

/-- Settles O10: at rest the step runs the packet, and decoding it answers before any unit is involved, whatever
`bpFault` is. -/
theorem illegalPacketsAreRejected : Obligations.IllegalPacketsAreRejected := by
  unfold Obligations.IllegalPacketsAreRejected
  intro s packet rest e hin hb hd
  rw [step_of_inputs hin hb, runMove, runPacket_of_decode_error hd]

end Sys2Proof.Proofs
end

section
/-! Proofs of the statements about `HostReset` (spec/70_reset_and_hazards.md). -/

namespace Sys2Proof.Proofs

open Sys2Proof Sys2Proof.Machine

/-- R230, R242: a waiting block takes `HostReset` as one at rest does. -/
theorem step_of_inputs_reset {s : State} {rest : List HostMove} (hin : s.hostPort.inputs = .reset :: rest) :
    step s = hostReset (s.dequeue rest) := by
  simp [step, hin, runMove]

/-- Settles O3: the step is `hostReset` whether or not a command waits; both units are then just after their reset, at
the next epochs, and of the sink port only the log is written. -/
theorem hostResetRestoresTheResetState : Obligations.HostResetRestoresTheResetState := by
  unfold Obligations.HostResetRestoresTheResetState
  intro s rest hin
  obtain ⟨hbits, hbyte, hpos, hbuffer, hfault, hsink⟩ := bitPacker_afterReset_values (s.bp.epoch + 1)
  obtain ⟨hsrc, hsrcLen, hdst, hdstLen, hsel, hlen⟩ :=
    resampler_afterReset_values (s.rs.srcEpoch + 1) (s.rs.dstEpoch + 1)
  refine ⟨_, step_of_inputs_reset hin, ?_⟩
  exact ⟨hbits, hbyte, hpos, hfault, hbuffer, hsink, hsrc, hdst, hsrcLen, hdstLen, hlen, hsel,
    rfl, rfl, rfl, rfl, rfl⟩

end Sys2Proof.Proofs
end

section
/-! Proofs that decoding and encoding invert each other, and what each row of the opcode map reads (spec/30_encoding.md). -/

namespace Sys2Proof.Proofs

open Sys2Proof Sys2Proof.Machine

theorem getLsbD_eq_of_extractLsb'_eq {x y : Word} {start len i : Nat}
    (h : x.extractLsb' start len = y.extractLsb' start len) (hlow : start ≤ i) (hhigh : i < start + len) :
    x.getLsbD i = y.getLsbD i := by
  have hbit := congrArg (fun field => field.getLsbD (i - start)) h
  simpa [BitVec.getLsbD_extractLsb', show i - start < len by omega, Nat.add_sub_cancel' hlow] using hbit

/-- R91: a header is its four fields. -/
theorem word_eq_iff_fields (x y : Word) : x = y ↔
    x.extractLsb' 0 8 = y.extractLsb' 0 8 ∧ x.extractLsb' 8 8 = y.extractLsb' 8 8 ∧
    x.extractLsb' 16 1 = y.extractLsb' 16 1 ∧ x.extractLsb' 17 15 = y.extractLsb' 17 15 := by
  constructor
  · rintro rfl
    exact ⟨rfl, rfl, rfl, rfl⟩
  · rintro ⟨hopc, hnbits, hbit, hhigh⟩
    refine BitVec.eq_of_getLsbD_eq fun i hi => ?_
    obtain hi | hi | hi | hi : i < 8 ∨ (8 ≤ i ∧ i < 16) ∨ i = 16 ∨ 17 ≤ i := by omega
    · exact getLsbD_eq_of_extractLsb'_eq hopc (by omega) (by omega)
    · exact getLsbD_eq_of_extractLsb'_eq hnbits (by omega) (by omega)
    · exact getLsbD_eq_of_extractLsb'_eq hbit (by omega) (by omega)
    · exact getLsbD_eq_of_extractLsb'_eq hhigh (by omega) (by omega)

/-- R93: a header selects a row exactly when each of its fields, under the row's mask, is the row's. -/
theorem selects_iff_fields (r : HeaderRow) (w0 : Word) : r.selects w0 = true ↔
    w0.extractLsb' 0 8 &&& r.maskBits.extractLsb' 0 8 = r.matchBits.extractLsb' 0 8 ∧
    w0.extractLsb' 8 8 &&& r.maskBits.extractLsb' 8 8 = r.matchBits.extractLsb' 8 8 ∧
    w0.extractLsb' 16 1 &&& r.maskBits.extractLsb' 16 1 = r.matchBits.extractLsb' 16 1 ∧
    w0.extractLsb' 17 15 &&& r.maskBits.extractLsb' 17 15 = r.matchBits.extractLsb' 17 15 := by
  rw [HeaderRow.selects, beq_iff_eq, word_eq_iff_fields]
  simp only [BitVec.extractLsb'_and]

@[simp] theorem and_byteOnes (x : Byte) : x &&& 255#8 = x := BitVec.and_allOnes
@[simp] theorem and_bitOne (x : BitVec 1) : x &&& 1#1 = x := BitVec.and_allOnes
@[simp] theorem and_reservedOnes (x : BitVec 15) : x &&& 32767#15 = x := BitVec.and_allOnes

theorem writebit_selects_iff (w0 : Word) : HeaderRow.writebit.selects w0 = true ↔
    w0.extractLsb' 0 8 = 0x01#8 ∧ w0.extractLsb' 8 8 = 0#8 ∧ w0.extractLsb' 17 15 = 0#15 := by
  rw [selects_iff_fields]
  simp [HeaderRow.writebit]

theorem write_selects_iff (w0 : Word) : HeaderRow.write.selects w0 = true ↔
    w0.extractLsb' 0 8 = 0x02#8 ∧ w0.extractLsb' 16 1 = 0#1 ∧ w0.extractLsb' 17 15 = 0#15 := by
  rw [selects_iff_fields]
  simp [HeaderRow.write]

theorem flush_selects_iff (w0 : Word) : HeaderRow.flush.selects w0 = true ↔
    w0.extractLsb' 0 8 = 0x03#8 ∧ w0.extractLsb' 8 8 = 0#8 ∧ w0.extractLsb' 16 1 = 0#1 ∧
      w0.extractLsb' 17 15 = 0#15 := by
  rw [selects_iff_fields]
  simp [HeaderRow.flush]

theorem resize_selects_iff (w0 : Word) : HeaderRow.resize.selects w0 = true ↔
    w0.extractLsb' 0 8 = 0x10#8 ∧ w0.extractLsb' 8 8 = 0#8 ∧ w0.extractLsb' 16 1 = 0#1 ∧
      w0.extractLsb' 17 15 = 0#15 := by
  rw [selects_iff_fields]
  simp [HeaderRow.resize]

/-- Two rows that read `OPC` whole and ask for different opcodes exclude each other (R93). -/
theorem not_selects_both {a b : HeaderRow} (ha : a.maskBits.extractLsb' 0 8 = 0xFF#8)
    (hb : b.maskBits.extractLsb' 0 8 = 0xFF#8) (hne : a.matchBits.extractLsb' 0 8 ≠ b.matchBits.extractLsb' 0 8)
    (w0 : Word) : ¬ (a.selects w0 = true ∧ b.selects w0 = true) := fun ⟨hsa, hsb⟩ =>
  hne ((HeaderRow.opcField_of_selects hsa ha).symm.trans (HeaderRow.opcField_of_selects hsb hb))

/-- Settles O8: a mask keeps a field whole or drops it, and every row keeps `OPC`. -/
theorem opcodeRowsReadTheHeaderFields : Obligations.OpcodeRowsReadTheHeaderFields := by
  unfold Obligations.OpcodeRowsReadTheHeaderFields
  refine fun w0 => ⟨writebit_selects_iff w0, write_selects_iff w0, flush_selects_iff w0, resize_selects_iff w0, ?_⟩
  have hexcl {a b : HeaderRow} (ha : a.maskBits.extractLsb' 0 8 = 0xFF#8) (hb : b.maskBits.extractLsb' 0 8 = 0xFF#8)
      (hne : a.matchBits.extractLsb' 0 8 ≠ b.matchBits.extractLsb' 0 8) := not_selects_both ha hb hne w0
  simp only [List.pairwise_cons, List.mem_cons, List.not_mem_nil, or_false, forall_eq_or_imp, forall_eq,
    false_implies, implies_true, List.Pairwise.nil, and_true]
  exact ⟨⟨hexcl rfl rfl (by decide), hexcl rfl rfl (by decide), hexcl rfl rfl (by decide)⟩,
    ⟨hexcl rfl rfl (by decide), hexcl rfl rfl (by decide)⟩, hexcl rfl rfl (by decide)⟩

/-- R92, R95: the header of `BP.WRITEBIT` holds the bit in `W0[16]` and nothing else beside its opcode. -/
theorem eq_writebitHeader {w0 : Word} (h : HeaderRow.writebit.selects w0 = true) :
    w0 = 0x00000001#32 ||| (if bitField w0 then 0x00010000#32 else 0#32) := by
  obtain ⟨hopc, hnbits, hhigh⟩ := (writebit_selects_iff w0).1 h
  have hbit : w0.extractLsb' 16 1 = BitVec.ofBool (bitField w0) := by
    ext i hi
    simp [bitField, BitVec.getElem_extractLsb', show i = 0 by omega]
  rw [word_eq_iff_fields, hopc, hnbits, hbit, hhigh]
  cases bitField w0 <;> decide

/-- R92, R94: the fields of the header that `encode` makes for a count `x` of `BP.WRITE`. -/
theorem writeHeader_fields : ∀ x : Byte,
    (0x00000002#32 ||| (x.zeroExtend 32 <<< 8)).extractLsb' 0 8 = 0x02#8 ∧
    (0x00000002#32 ||| (x.zeroExtend 32 <<< 8)).extractLsb' 8 8 = x ∧
    (0x00000002#32 ||| (x.zeroExtend 32 <<< 8)).extractLsb' 16 1 = 0#1 ∧
    (0x00000002#32 ||| (x.zeroExtend 32 <<< 8)).extractLsb' 17 15 = 0#15 := by decide

theorem eq_writeHeader {w0 : Word} (h : HeaderRow.write.selects w0 = true) :
    w0 = 0x00000002#32 ||| ((BitVec.ofInt 8 (nbitsField w0)).zeroExtend 32 <<< 8) := by
  obtain ⟨hopc, hbit, hhigh⟩ := (write_selects_iff w0).1 h
  obtain ⟨hopc', hnbits', hbit', hhigh'⟩ := writeHeader_fields (w0.extractLsb' 8 8)
  rw [nbitsField, BitVec.ofInt_toInt, word_eq_iff_fields, hopc', hnbits', hbit', hhigh']
  exact ⟨hopc, rfl, hbit, hhigh⟩

theorem eq_flushHeader {w0 : Word} (h : HeaderRow.flush.selects w0 = true) : w0 = 0x00000003#32 := by
  rw [word_eq_iff_fields]
  exact (flush_selects_iff w0).1 h

theorem eq_resizeHeader {w0 : Word} (h : HeaderRow.resize.selects w0 = true) : w0 = 0x00000010#32 := by
  rw [word_eq_iff_fields]
  exact (resize_selects_iff w0).1 h

/-- R94: `NBITS` holds a signed 8-bit count. -/
theorem nbitsFits_nbitsField (w0 : Word) : Instr.nbitsFits (nbitsField w0) = true := by
  have hlt := BitVec.toInt_lt (x := (w0.extractLsb' 8 8 : Byte))
  have hle := BitVec.le_toInt (x := (w0.extractLsb' 8 8 : Byte))
  rw [Instr.nbitsFits, nbitsField, decide_eq_true_iff]
  omega

/-- R105: `BP.WRITE` with any count its field admits survives encoding. -/
theorem decode_encode_bpWrite {value : Word} {nbits : Int} (h : Instr.nbitsFits nbits = true) :
    decode (encode (.bpWrite value nbits)) = .ok (.bpWrite value nbits) := by
  obtain ⟨hopc, hnbits, hbit, hhigh⟩ := writeHeader_fields (BitVec.ofInt 8 nbits)
  rw [encode, decode_write ((write_selects_iff _).2 ⟨hopc, hbit, hhigh⟩), nbitsField, hnbits, toInt_ofInt_nbits h]

/-- R105: `RS.RESIZE` with any dimensions its operand words admit survives encoding. -/
theorem decode_encode_rsResize {ow oh w h : Int} (how : Instr.dimFits ow = true) (hoh : Instr.dimFits oh = true)
    (hw : Instr.dimFits w = true) (hh : Instr.dimFits h = true) :
    decode (encode (.rsResize ow oh w h)) = .ok (.rsResize ow oh w h) := by
  have hdec (w1 w2 w3 w4 : Word) : decode [0x00000010#32, w1, w2, w3, w4] =
      .ok (.rsResize (dimWord w1) (dimWord w2) (dimWord w3) (dimWord w4)) := rfl
  rw [encode, hdec]
  simp only [dimWord, toInt_ofInt_dim how, toInt_ofInt_dim hoh, toInt_ofInt_dim hw, toInt_ofInt_dim hh]

/-- Settles O5, one format at a time: each field that the encoder fills reads back as the operand. -/
theorem decodeInvertsEncode : Obligations.DecodeInvertsEncode := by
  unfold Obligations.DecodeInvertsEncode
  intro i hwf
  cases i with
  | bpWritebit bit => cases bit <;> rfl
  | bpWrite value nbits => exact decode_encode_bpWrite hwf
  | bpFlush => rfl
  | rsResize ow oh w h =>
    simp only [Instr.wf, Bool.and_eq_true] at hwf
    obtain ⟨⟨⟨how, hoh⟩, hw⟩, hh⟩ := hwf
    exact decode_encode_rsResize how hoh hw hh

/-- R93, R98, R105: the four shapes of a packet that decodes. -/
theorem decode_ok_cases {packet : List Word} {i : Instr} (h : decode packet = .ok i) :
    (∃ w0, HeaderRow.writebit.selects w0 = true ∧ packet = [w0] ∧ i = .bpWritebit (bitField w0)) ∨
    (∃ w0 w1, HeaderRow.write.selects w0 = true ∧ packet = [w0, w1] ∧ i = .bpWrite w1 (nbitsField w0)) ∨
    (∃ w0, HeaderRow.flush.selects w0 = true ∧ packet = [w0] ∧ i = .bpFlush) ∨
    (∃ w0 w1 w2 w3 w4, HeaderRow.resize.selects w0 = true ∧ packet = [w0, w1, w2, w3, w4] ∧
      i = .rsResize (dimWord w1) (dimWord w2) (dimWord w3) (dimWord w4)) := by
  cases packet with
  | nil => cases h
  | cons w0 operands =>
    obtain ⟨hsel, -, e⟩ | ⟨hsel, -, ⟨-, e⟩ | ⟨w1, rfl, e⟩⟩ | ⟨hsel, -, e⟩ |
      ⟨hsel, -, ⟨-, e⟩ | ⟨w1, w2, w3, w4, rfl, e⟩⟩ | ⟨-, -, -, -, e⟩ := decode_cases w0 operands <;> rw [e] at h
    case inl =>
      split at h <;> cases h
      rename_i hnil
      exact .inl ⟨w0, hsel, by rw [List.length_eq_zero_iff.1 hnil], rfl⟩
    case inr.inl.inr =>
      cases h
      exact .inr (.inl ⟨w0, w1, hsel, rfl, rfl⟩)
    case inr.inr.inl =>
      split at h <;> cases h
      rename_i hnil
      exact .inr (.inr (.inl ⟨w0, hsel, by rw [List.length_eq_zero_iff.1 hnil], rfl⟩))
    case inr.inr.inr.inl.inr =>
      cases h
      exact .inr (.inr (.inr ⟨w0, w1, w2, w3, w4, hsel, rfl, rfl⟩))
    all_goals cases h

/-- Settles O6: a header that selects a row is the header the encoder makes from the fields read, as the other fields
are zero. -/
theorem encodeInvertsDecode : Obligations.EncodeInvertsDecode := by
  unfold Obligations.EncodeInvertsDecode
  intro packet i hdec
  obtain ⟨w0, hsel, rfl, rfl⟩ | ⟨w0, w1, hsel, rfl, rfl⟩ | ⟨w0, hsel, rfl, rfl⟩ |
    ⟨w0, w1, w2, w3, w4, hsel, rfl, rfl⟩ := decode_ok_cases hdec
  · rw [encode, ← eq_writebitHeader hsel]
    exact ⟨rfl, rfl⟩
  · rw [encode, ← eq_writeHeader hsel]
    exact ⟨nbitsFits_nbitsField w0, rfl⟩
  · rw [encode, ← eq_flushHeader hsel]
    exact ⟨rfl, rfl⟩
  · obtain ⟨hfits1, heq1⟩ := dimWord_fits w1
    obtain ⟨hfits2, heq2⟩ := dimWord_fits w2
    obtain ⟨hfits3, heq3⟩ := dimWord_fits w3
    obtain ⟨hfits4, heq4⟩ := dimWord_fits w4
    rw [Instr.wf, hfits1, hfits2, hfits3, hfits4, encode, heq1, heq2, heq3, heq4, ← eq_resizeHeader hsel]
    exact ⟨rfl, rfl⟩

/-- Settles O4: the decoder run on each row of the table. -/
theorem workedEncodingsDecode : Obligations.WorkedEncodingsDecode := by
  unfold Obligations.WorkedEncodingsDecode
  decide

end Sys2Proof.Proofs
end

section
/-! Proofs about what a step takes from the host (spec/20_memory.md section 6, spec/70_reset_and_hazards.md section 3). -/

namespace Sys2Proof.Proofs

open Sys2Proof Sys2Proof.Machine

/-- R28: with no host move listed nothing happens. -/
theorem step_of_no_input {s : State} (h : s.hostPort.inputs = []) : step s = .next s := by
  simp [step, h]

/-- R242: while a command waits, the block takes no move but `HostReset`. -/
theorem step_of_blocked {s : State} (hb : s.hostPort.blocked = true)
    (h : ∀ rest, s.hostPort.inputs ≠ .reset :: rest) : step s = .next s := by
  cases hin : s.hostPort.inputs with
  | nil => exact step_of_no_input hin
  | cons m rest =>
    have hm : m ≠ .reset := fun hm => h rest (hm ▸ hin)
    simp [step, hin, hb, hm]

/-- Settles O12: nothing is taken from an empty queue, and a waiting block takes only a `HostReset`. -/
theorem stepWaitsForTheHostAndTheSink : Obligations.StepWaitsForTheHostAndTheSink := by
  unfold Obligations.StepWaitsForTheHostAndTheSink
  refine ⟨fun s => step_of_no_input, fun s m rest hin hb hm => step_of_blocked hb fun rest' hin' => hm ?_⟩
  rw [hin] at hin'
  exact (List.cons.inj hin').1

/-- Settles O11: at rest the step takes the packet, which decoding turns into the command. -/
theorem stepRunsTheDecodedInstruction : Obligations.StepRunsTheDecodedInstruction := by
  unfold Obligations.StepRunsTheDecodedInstruction
  intro s packet rest i hin hb _ hdec
  rw [step_of_inputs hin hb, runMove, runPacket, hdec]

end Sys2Proof.Proofs
end

section
/-! Proofs of what `BP.WRITEBIT`, `BP.WRITE` and `BP.FLUSH` do in each case (spec/40_bitpacker.md, sections 1 and 2). -/

namespace Sys2Proof.Proofs

open Sys2Proof Sys2Proof.Machine

/-- R137: with room in the pending byte, `PutBit` only inserts, whatever the position. -/
theorem putBit_room {s : State} (bit : Bool) (hr : s.bp.bitsRemaining ≠ 0) :
    putBit bit s = .go (s.setBp (s.bp.insert bit)) := by
  rw [putBit, makeRoom, if_neg hr, Flow.go_andThen]

/-- R137: a full pending byte is committed, and the bit starts a fresh one. -/
theorem putBit_commit {s : State} (bit : Bool) (hr : s.bp.bitsRemaining = 0) (hp : s.bp.bufferPosition.toNat < 255) :
    putBit bit s = .go (s.setBp (s.bp.commit.insert bit)) := by
  obtain ⟨h, -⟩ | ⟨-, -, e⟩ | ⟨-, h, -⟩ := makeRoom_cases s hp.le
  · exact absurd hr h
  · rw [putBit, e]; rfl
  · omega

/-- R137: a commit that fills the buffer is followed by a sink write of its 256 bytes. -/
theorem putBit_full {s : State} (bit : Bool) (hr : s.bp.bitsRemaining = 0) (hp : s.bp.bufferPosition.toNat = 255) :
    putBit bit s = (sinkWrite 256 (s.setBp s.bp.commit)).andThen fun t => .go (t.setBp (t.bp.insert bit)) := by
  obtain ⟨h, -⟩ | ⟨-, h, -⟩ | ⟨-, -, e⟩ := makeRoom_cases s hp.le
  · exact absurd hr h
  · omega
  · rw [putBit, e]

/-- R65, R122: the bytes that a full buffer presents. -/
theorem bufferPrefix_commit_full {b : BitPacker} (hp : b.bufferPosition.toNat = 255) :
    b.commit.bufferPrefix 256 = b.bufferPrefix 255 ++ [b.pendingByte] := by
  have h := BitPacker.bufferPrefix_commit b
  rwa [hp] at h

/-- Settles O14: `PutBit` inserts, commits and inserts, or presents the full buffer, whose answer decides. -/
theorem writebitFollowsPutBit : Obligations.WritebitFollowsPutBit := by
  unfold Obligations.WritebitFollowsPutBit
  refine fun bit s => ⟨exec_of_bpFault rfl, fun hf => ⟨fun hr => ?_, fun hr hp => ?_, fun hr hp hd => ?_,
    fun hr hp hd => ?_, fun hr hp hd => ?_⟩⟩ <;> rw [exec_writebit hf]
  · rw [putBit_room bit hr]
    rfl
  · rw [putBit_commit bit hr hp, insert_fresh _ bit rfl rfl]
    rfl
  · rw [putBit_full bit hr hp, sinkWrite_ok (s := s.setBp s.bp.commit) le_rfl hd, ← bufferPrefix_commit_full hp, ← hp,
      Flow.go_andThen, insert_fresh _ bit rfl rfl]
    rfl
  · rw [putBit_full bit hr hp, sinkWrite_fail (s := s.setBp s.bp.commit) le_rfl hd, ← bufferPrefix_commit_full hp]
    exact ⟨_, rfl, rfl, rfl, rfl⟩
  · rw [putBit_full bit hr hp, sinkWrite_silent (s := s.setBp s.bp.commit) le_rfl hd]
    exact ⟨_, rfl, hf, rfl, SinkPort.draw_log _, rfl⟩

/-- R24, R134: a packer at rest holds at most the bits of a full buffer. -/
theorem heldBits_length_le {b : BitPacker} (h : b.AtRest) : b.heldBits.length ≤ 2048 := by
  have := h.position_le
  rw [BitPacker.heldBits_length]
  omega

/-- R64, R124: the bits of a `BP.WRITE`, as a claim writes them. -/
theorem exec_write_putBits {value : Word} {n : Nat} {s : State} (hn : n ≤ 32) (hf : s.bp.bpFault = false) :
    exec (.bpWrite value n) s =
      (putBits ((List.range n).map fun k => value.getLsbD (n - 1 - k)) s).finish := by
  rw [exec_write hn hf, valueBits_eq]

/-- Settles O16: with the answer listed, or no need of one, `PutBit` of every bit reaches its end. -/
theorem writeAppendsItsBits : Obligations.WriteAppendsItsBits := by
  unfold Obligations.WriteAppendsItsBits
  intro value nbits s hrest hready hn hlive
  obtain ⟨hf, hb⟩ := hready
  have hheld := heldBits_length_le hrest
  obtain ⟨k, hk, hroom⟩ : ∃ k, s.sinkPort.answersOk k ∧ s.bp.heldBits.length + nbits ≤ 2048 * (k + 1) := by
    obtain hok | hfits := hlive
    · exact ⟨1, hok, by omega⟩
    · exact ⟨0, rfl, hfits⟩
  obtain ⟨pre, t, hput, hdone⟩ := putBits_live ((List.range nbits).map fun k => value.getLsbD (nbits - 1 - k)) hrest hk
    (by simpa using hroom)
  rw [exec_write_putBits hn hf, hput]
  refine ⟨_, rfl, hdone.written, hdone.atRest, ⟨hdone.fault.trans hf, ?_⟩, ?_⟩
  · rw [State.complete_blocked, hdone.hostPort, hb]
  · rw [State.complete_outputs, hdone.hostPort]
    rfl

/-- From a usable packer, `PutBit` of a list of bits that leaves the block ready has reached its end (R121, R242). -/
theorem putBits_go_of_ready {bits : List Bool} {s t : State} (h : (putBits bits s).finish = .next t) (ht : t.ready) :
    ∃ u, putBits bits s = .go u ∧ t = u.complete .ok := by
  have hfr := putBits_framed bits s
  cases hput : putBits bits s with
  | go u =>
    rw [hput] at h
    exact ⟨u, rfl, (next_inj h).symm⟩
  | ended u =>
    rw [hput] at h hfr
    cases next_inj h
    exact absurd ht (Stopped.not_ready hfr)
  | fault r =>
    rw [hput] at h
    cases h

/-- Settles O17: either run is `PutBit` of the same bits, which reached its end. -/
theorem writeIsItsBits : Obligations.WriteIsItsBits := by
  unfold Obligations.WriteIsItsBits
  intro value nbits s hready hn
  have hwrite := exec_write_putBits (value := value) hn hready.1
  refine ⟨fun t h ht => ?_, fun t' h ht' => ?_⟩
  · rw [hwrite] at h
    obtain ⟨u, hput, rfl⟩ := putBits_go_of_ready h ht
    exact ⟨_, run_writebits hready.1 hput, rfl⟩
  · obtain ⟨u, hput⟩ := run_writebits_ready hready h ht'
    rw [run_writebits hready.1 hput] at h
    cases next_inj h
    exact ⟨u.complete .ok, by rw [hwrite, hput]; rfl, rfl⟩

/-- R125: what `BP.FLUSH` presents to the sink is in the buffer once the pending byte is committed, and the pending byte
is empty. -/
theorem flushPending_eq {s : State} (hp : s.bp.bufferPosition.toNat ≤ 255) :
    flushPending s =
      .go (s.setBp (if s.bp.bitsRemaining.toNat < 8 then s.bp.commit else s.bp).startByte) := by
  unfold flushPending
  split
  · rw [commitPending_eq hp]
    rfl
  · rfl

/-- R125: past the gate and the commit, `BP.FLUSH` is one sink write, or nothing. -/
theorem exec_flush_eq {s : State} {b : BitPacker} (hf : s.bp.bpFault = false)
    (h : flushPending s = .go (s.setBp b)) :
    exec .bpFlush s =
      (if 0 < b.bufferPosition.toNat then sinkWrite b.bufferPosition.toNat (s.setBp b) else .go (s.setBp b)).finish := by
  rw [exec, execBpFlush, packerUsable, hf, h]
  rfl

/-- Settles O21: `flushPending` leaves the packer `b`, and the answer to the one sink write decides. -/
theorem flushFollowsItsPseudocode : Obligations.FlushFollowsItsPseudocode := by
  unfold Obligations.FlushFollowsItsPseudocode
  refine fun s => ⟨exec_of_bpFault rfl, fun hf hp b hb => ?_⟩
  have hflush : flushPending s = .go (s.setBp b) := by
    rw [flushPending_eq hp, hb]
    split <;> rfl
  have hsame : b.sink = s.bp.sink ∧ b.bpFault = false ∧ b.bufferPosition.toNat ≤ 256 := by
    subst hb
    split
    · exact ⟨rfl, hf, by have := BitPacker.commit_position_toNat hp; simp only [BitPacker.commit] at this ⊢; omega⟩
    · exact ⟨rfl, hf, by simp only; omega⟩
  obtain ⟨hsink, hbf, hle⟩ := hsame
  have hpos : b.bufferPosition ≠ 0 → 0 < b.bufferPosition.toNat := fun h =>
    Nat.pos_of_ne_zero (mt (eq_zero_iff_toNat _).2 h)
  rw [exec_flush_eq hf hflush]
  refine ⟨fun hz => ?_, fun hz hd => ?_, fun hz hd => ?_, fun hz hd => ?_⟩
  · rw [hz]
    rfl
  · rw [if_pos (hpos hz), sinkWrite_ok (s := s.setBp b) hle hd, ← hsink]
    rfl
  · rw [if_pos (hpos hz), sinkWrite_fail (s := s.setBp b) hle hd, ← hsink]
    exact ⟨_, rfl, rfl, rfl, rfl⟩
  · rw [if_pos (hpos hz), sinkWrite_silent (s := s.setBp b) hle hd]
    exact ⟨_, rfl, hbf, rfl, SinkPort.draw_log _, rfl⟩

end Sys2Proof.Proofs
end

section
/-! Proofs of what a BP command from a state at rest does to the sink, the record and the buffer (spec/20_memory.md
section 3, spec/60_exceptions.md, spec/70_reset_and_hazards.md section 3). -/

namespace Sys2Proof.Proofs

open Sys2Proof Sys2Proof.Machine

/-- The length of the one sink write a BP command may perform, at rest (R68): a full buffer, or for a flush everything
committed with the pending byte. -/
def sinkWriteLength (b : BitPacker) : Instr → Nat
  | .bpFlush => b.bufferPosition.toNat + 1
  | _ => 256

theorem sinkWriteLength_of_ne_flush {b : BitPacker} {i : Instr} (hi : i ≠ .bpFlush) : sinkWriteLength b i = 256 := by
  cases i with
  | bpFlush => exact absurd rfl hi
  | bpWritebit | bpWrite | rsResize => rfl

/-- Where a BP command can lead from a state at rest without a fault (R11, R68, R190). -/
inductive PackerRun (i : Instr) (s : State) : State → Prop where
  /-- An operand check has rejected it. -/
  | rejected {c : Status} (hc : Instr.packerCheck i s = some c) : PackerRun i s (s.complete c)
  /-- A writing command has put all its bits, with at most one sink write. -/
  | wrote {t : State} {pre : List SinkEvent} (hi : i ≠ .bpFlush) (done : PutDone pre (i.appendedBits 0) s t)
      (once : pre.length ≤ 1) : PackerRun i s (t.complete .ok)
  /-- A flush has found nothing to send. -/
  | idle (hi : i = .bpFlush) (hr : s.bp.bitsRemaining.toNat = 8) : PackerRun i s (s.complete .ok)
  /-- A flush has sent everything. -/
  | sent (hi : i = .bpFlush) (hr : s.bp.bitsRemaining.toNat < 8) : PackerRun i s (s.flushed.complete .ok)
  /-- The sink has stopped it at its first write. -/
  | stopped {t : State} (hint : Interrupted [] (sinkWriteLength s.bp i) s t) : PackerRun i s t

/-- A writing command with at most 32 bits, at rest: `PutBit` of its bits fills the buffer at most once (R68). -/
theorem exec_writing_packerRun {i : Instr} {s : State} (h : s.bp.AtRest) (hi : i ≠ .bpFlush)
    (hlen : (i.appendedBits 0).length ≤ 32) (he : exec i s = (putBits (i.appendedBits 0) s).finish) :
    ∃ t, exec i s = .next t ∧ PackerRun i s t := by
  have hheld := heldBits_length_le h
  obtain ⟨pre, t, hput, hdone⟩ | ⟨pre, t, hput, hint, -, hlt⟩ := putBits_spec (i.appendedBits 0) h
  · refine ⟨_, by rw [he, hput]; rfl, .wrote hi hdone ?_⟩
    have hsum := hdone.held
    have hpos := hdone.held_pos
    have hquiet := hdone.quiet
    by_cases hnil : i.appendedBits 0 = []
    · simp [hquiet hnil]
    · have := hpos hnil
      omega
  · have hpre : pre = [] := List.length_eq_zero_iff.1 (by omega)
    exact ⟨t, by rw [he, hput]; rfl, .stopped (by rwa [sinkWriteLength_of_ne_flush hi, ← hpre])⟩

/-- R68, R136, R190: everything a BP command can do from a state at rest without a fault. -/
theorem exec_packerRun {i : Instr} (hi : i.isPacker = true) {s : State} (h : s.bp.AtRest) (hf : s.bp.bpFault = false) :
    ∃ t, exec i s = .next t ∧ PackerRun i s t := by
  cases i with
  | rsResize => cases hi
  | bpWritebit bit =>
    exact exec_writing_packerRun h (by simp) (by simp [Instr.appendedBits]) (exec_legal_write hf (.inl ⟨bit, rfl⟩))
  | bpWrite value nbits =>
    by_cases hn : nbits < 0 ∨ 32 < nbits
    · have hc := packerCheck_bpWrite_illegal (value := value) hf hn
      exact ⟨_, exec_of_packerCheck rfl hc, .rejected hc⟩
    · obtain ⟨n, rfl⟩ := Int.eq_ofNat_of_zero_le (show 0 ≤ nbits by omega)
      have hn32 : n ≤ 32 := by omega
      exact exec_writing_packerRun h (by simp) (by simpa [Instr.appendedBits] using hn32)
        (exec_legal_write hf (.inr ⟨value, n, hn32, rfl⟩))
  | bpFlush =>
    obtain ⟨hr, e⟩ | ⟨hr, -, e⟩ | ⟨-, -, t, e, hint⟩ := execBpFlush_cases h hf
    · exact ⟨_, e, .idle rfl hr⟩
    · exact ⟨_, e, .sent rfl hr⟩
    · exact ⟨t, e, .stopped hint⟩

/-- `exec_packerRun` for a command that has answered. -/
theorem packerRun_of_exec {i : Instr} (hi : i.isPacker = true) {s t : State} (h : s.bp.AtRest)
    (hf : s.bp.bpFault = false) (he : exec i s = .next t) : PackerRun i s t := by
  obtain ⟨u, hu, hrun⟩ := exec_packerRun hi h hf
  rwa [next_inj (he.symm.trans hu)]

/-- R125, R129: after a flush that completes OK the packer is empty. -/
theorem empty_of_atRest {b : BitPacker} (h : b.AtRest) (hr : b.bitsRemaining.toNat = 8) : b.empty := by
  have hstart := h.startByte_self hr
  refine ⟨BitVec.eq_of_toNat_eq hr, ?_, (eq_zero_iff_toNat _).2 (h.position_zero hr)⟩
  rw [← hstart, BitPacker.startByte_pendingByte]

/-- R129: `BP.FLUSH` of an empty packer only completes. -/
theorem exec_flush_of_empty {s : State} (h : s.bp.empty) (hf : s.bp.bpFault = false) :
    exec .bpFlush s = .next (s.complete .ok) :=
  execBpFlush_empty h.atRest hf (by rw [h.1]; rfl)

/-- Settles O22: whether the first flush sent something or not, it leaves an empty packer. -/
theorem flushTwiceIsOneFlush : Obligations.FlushTwiceIsOneFlush := by
  unfold Obligations.FlushTwiceIsOneFlush
  intro s t hrest hready he ht
  have hempty : t.bp.empty := by
    cases packerRun_of_exec rfl hrest hready.1 he with
    | rejected hc => exact absurd hc (by simp [Instr.packerCheck, hready.1])
    | wrote hi => exact absurd rfl hi
    | idle _ hr => exact empty_of_atRest hrest hr
    | sent => exact State.flushed_empty s
    | stopped hint => exact absurd ht hint.not_ready
  exact ⟨hempty, exec_flush_of_empty hempty ht.1⟩

/-- R68: one sink write of the length that the command has at rest, to the bound sink. -/
def OneWrite (i : Instr) (s t : State) : Prop :=
  ∃ e, t.sinkPort.log = s.sinkPort.log ++ [e] ∧ e.sink = s.bp.sink ∧ e.bytes.length = sinkWriteLength s.bp i

theorem sinkWriteLength_bounds {b : BitPacker} (h : b.AtRest) (i : Instr) :
    1 ≤ sinkWriteLength b i ∧ sinkWriteLength b i ≤ 256 := by
  have := h.position_le
  cases i <;> simp only [sinkWriteLength] <;> omega

/-- R68: at rest a BP command performs at most one sink write. -/
theorem exec_packer_writes_once {i : Instr} (hi : i.isPacker = true) {s t : State} (h : s.bp.AtRest)
    (he : exec i s = .next t) : t.sinkPort.log = s.sinkPort.log ∨ OneWrite i s t := by
  cases hf : s.bp.bpFault with
  | true =>
    rw [exec_of_bpFault hi hf] at he
    exact .inl (by rw [← next_inj he, State.complete_sinkPort])
  | false =>
    cases packerRun_of_exec hi h hf he with
    | rejected | idle => exact .inl rfl
    | @wrote t pre hi done once =>
      have hlog := done.logged
      match pre, once with
      | [], _ => exact .inl (by simpa using hlog)
      | [e], _ =>
        obtain ⟨-, hlen, hsink⟩ := done.automatic e List.mem_cons_self
        exact .inr ⟨e, hlog, hsink, by rw [hlen, sinkWriteLength_of_ne_flush hi]⟩
    | sent hi =>
      subst hi
      exact .inr ⟨(s.setBp s.bp.commit).sinkEvent (s.bp.bufferPosition.toNat + 1) .ok, by simp, rfl,
        BitPacker.bufferPrefix_length _ _⟩
    | stopped hint =>
      cases hint with
      | failed _ _ _ logged _ =>
        obtain ⟨e, hlog, -, hsink, hlen⟩ := logged
        exact .inr ⟨e, by simpa using hlog, hsink, hlen⟩
      | waiting _ _ _ logged _ => exact .inl (by simpa using logged)

/-- Settles O26: at most one write, of the length `sinkWriteLength` gives, which is from 1 to 256. -/
theorem sinkWriteLengths : Obligations.SinkWriteLengths := by
  unfold Obligations.SinkWriteLengths
  intro i s t hi hrest he
  refine (exec_packer_writes_once hi hrest he).imp id fun ⟨e, hlog, hsink, hlen⟩ => ?_
  obtain ⟨hlow, hhigh⟩ := sinkWriteLength_bounds hrest i
  refine ⟨e, hlog, hsink, hlen ▸ hlow, hlen ▸ hhigh, fun hne => ?_, fun hflush => ?_⟩
  · rw [hlen, sinkWriteLength_of_ne_flush hne]
  · rw [hlen, hflush, sinkWriteLength]

/-- R70: a failed write adds nothing to the sink stream. -/
theorem stream_eq_of_log_failed {k k' : SinkPort} {e : SinkEvent} (hlog : k'.log = k.log ++ [e])
    (he : e.answer = .fail) : k'.stream = k.stream := by
  simp [SinkPort.stream, hlog, SinkEvent.accepted, he]

/-- R121: a BP command that latches `bpFault` was stopped by a failing sink. -/
theorem interrupted_of_latched {i : Instr} (hi : i.isPacker = true) {s t : State} (h : s.bp.AtRest)
    (hf : s.bp.bpFault = false) (he : exec i s = .next t) (ht : t.bp.bpFault = true) :
    Interrupted [] (sinkWriteLength s.bp i) s t := by
  cases packerRun_of_exec hi h hf he with
  | stopped hint => exact hint
  | rejected | idle | sent => exact absurd (ht.symm.trans hf) (by decide)
  | wrote _ done _ => exact absurd ((ht.symm.trans done.fault).trans hf) (by decide)

/-- Settles O27: of the ways a command can be stopped, the one that latches the fault is the failed write. -/
theorem sinkFailureEndsTheCommandAndThePacker : Obligations.SinkFailureEndsTheCommandAndThePacker := by
  unfold Obligations.SinkFailureEndsTheCommandAndThePacker
  intro i s t hi hrest hf he ht
  cases interrupted_of_latched hi hrest hf he ht with
  | failed frame fault record logged _ =>
    obtain ⟨e, hlog, hfail, hsink, -⟩ := logged
    rw [List.append_nil] at hlog
    exact ⟨by rw [record]; rfl, ⟨e, hlog, hfail, hsink⟩, stream_eq_of_log_failed hlog hfail, frame.rs,
      fun j hj => exec_of_bpFault hj ht⟩
  | waiting _ fault => exact absurd ((ht.symm.trans fault).trans hf) (by decide)

/-- R242: a BP command that has come to wait was stopped by a silent sink. -/
theorem interrupted_of_blocked {i : Instr} (hi : i.isPacker = true) {s t : State} (h : s.bp.AtRest) (hs : s.ready)
    (he : exec i s = .next t) (ht : t.hostPort.blocked = true) : Interrupted [] (sinkWriteLength s.bp i) s t := by
  cases packerRun_of_exec hi h hs.1 he with
  | stopped hint => exact hint
  | rejected | idle | sent => exact absurd (ht.symm.trans hs.2) (by decide)
  | wrote _ done _ =>
    rw [State.complete_blocked, done.hostPort] at ht
    exact absurd (ht.symm.trans hs.2) (by decide)

/-- Settles O28: of the ways a command can be stopped, the one that waits has logged and delivered nothing. -/
theorem silentSinkLeavesTheCommandWaiting : Obligations.SilentSinkLeavesTheCommandWaiting := by
  unfold Obligations.SilentSinkLeavesTheCommandWaiting
  intro i s t hi hrest hs he ht
  cases interrupted_of_blocked hi hrest hs he ht with
  | failed _ _ record =>
    rw [record] at ht
    exact absurd (ht.symm.trans hs.2) (by decide)
  | waiting frame fault record logged _ =>
    exact ⟨by rw [record], by simpa using logged, fault.trans hs.1, frame.rs, step_of_blocked ht⟩

end Sys2Proof.Proofs
end

section
/-! Proofs of the frame of the BP commands and of the one record each command delivers (spec/10_state.md section 1,
spec/60_exceptions.md section 1). -/

namespace Sys2Proof.Proofs

open Sys2Proof Sys2Proof.Machine

/-- `b'` reads as `b` but at the `n` positions that commits go to, from `bufferPosition` on and round to 0. -/
def SameBytesBut (n : Nat) (b b' : BitPacker) : Prop :=
  ∀ k, (∀ c, c < n → k ≠ (b.bufferPosition.toNat + c) % 256) → b'.bufferByte k = b.bufferByte k

theorem sameBytesBut_of_eq {n : Nat} {b b' : BitPacker} (h : ∀ k, b'.bufferByte k = b.bufferByte k) :
    SameBytesBut n b b' := fun k _ => h k

/-- A commit writes the one element at `bufferPosition` (R122). -/
theorem sameBytesBut_commit {b b' : BitPacker} (hp : b.bufferPosition.toNat ≤ 255)
    (h : ∀ k, b'.bufferByte k = b.commit.bufferByte k) : SameBytesBut 1 b b' := by
  intro k hk
  have hne : k ≠ b.bufferPosition.toNat := by
    have := hk 0 Nat.one_pos
    rwa [Nat.add_zero, Nat.mod_eq_of_lt (by omega)] at this
  rw [h, BitPacker.bufferByte_commit, if_neg hne]

theorem SameBytesBut.mono {n m : Nat} {b b' : BitPacker} (h : SameBytesBut n b b') (hle : n ≤ m) :
    SameBytesBut m b b' := fun k hk => h k fun c hc => hk c (by omega)

theorem SameBytesBut.trans {n m : Nat} {b b' b'' : BitPacker} (h : SameBytesBut n b b') (h' : SameBytesBut m b' b'')
    (hp : b'.bufferPosition.toNat = (b.bufferPosition.toNat + n) % 256) : SameBytesBut (n + m) b b'' := by
  intro k hk
  rw [h' k fun c hc => ?_, h k fun c hc => hk c (by omega)]
  have := hk (n + c) (by omega)
  rw [hp]
  omega

/-- A flow that, unless it faults the packer, keeps the elements of `InternalBuffer` but the `n` it commits to. -/
def FlowKeepsBytes (n : Nat) (b : BitPacker) : Flow → Prop
  | .go t => SameBytesBut n b t.bp
  | .ended t => t.bp.bpFault = false → SameBytesBut n b t.bp
  | .fault _ => True

theorem FlowKeepsBytes.andThen {n m : Nat} {b : BitPacker} {x : Flow} {f : State → Flow} (h : FlowKeepsBytes n b x)
    (hf : ∀ t, x = .go t →
      t.bp.bufferPosition.toNat = (b.bufferPosition.toNat + n) % 256 ∧ FlowKeepsBytes m t.bp (f t)) :
    FlowKeepsBytes (n + m) b (x.andThen f) := by
  cases x with
  | go t =>
    obtain ⟨hp, hft⟩ := hf t rfl
    rw [Flow.go_andThen]
    cases hu : f t with
    | go u =>
      rw [hu] at hft
      exact SameBytesBut.trans h hft hp
    | ended u =>
      rw [hu] at hft
      exact fun hfault => SameBytesBut.trans h (hft hfault) hp
    | fault r => trivial
  | ended t => exact fun hfault => (h hfault).mono (by omega)
  | fault r => trivial

/-- The number of commits of `PutBit` of `count` bits with `remaining` positions unfilled (R137). -/
def commitCount (remaining count : Nat) : Nat := (count - remaining + 7) / 8

/-- R137: `PutBit` commits when the pending byte is full, and only then. -/
theorem putBit_keepsBytes (bit : Bool) {s : State} (hp : s.bp.bufferPosition.toNat ≤ 255) :
    FlowKeepsBytes (commitCount s.bp.bitsRemaining.toNat 1) s.bp (putBit bit s) := by
  obtain ⟨-, e⟩ | ⟨hr, -, e⟩ | ⟨hr, -, -, e⟩ | ⟨hr, -, -, e⟩ | ⟨hr, -, -, e⟩ := putBit_cases bit s hp <;> rw [e]
  · exact sameBytesBut_of_eq fun k => rfl
  all_goals rw [hr]
  · exact sameBytesBut_commit hp fun k => rfl
  · exact sameBytesBut_commit hp fun k => rfl
  · exact fun hfault => absurd hfault (by simp)
  · exact fun _ => sameBytesBut_commit hp fun k => rfl

/-- R122, R137: where `PutBit` leaves the position and the count of unfilled bits. -/
theorem putBit_position {bit : Bool} {s t : State} (hp : s.bp.bufferPosition.toNat ≤ 255)
    (e : putBit bit s = .go t) :
    t.bp.bufferPosition.toNat = (s.bp.bufferPosition.toNat + commitCount s.bp.bitsRemaining.toNat 1) % 256 ∧
    t.bp.bitsRemaining.toNat = (if s.bp.bitsRemaining.toNat = 0 then 7 else s.bp.bitsRemaining.toNat - 1) := by
  obtain ⟨hr, e'⟩ | ⟨hr, hlt, e'⟩ | ⟨hr, hfull, -, e'⟩ | ⟨-, -, -, e'⟩ | ⟨-, -, -, e'⟩ := putBit_cases bit s hp <;>
    rw [e'] at e <;> cases e
  · have hr' : s.bp.bitsRemaining.toNat ≠ 0 := mt (eq_zero_iff_toNat _).2 hr
    simp only [State.setBp_bp, BitPacker.insert_bufferPosition, BitPacker.insert_bitsRemaining,
      toNat_sub_one (Nat.one_le_iff_ne_zero.2 hr'), if_neg hr', commitCount, and_true]
    omega
  · simp only [State.setBp_bp, BitPacker.insert_bufferPosition, BitPacker.commit_position_toNat hp, hr]
    exact ⟨(Nat.mod_eq_of_lt (by omega)).symm, by simp⟩
  · simp [hr, hfull, commitCount]

theorem putBits_keepsBytes (bits : List Bool) {s : State} (h : s.bp.AtRest) :
    FlowKeepsBytes (commitCount s.bp.bitsRemaining.toNat bits.length) s.bp (putBits bits s) := by
  induction bits generalizing s with
  | nil => exact sameBytesBut_of_eq fun k => rfl
  | cons bit bits ih =>
    have hrest (t : State) (e : putBit bit s = .go t) : t.bp.AtRest := by
      obtain ⟨_, u, e', hdone⟩ | ⟨-, -, _, e', -⟩ := putBit_spec bit h <;> rw [e'] at e <;> cases e
      exact hdone.atRest
    have hsplit (t : State) (e : putBit bit s = .go t) :
        commitCount s.bp.bitsRemaining.toNat (bits.length + 1) =
          commitCount s.bp.bitsRemaining.toNat 1 + commitCount t.bp.bitsRemaining.toNat bits.length := by
      rw [(putBit_position h.position_le e).2]
      unfold commitCount
      split <;> omega
    have hfirst := putBit_keepsBytes bit h.position_le
    rw [putBits, List.length_cons]
    cases hput : putBit bit s with
    | go t =>
      rw [hput] at hfirst
      rw [hsplit t hput]
      refine hfirst.andThen fun u hu => ?_
      cases hu
      exact ⟨(putBit_position h.position_le hput).1, ih (hrest t hput)⟩
    | ended t =>
      rw [hput] at hfirst
      exact fun hfault => (hfirst hfault).mono (by unfold commitCount; omega)
    | fault r => trivial

/-- R125: a flush commits what is pending, if anything is. -/
theorem flush_keepsBytes {s : State} (h : s.bp.AtRest) :
    FlowKeepsBytes (Instr.commits s.bp.bitsRemaining.toNat .bpFlush) s.bp (Instr.procedure .bpFlush s) := by
  have hp := h.position_le
  rw [Instr.procedure, flushPending_eq hp, Instr.commits, Flow.go_andThen]
  split
  · simp only [State.setBp_bp, BitPacker.commit_position_toNat hp, Nat.succ_pos,
      if_true, BitPacker.commit_startByte]
    obtain ⟨-, e⟩ | ⟨-, e⟩ | ⟨-, e⟩ :=
      sinkWrite_cases (s.setBp s.bp.commit) (n := s.bp.bufferPosition.toNat + 1) (by omega) <;> rw [e]
    · exact sameBytesBut_commit hp fun k => rfl
    · exact fun hfault => absurd hfault (by simp)
    · exact fun _ => sameBytesBut_commit hp fun k => rfl
  · have hz := h.position_zero (by have := h.remaining_le; omega)
    simp only [State.setBp_bp, BitPacker.startByte_bufferPosition, hz, lt_self_iff_false, if_false]
    exact sameBytesBut_of_eq fun k => rfl

theorem procedure_keepsBytes (i : Instr) {s : State} (h : s.bp.AtRest) :
    FlowKeepsBytes (i.commits s.bp.bitsRemaining.toNat) s.bp (Instr.procedure i s) := by
  cases i with
  | bpWritebit bit =>
    have hone : Instr.commits s.bp.bitsRemaining.toNat (.bpWritebit bit) = commitCount s.bp.bitsRemaining.toNat 1 := by
      rw [Instr.commits, commitCount]
      split <;> omega
    rw [hone]
    exact putBit_keepsBytes bit h.position_le
  | bpWrite value nbits =>
    have hkeep := putBits_keepsBytes (valueBits value nbits.toNat) h
    rwa [valueBits_length] at hkeep
  | bpFlush => exact flush_keepsBytes h
  | rsResize => exact sameBytesBut_of_eq fun k => rfl

/-- R21, R121, R122: unless it faults the packer, a BP command keeps the elements it does not commit to. -/
theorem exec_packer_keepsBytes {i : Instr} (hi : i.isPacker = true) {s t : State} (h : s.bp.AtRest)
    (he : exec i s = .next t) (ht : t.bp.bpFault = false) :
    SameBytesBut (i.commits s.bp.bitsRemaining.toNat) s.bp t.bp := by
  have hkeep := procedure_keepsBytes i h
  obtain ⟨c, -, rfl⟩ | ⟨-, u, hu, -, rfl⟩ | ⟨-, hu, -⟩ := exec_packer_cases hi he
  · exact sameBytesBut_of_eq fun k => rfl
  · rw [hu] at hkeep
    exact hkeep
  · rw [hu] at hkeep
    exact hkeep ht

/-- The host's record only grows under a BP command (R190, log 9). -/
theorem exec_packer_outputs {i : Instr} (hi : i.isPacker = true) {s t : State} (he : exec i s = .next t) :
    s.hostPort.outputs <+: t.hostPort.outputs := by
  obtain ⟨c, -, rfl⟩ | ⟨-, u, -, hu, rfl⟩ | ⟨-, -, hstop⟩ := exec_packer_cases hi he
  · exact List.prefix_append _ _
  · rw [State.complete_outputs, hu.hostPort]
    exact List.prefix_append _ _
  · obtain ⟨hhost, -⟩ | ⟨hhost, -⟩ := hstop.how <;> rw [hhost]
    exact List.prefix_append _ _

/-- Settles O29: `PackerFrame`, and the buffer by the elements that the procedure's commits write. -/
theorem packerFrameHolds : Obligations.PackerFrameHolds := by
  unfold Obligations.PackerFrameHolds
  intro i s t hi hrest _ he
  obtain ⟨hframe, -⟩ := exec_packer_frame hi he
  exact ⟨hframe.params, hframe.rs, hframe.sink, hframe.inputs, exec_packer_outputs hi he, hframe.log,
    exec_packer_keepsBytes hi hrest he⟩

end Sys2Proof.Proofs
end

section
/-! Proofs that each command delivers one completion record or waits with nothing logged (spec/60_exceptions.md section 1,
spec/70_reset_and_hazards.md section 3). -/

namespace Sys2Proof.Proofs

open Sys2Proof Sys2Proof.Machine

/-- R242: a sink write that comes to wait has logged nothing, in any state. -/
theorem sinkWrite_waiting_log {n : Nat} {s t : State} (hs : s.hostPort.blocked = false)
    (e : sinkWrite n s = .ended t) (ht : t.hostPort.blocked = true) : t.sinkPort.log = s.sinkPort.log := by
  by_cases hn : n ≤ 256
  · obtain ⟨-, e'⟩ | ⟨-, e'⟩ | ⟨-, e'⟩ := sinkWrite_cases s hn <;> rw [e'] at e <;> cases e
    · exact absurd (ht.symm.trans hs) (by decide)
    · exact SinkPort.draw_log _
  · rw [sinkWrite, if_neg hn] at e
    cases e

/-- R137: a commit beyond the buffer would be a fault (log 11). -/
theorem putBit_fault {s : State} (bit : Bool) (hr : s.bp.bitsRemaining = 0) (hp : ¬ s.bp.bufferPosition.toNat ≤ 255) :
    putBit bit s = .fault .bufferIndex := by
  rw [putBit, makeRoom, if_pos hr, commitPending, if_neg hp]
  rfl

/-- Right after an automatic sink write the packer is at rest with one bit (R121, R137). -/
theorem insert_resetBuffer_atRest (b : BitPacker) (bit : Bool) :
    (b.commit.resetBuffer.insert bit).AtRest ∧ (b.commit.resetBuffer.insert bit).heldBits.length = 1 := by
  refine ⟨BitPacker.insert_atRest bit (by simp) (by simp) (by simp) (by simp) (Memory.listed_zero _), ?_⟩
  simp [BitPacker.heldBits_length]

/-- R68: from rest, bits that the buffer has room for are put without a sink write to stop them. -/
theorem putBits_ne_ended {bits : List Bool} {s : State} (h : s.bp.AtRest)
    (hroom : s.bp.heldBits.length + bits.length ≤ 2048) (t : State) : putBits bits s ≠ .ended t := by
  obtain ⟨_, _, e, -⟩ | ⟨_, _, -, -, -, hlt⟩ := putBits_spec bits h
  · simp [e]
  · omega

/-- R68, R242: `PutBit` of up to 2048 bits that comes to wait has logged nothing, in any state: a first sink write that is
accepted leaves one bit held, and too few bits are left to fill the buffer again. -/
theorem putBits_waiting_log {bits : List Bool} {s t : State} (hlen : bits.length ≤ 2048)
    (hs : s.hostPort.blocked = false) (e : putBits bits s = .ended t) (ht : t.hostPort.blocked = true) :
    t.sinkPort.log = s.sinkPort.log := by
  induction bits generalizing s with
  | nil => cases e
  | cons bit bits ih =>
    rw [List.length_cons] at hlen
    rw [putBits] at e
    by_cases hr : s.bp.bitsRemaining = 0
    case neg =>
      rw [putBit_room bit hr] at e
      exact ih (s := s.setBp (s.bp.insert bit)) (by omega) hs e
    obtain hp | hp | hp := Nat.lt_trichotomy s.bp.bufferPosition.toNat 255
    · rw [putBit_commit bit hr hp] at e
      exact ih (s := s.setBp (s.bp.commit.insert bit)) (by omega) hs e
    · rw [putBit_full bit hr hp] at e
      obtain ⟨-, hw⟩ | ⟨-, hw⟩ | ⟨-, hw⟩ := sinkWrite_cases (s.setBp s.bp.commit) le_rfl <;> rw [hw] at e
      · obtain ⟨hrest, hheld⟩ := insert_resetBuffer_atRest s.bp bit
        exact absurd e (putBits_ne_ended hrest (by simp only [State.setBp_bp, hheld]; omega) t)
      · cases e
        exact absurd (ht.symm.trans hs) (by decide)
      · cases e
        exact SinkPort.draw_log _
    · rw [putBit_fault bit hr (by omega)] at e
      cases e

/-- R124: past its checks, a `BP.WRITE` has at most 32 bits to write. -/
theorem nbits_le_of_packerCheck {value : Word} {nbits : Int} {s : State}
    (h : Instr.packerCheck (.bpWrite value nbits) s = none) : nbits.toNat ≤ 32 := by
  have hf : s.bp.bpFault = false := by
    rw [← Bool.not_eq_true, ← packerCheck_eq_packerUnusable_iff (.bpWrite value nbits), h]
    simp
  by_contra hn
  rw [packerCheck_bpWrite_illegal hf (.inr (by omega))] at h
  cases h

/-- R125: what comes before the sink write of a flush does not end it, logs nothing and leaves the host's port alone. -/
theorem flushPending_cases (s : State) :
    (∃ b, flushPending s = .go (s.setBp b)) ∨ flushPending s = .fault .bufferIndex := by
  by_cases hp : s.bp.bufferPosition.toNat ≤ 255
  · exact .inl ⟨_, flushPending_eq hp⟩
  · unfold flushPending commitPending
    rw [if_neg hp]
    split
    · exact .inr rfl
    · exact .inl ⟨_, rfl⟩

/-- R242: a BP command that comes to wait has logged nothing, in any state. -/
theorem procedure_waiting_log {i : Instr} {s t : State} (hc : Instr.packerCheck i s = none)
    (hs : s.hostPort.blocked = false) (e : Instr.procedure i s = .ended t) (ht : t.hostPort.blocked = true) :
    t.sinkPort.log = s.sinkPort.log := by
  cases i with
  | bpWritebit bit =>
    refine putBits_waiting_log (bits := [bit]) (by simp) hs ?_ ht
    rw [Instr.procedure] at e
    rw [putBits, e]
    rfl
  | bpWrite value nbits =>
    have hlen := nbits_le_of_packerCheck hc
    exact putBits_waiting_log (by rw [valueBits_length]; omega) hs e ht
  | bpFlush =>
    rw [Instr.procedure] at e
    obtain ⟨b, hb⟩ | hb := flushPending_cases s <;> rw [hb] at e
    · rw [Flow.go_andThen] at e
      split at e
      · exact sinkWrite_waiting_log (s := s.setBp b) hs e ht
      · cases e
    · cases e
  | rsResize => cases e

/-- R190: every status has a code from 0 to 6. -/
theorem code_le_six (c : Status) : c.code.toNat ≤ 6 := by
  cases c <;> decide

/-- R190, R242: a command that answers a next state has delivered one record, or it waits with nothing delivered and nothing
logged. -/
theorem exec_one_record {i : Instr} {s t : State} (hs : s.hostPort.blocked = false) (h : exec i s = .next t) :
    (t.hostPort.blocked = false ∧ ∃ c : Status, t.hostPort.outputs = s.hostPort.outputs ++ [.completion c.code]) ∨
    (t.hostPort.blocked = true ∧ t.hostPort.outputs = s.hostPort.outputs ∧ t.sinkPort.log = s.sinkPort.log) := by
  cases i with
  | rsResize =>
    obtain ⟨_, -, rfl⟩ | ⟨-, -, -, rfl⟩ | ⟨-, -, _, -, rfl⟩ := exec_resize_cases h <;> exact .inl ⟨hs, _, rfl⟩
  | bpWritebit | bpWrite | bpFlush =>
    obtain ⟨c, -, rfl⟩ | ⟨-, u, -, hu, rfl⟩ | ⟨hc, hended, hstop⟩ := exec_packer_cases rfl h
    · exact .inl ⟨hs, c, rfl⟩
    · exact .inl ⟨by rw [State.complete_blocked, hu.hostPort, hs], .ok, by rw [State.complete_outputs, hu.hostPort]⟩
    · obtain ⟨hhost, -⟩ | ⟨hhost, -⟩ := hstop.how
      · exact .inl ⟨by rw [hhost, hs], .sinkWriteFailed, by rw [hhost]⟩
      · exact .inr ⟨by rw [hhost], by rw [hhost], procedure_waiting_log hc hs hended (by rw [hhost])⟩

/-- Settles O30: an illegal packet has its one record, a legal one is a command. -/
theorem everyCommandDeliversOneRecord : Obligations.EveryCommandDeliversOneRecord := by
  unfold Obligations.EveryCommandDeliversOneRecord
  refine ⟨⟨rfl, rfl, rfl, rfl, rfl, rfl, rfl⟩, fun packet s t hs h => ?_⟩
  cases hd : decode packet with
  | error e =>
    rw [runPacket_of_decode_error hd] at h
    cases h
    exact .inl ⟨hs, _, code_le_six .illegalCommand, rfl⟩
  | ok i =>
    rw [runPacket, hd] at h
    exact (exec_one_record hs h).imp_left fun ⟨hb, c, hout⟩ => ⟨hb, c.code, code_le_six c, hout⟩

end Sys2Proof.Proofs
end

section
/-! Proofs of the stream law and of what runs of writes and flushes send (spec/40_bitpacker.md section 3). -/

namespace Sys2Proof.Proofs

open Sys2Proof Sys2Proof.Machine

/-- The bits written are counted by the sink stream, the position and the pending bits (R128). -/
theorem writtenBits_length (s : State) : s.writtenBits.length =
    8 * s.sinkPort.stream.length + 8 * s.bp.bufferPosition.toNat + (8 - s.bp.bitsRemaining.toNat) := by
  rw [State.writtenBits, List.length_append, bitsOf_length, BitPacker.heldBits_length, Nat.add_assoc]

/-- R129: an empty packer holds nothing, so everything written is in the sink stream. -/
theorem writtenBits_of_empty {s : State} (h : s.bp.empty) : s.writtenBits = bitsOf s.sinkPort.stream := by
  rw [State.writtenBits, h.heldBits, List.append_nil]

theorem bitPacker_afterReset_empty (epoch : Nat) : (BitPacker.afterReset epoch).empty := ⟨rfl, rfl, rfl⟩

/-- R40, R128: with a packer just after reset and an empty `sinkLog` no bit is written. -/
theorem writtenBits_afterReset {s : State} {epoch : Nat} (hbp : s.bp = BitPacker.afterReset epoch)
    (hlog : s.sinkPort.log = []) : s.writtenBits = [] ∧ s.bp.AtRest := by
  have hempty : s.bp.empty := hbp ▸ bitPacker_afterReset_empty epoch
  exact ⟨by rw [writtenBits_of_empty hempty, SinkPort.stream, hlog]; rfl, hempty.atRest⟩

/-- R230: what `HostReset` makes of the packer, `sinkLog` and the waiting bit. -/
theorem step_reset_packer {s t : State} {rest : List HostMove} (hin : s.hostPort.inputs = .reset :: rest)
    (h : step s = .next t) :
    t.bp = BitPacker.afterReset (s.bp.epoch + 1) ∧ t.sinkPort.log = [] ∧ t.ready := by
  rw [step_of_inputs_reset hin] at h
  cases h
  exact ⟨rfl, rfl, rfl, rfl⟩

/-- What a claim of the stream law says of a command that has completed OK (R128). -/
structure Appended (i : Instr) (s t : State) : Prop where
  written : t.writtenBits = s.writtenBits ++ i.appendedBits s.writtenBits.length
  atRest : t.bp.AtRest
  flushed : i = .bpFlush → t.bp.empty

/-- R128: only a flush looks at how many bits have been written. -/
theorem appendedBits_of_ne_flush {i : Instr} (hi : i ≠ .bpFlush) (len : Nat) :
    i.appendedBits len = i.appendedBits 0 := by
  cases i with
  | bpFlush => exact absurd rfl hi
  | bpWritebit | bpWrite | rsResize => rfl

/-- R125, R128: a flush of an empty packer appends nothing, as whole bytes have been written. -/
theorem flush_idle_appended {s : State} (h : s.bp.AtRest) (hr : s.bp.bitsRemaining.toNat = 8) :
    Appended .bpFlush s (s.complete .ok) := by
  have hlen := writtenBits_length s
  rw [h.position_zero hr, hr] at hlen
  have hpad : (8 - s.writtenBits.length % 8) % 8 = 0 := by omega
  refine ⟨?_, h, fun _ => empty_of_atRest h hr⟩
  rw [Instr.appendedBits, hpad, List.replicate_zero, List.append_nil]
  rfl

/-- R125, R128: a flush appends as many zeros as the pending byte has positions unfilled. -/
theorem flush_sent_appended {s : State} (h : s.bp.AtRest) (hr : s.bp.bitsRemaining.toNat < 8) :
    Appended .bpFlush s (s.flushed.complete .ok) := by
  have hlen := writtenBits_length s
  have hpad : (8 - s.writtenBits.length % 8) % 8 = s.bp.bitsRemaining.toNat := by omega
  refine ⟨?_, (State.flushed_empty s).atRest, fun _ => State.flushed_empty s⟩
  rw [Instr.appendedBits, hpad, ← State.flushed_stream h]
  exact writtenBits_of_empty (s := s.flushed.complete .ok) (State.flushed_empty s)

/-- R128: a BP command that leaves the block ready and was not rejected appends its bits. -/
theorem appended_of_packerRun {i : Instr} {s t : State} (h : s.bp.AtRest) (hrun : PackerRun i s t) (ht : t.ready)
    (hout : t.hostPort.outputs = s.hostPort.outputs ++ [.completion 0]) : Appended i s t := by
  cases hrun with
  | @rejected c hc =>
    obtain ⟨rfl, -⟩ | ⟨rfl, -⟩ := Instr.packerCheck_status hc <;>
      exact absurd (completion_append_inj hout) (by decide)
  | wrote hi done once =>
    exact ⟨by rw [appendedBits_of_ne_flush hi]; exact done.written, done.atRest, fun hflush => absurd hflush hi⟩
  | idle hi hr => exact hi ▸ flush_idle_appended h hr
  | sent hi hr => exact hi ▸ flush_sent_appended h hr
  | stopped hint => exact absurd ht hint.not_ready

/-- R2, R128: `RS.RESIZE` appends nothing. -/
theorem resize_appended {ow oh w h : Int} {s t : State} (hrest : s.bp.AtRest)
    (he : exec (.rsResize ow oh w h) s = .next t) : Appended (.rsResize ow oh w h) s t := by
  have hsame : t.bp = s.bp ∧ t.sinkPort = s.sinkPort := by
    obtain ⟨_, -, rfl⟩ | ⟨-, -, -, rfl⟩ | ⟨-, -, _, -, rfl⟩ := exec_resize_cases he <;> exact ⟨rfl, rfl⟩
  obtain ⟨hbp, hsink⟩ := hsame
  refine ⟨?_, hbp ▸ hrest, by simp⟩
  rw [State.writtenBits, hbp, hsink, Instr.appendedBits, List.append_nil]
  rfl

/-- R128: from rest, a command that ends OK appends its bits. -/
theorem exec_appended {i : Instr} {s t : State} (hrest : s.bp.AtRest) (hs : s.ready) (he : exec i s = .next t)
    (ht : t.ready) (hout : t.hostPort.outputs = s.hostPort.outputs ++ [.completion 0]) : Appended i s t := by
  cases i with
  | rsResize => exact resize_appended hrest he
  | bpWritebit | bpWrite | bpFlush => exact appended_of_packerRun hrest (packerRun_of_exec rfl hrest hs.1 he) ht hout

/-- R80, R128: the host's moves other than a command and `HostReset` leave the packer and the sink port alone. -/
theorem runMove_packer {m : HostMove} {s t : State} (hcommand : ∀ packet, m ≠ .command packet) (hreset : m ≠ .reset)
    (h : runMove m s = .next t) : t.bp = s.bp ∧ t.sinkPort = s.sinkPort := by
  cases m with
  | command packet => exact absurd rfl (hcommand packet)
  | reset => exact absurd rfl hreset
  | loadSource pixels =>
    rw [runMove] at h
    obtain ⟨-, -, e⟩ | ⟨-, -, e⟩ | ⟨-, e⟩ := hostLoadSource_cases pixels s <;> rw [e] at h <;> cases h
    exact ⟨rfl, rfl⟩
  | writeSourcePixel index value =>
    rw [runMove] at h
    obtain ⟨-, -, e⟩ | ⟨-, -, e⟩ | ⟨-, e⟩ := hostWriteSourcePixel_cases index value s <;> rw [e] at h <;> cases h
    exact ⟨rfl, rfl⟩
  | readResult =>
    obtain ⟨_, rfl⟩ := hostReadResult_next h
    exact ⟨rfl, rfl⟩

/-- Settles O23: the law holds of the empty packer after a reset; a command that ends OK has `Appended` its bits, a
rejection changes only the record, and the other moves leave the packer and the sink port alone. -/
theorem streamLaw : Obligations.StreamLaw := by
  unfold Obligations.StreamLaw
  refine ⟨fun p => ?_, fun s t rest hin h => ?_, fun i s t hrest hs he ht hout => ?_,
    fun packet s t c h hout hc => ?_, fun s t h hcommand hreset => ?_⟩
  · obtain ⟨hwritten, hrest⟩ := writtenBits_afterReset (s := State.resetOf p) rfl rfl
    exact ⟨hwritten, hrest, rfl, rfl⟩
  · obtain ⟨hbp, hlog, hready⟩ := step_reset_packer hin h
    obtain ⟨hwritten, hrest⟩ := writtenBits_afterReset hbp hlog
    exact ⟨hwritten, hrest, hready⟩
  · have happ := exec_appended hrest hs he ht hout
    exact ⟨happ.written, writtenBits_length t, fun hflush => (writtenBits_of_empty (happ.flushed hflush)).symm,
      happ.atRest⟩
  · obtain ⟨hreject, -⟩ := rejectionsChangeNothing packet s t c h hout
    rw [hreject hc]
    rfl
  · obtain rfl | ⟨m, rest, hin, -, hrun⟩ := step_cases h
    · rfl
    · obtain ⟨hbp, hsink⟩ := runMove_packer (fun packet hm => hcommand packet rest (hm ▸ hin))
        (fun hm => hreset rest (hm ▸ hin)) hrun
      rw [State.writtenBits, hbp, hsink]
      rfl

end Sys2Proof.Proofs
end

section
/-! Proofs about runs of writing commands from an empty packer (spec/40_bitpacker.md section 3). -/

namespace Sys2Proof.Proofs

open Sys2Proof Sys2Proof.Machine

/-- A writing command whose bit count is legal (R123, R124). -/
def LegalWrite (i : Instr) : Prop :=
  (∃ bit, i = .bpWritebit bit) ∨ (∃ value, ∃ nbits : Nat, nbits ≤ 32 ∧ i = .bpWrite value nbits)

theorem LegalWrite.isPacker {i : Instr} (h : LegalWrite i) : i.isPacker = true := by
  obtain ⟨bit, rfl⟩ | ⟨value, nbits, -, rfl⟩ := h <;> rfl

theorem runInstrs_append (is js : List Instr) (s : State) : runInstrs (is ++ js) s =
    match runInstrs is s with
    | .next t => runInstrs js t
    | .fault r => .fault r
    | .refused r => .refused r := by
  induction is generalizing s with
  | nil => rfl
  | cons i is ih =>
    rw [List.cons_append, runInstrs, runInstrs]
    cases exec i s with
    | next t => exact ih t
    | fault r => rfl
    | refused r => rfl

/-- A run that answers a next state is a first part that does and a rest that goes on from there. -/
theorem runInstrs_append_next {is js : List Instr} {s t : State} (h : runInstrs (is ++ js) s = .next t) :
    ∃ u, runInstrs is s = .next u ∧ runInstrs js u = .next t := by
  rw [runInstrs_append] at h
  split at h
  · exact ⟨_, by assumption, h⟩
  · cases h
  · cases h

theorem runInstrs_singleton (i : Instr) (s : State) : runInstrs [i] s = exec i s := by
  rw [runInstrs]
  cases exec i s <;> rfl

/-- Legal writes that leave the block ready have put all their bits (R121, R242). -/
theorem putBits_go_of_run_ready {writes : List Instr} {s t : State} (hl : ∀ i ∈ writes, LegalWrite i) (hs : s.ready)
    (h : runInstrs writes s = .next t) (ht : t.ready) :
    ∃ u, putBits (writes.flatMap (Instr.appendedBits 0)) s = .go u := by
  induction writes generalizing s with
  | nil => exact ⟨s, rfl⟩
  | cons i is ih =>
    obtain ⟨hi, his⟩ := List.forall_mem_cons.1 hl
    rw [runInstrs] at h
    cases hx : exec i s with
    | next v =>
      rw [hx] at h
      have hv : v.ready := by
        by_contra hv
        exact run_not_ready (fun j hj => (his j hj).isPacker) hv h ht
      rw [exec_legal_write hs.1 hi] at hx
      obtain ⟨u, hput, rfl⟩ := putBits_go_of_ready hx hv
      obtain ⟨w, hw⟩ := ih his hv h
      refine ⟨w.setHostPort u.hostPort, ?_⟩
      rw [List.flatMap_cons, putBits_append, hput]
      exact putBits_host (s := u.complete .ok) u.hostPort hw
    | fault r => rw [hx] at h; cases h
    | refused r => rw [hx] at h; cases h

/-- R128, R131: where legal writes that leave the block ready lead from rest. -/
theorem run_writes_putDone {writes : List Instr} {s t : State} (hl : ∀ i ∈ writes, LegalWrite i)
    (hrest : s.bp.AtRest) (hs : s.ready) (h : runInstrs writes s = .next t) (ht : t.ready) :
    t.bp.AtRest ∧ t.writtenBits = s.writtenBits ++ writes.flatMap (Instr.appendedBits 0) := by
  obtain ⟨u, hput⟩ := putBits_go_of_run_ready hl hs h ht
  rw [run_legal_writes hl hs.1 hput] at h
  cases next_inj h
  obtain ⟨pre, v, e, hdone⟩ | ⟨_, _, e, -⟩ := putBits_spec (writes.flatMap (Instr.appendedBits 0)) hrest <;>
    rw [hput] at e <;> cases e
  exact ⟨hdone.atRest, hdone.written⟩

/-- R125: a flush that leaves the block ready completes OK, and appends the zeros up to a multiple of 8. -/
theorem exec_flush_appended {s t : State} (hrest : s.bp.AtRest) (hf : s.bp.bpFault = false)
    (he : exec .bpFlush s = .next t) (ht : t.ready) : Appended .bpFlush s t := by
  cases packerRun_of_exec rfl hrest hf he with
  | rejected hc => exact absurd hc (by simp [Instr.packerCheck, hf])
  | wrote hi => exact absurd rfl hi
  | idle _ hr => exact flush_idle_appended hrest hr
  | sent _ hr => exact flush_sent_appended hrest hr
  | stopped hint => exact absurd ht hint.not_ready

/-- Settles O24: the stream law of the writes and then of the flush, which leaves everything in the sink stream. -/
theorem flushedBytesAreTheBitsPadded : Obligations.FlushedBytesAreTheBitsPadded := by
  unfold Obligations.FlushedBytesAreTheBitsPadded
  intro writes s t bits hl hempty hs h ht hbits
  obtain ⟨u, hwrites, hflush⟩ := runInstrs_append_next h
  rw [runInstrs_singleton] at hflush
  have hu : u.ready := by
    by_contra hu
    exact exec_not_ready rfl hu hflush ht
  obtain ⟨hrest, hwritten⟩ := run_writes_putDone hl hempty.atRest hs hwrites hu
  have happ := exec_flush_appended hrest hu.1 hflush ht
  rw [← hbits, writtenBits_of_empty hempty] at hwritten
  have hstream := happ.written
  rw [writtenBits_of_empty (happ.flushed rfl), hwritten, Instr.appendedBits] at hstream
  have hlen := congrArg List.length hstream
  have hpad : (8 - (bitsOf s.sinkPort.stream ++ bits).length % 8) % 8 = (8 - bits.length % 8) % 8 := by
    rw [List.length_append, bitsOf_length]
    omega
  rw [hpad] at hstream
  simp only [List.length_append, bitsOf_length, List.length_replicate] at hlen
  exact ⟨hstream, by omega⟩

/-- R22, R24, R134: the number of bits held gives the position and the count of unfilled bits. -/
theorem position_of_heldBits_length {b : BitPacker} (h : b.AtRest) (hpos : 1 ≤ b.heldBits.length) :
    b.bufferPosition.toNat = (b.heldBits.length - 1) / 8 ∧
      b.bitsRemaining.toNat = 7 - (b.heldBits.length - 1) % 8 := by
  have hlen := BitPacker.heldBits_length b
  have hr : b.bitsRemaining.toNat ≠ 8 := by
    intro hr
    rw [h.position_zero hr, hr] at hlen
    omega
  have := h.remaining_le
  omega

/-- Settles O25: with the answers listed all bits are put, and the count of held bits, from 1 to 2048, determines the number
of sink writes before. -/
theorem automaticSinkWritesFollowTheBitCount : Obligations.AutomaticSinkWritesFollowTheBitCount := by
  unfold Obligations.AutomaticSinkWritesFollowTheBitCount
  intro writes s N hl hN hempty hs hpos hok
  have hheld : s.bp.heldBits.length = 0 := by rw [hempty.heldBits]; rfl
  obtain ⟨pre, t, hput, hdone⟩ := putBits_live (writes.flatMap (Instr.appendedBits 0)) hempty.atRest hok (by omega)
  have hsum := hdone.held
  have hle := heldBits_length_le hdone.atRest
  have hone := hdone.held_pos (by rintro hnil; rw [hnil] at hN; simp at hN; omega)
  obtain ⟨hposition, hremaining⟩ := position_of_heldBits_length hdone.atRest hone
  refine ⟨_, pre, run_legal_writes hl hs.1 hput, ⟨hdone.fault.trans hs.1, ?_⟩, ?_, hdone.logged, by omega, ?_, ?_, ?_⟩
  · simp only [State.setHostPort_hostPort, hdone.hostPort, hs.2]
  · simp only [State.setHostPort_hostPort, hdone.hostPort]
  · exact hdone.automatic
  · rw [State.setHostPort_bp, hposition]
    omega
  · rw [State.setHostPort_bp, hremaining]
    omega

end Sys2Proof.Proofs
end

section
/-! Proofs about `RS.RESIZE` and its loops (spec/41_resampler.md). -/

namespace Sys2Proof.Proofs

open Sys2Proof Sys2Proof.Machine

/-- R152: valid dimensions as natural numbers. -/
theorem validate_natCast {ow oh w h : Nat} {s : State} (how : 0 < ow) (hoh : 0 < oh) (hw : 0 < w) (hh : 0 < h)
    (hlen : ow * oh = s.rs.srcLen) (hfits : w * h ≤ s.params.maxPixels) : validate ow oh w h s = none :=
  validate_eq_none_iff.2 ⟨by omega, by omega, by omega, by omega, by exact_mod_cast hlen, by exact_mod_cast hfits⟩

/-- R150, R161: `RS.RESIZE` on valid dimensions that are not the identity, as natural numbers. -/
theorem exec_resize_resized {ow oh w h : Nat} {s : State} (how : 0 < ow) (hoh : 0 < oh) (hw : 0 < w) (hh : 0 < h)
    (hlen : ow * oh = s.rs.srcLen) (hfits : w * h ≤ s.params.maxPixels) (hs : s.rs.srcLen ≤ s.params.maxPixels)
    (hid : ¬ (ow = w ∧ oh = h)) :
    exec (.rsResize ow oh w h) s = .next ((s.setRs (s.rs.resized s.params ow oh w h)).complete .ok) := by
  have hv := validate_natCast how hoh hw hh hlen hfits
  simpa using exec_resize_general hv (by exact_mod_cast hid) hs

/-- The elements of row `k` of a `w` by `h` image are inside it. -/
theorem row_add_le {w h k n : Nat} (hk : k < h) (hn : n ≤ w) : k * w + n ≤ w * h :=
  calc k * w + n ≤ (k + 1) * w := by rw [Nat.succ_mul]; omega
    _ ≤ w * h := by rw [Nat.mul_comm w]; exact Nat.mul_le_mul_right w hk

theorem row_col_lt {w h row col : Nat} (hrow : row < h) (hcol : col < w) : row * w + col < w * h :=
  row_add_le (n := col + 1) hrow hcol

/-- R161: the output at row `row` and column `col`. -/
theorem dstPixel_resized_row {p : Params} {r : Resampler} {ow oh w h row col : Nat} (hrow : row < h) (hcol : col < w) :
    (r.resized p ow oh w h).dstPixel p (row * w + col) = r.srcPixel p (sampleIndex ow oh w h row col) := by
  rw [dstPixel_resized (row_col_lt hrow hcol), Resampler.sample, div_row hcol, mod_row hcol]

/-- Settles O35: the general path ends with the closed form in `DST`. -/
theorem resizeGivesTheClosedForm : Obligations.ResizeGivesTheClosedForm := by
  unfold Obligations.ResizeGivesTheClosedForm
  intro ow oh w h s how hoh hw hh hlen hfits hs hid
  exact ⟨_, exec_resize_resized how hoh hw hh hlen hfits hs hid, fun row col => dstPixel_resized_row,
    rfl, rfl, rfl, rfl, rfl⟩

/-- R162: the closed form reads the loaded buffer only. -/
theorem sample_congr {p : Params} {r r' : Resampler} {ow oh w h i : Nat} (how : 0 < ow) (hoh : 0 < oh)
    (hsame : ∀ j, j < ow * oh → r'.srcPixel p j = r.srcPixel p j) (hi : i < w * h) :
    r'.sample p ow oh w h i = r.sample p ow oh w h i := by
  have hw : 0 < w := Nat.pos_of_mul_pos_right (Nat.zero_lt_of_lt hi)
  exact hsame _ (sampleIndex_lt how hoh (Nat.div_lt_of_lt_mul hi) (Nat.mod_lt i hw))

/-- Settles O36: both outputs are the closed form of pixels below `srcLen`. -/
theorem resizeReadsOnlyTheLoadedBuffer : Obligations.ResizeReadsOnlyTheLoadedBuffer := by
  unfold Obligations.ResizeReadsOnlyTheLoadedBuffer
  intro ow oh w h s s' t t' how hoh hw hh hid hlen hlen' hparams hs hfits hsame he he' i hi
  rw [exec_resize_resized how hoh hw hh hlen hfits hs hid] at he
  rw [exec_resize_resized how hoh hw hh (hlen.trans hlen'.symm) (hparams ▸ hfits) (by rw [hparams, hlen']; exact hs) hid,
    hparams] at he'
  cases he
  cases he'
  calc (s'.rs.resized s.params ow oh w h).dstPixel s.params i
      = s'.rs.sample s.params ow oh w h i := dstPixel_resized hi
    _ = s.rs.sample s.params ow oh w h i := sample_congr how hoh (hlen ▸ hsame) hi
    _ = (s.rs.resized s.params ow oh w h).dstPixel s.params i := (dstPixel_resized hi).symm

/-- R160: the general path sets `resultLen` to the size of the output, for every Resampler and all dimensions. -/
theorem resizeGeneral_resultLen {p : Params} {ow oh w h : Nat} {r r' : Resampler}
    (hr : resizeGeneral p ow oh w h r = .ok r') : r'.resultLen = w * h := by
  unfold resizeGeneral at hr
  split at hr <;> cases hr
  rfl

/-- Settles O38: on the identity path `srcLen` is the product of the dimensions, by `Validate`. -/
theorem resizeOutputLength : Obligations.ResizeOutputLength := by
  unfold Obligations.ResizeOutputLength
  intro ow oh w h s t he hout
  obtain ⟨c, hv, rfl⟩ | ⟨hv, rfl, rfl, rfl⟩ | ⟨hv, -, r, hr, rfl⟩ := exec_resize_cases he
  · exact absurd (by simpa using hout) (validate_code_ne_zero hv)
  · obtain ⟨-, -, -, -, hlen, -⟩ := validate_eq_none_iff.1 hv
    exact hlen.symm
  · obtain ⟨-, -, hw, hh, -, -⟩ := validate_eq_none_iff.1 hv
    rw [State.complete_rs, State.setRs_rs, resizeGeneral_resultLen hr]
    push_cast
    rw [Int.toNat_of_nonneg hw.le, Int.toNat_of_nonneg hh.le]

section Loops

variable {p : Params} {r0 : Resampler} {ow oh w h : Nat}

/-- The registers of the column loop after one column (R158, R167). -/
theorem advanceColumn_eq (hw : 0 < w) (r : Resampler) (start c dest : Nat) :
    advanceColumn w (precompute ow oh w h)
      { rs := r, hfrac := (c * (ow % w)) % w, sourcePos := start + c * ow / w, destPos := dest } =
    { rs := r, hfrac := ((c + 1) * (ow % w)) % w, sourcePos := start + (c + 1) * ow / w, destPos := dest + 1 } := by
  obtain ⟨hpos, hfrac⟩ := floor_step ow w c hw
  rw [hpos, hfrac]
  by_cases hcarry : w ≤ c * (ow % w) % w + ow % w
  · simp only [advanceColumn, precompute, if_pos hcarry, Nat.add_assoc]
  · simp only [advanceColumn, precompute, if_neg hcarry, Nat.add_assoc, Nat.add_zero]

/-- The column loop follows its closed forms for as many columns as it runs (R158, R167). -/
theorem computeColumns_registers (hw : 0 < w) (n c start dest : Nat) (r : Resampler) (hn : c + n ≤ w)
    (hsrc : ∀ k, k < w → start + k * ow / w < p.maxPixels) (hdst : dest + n ≤ p.maxPixels) :
    ∃ g, computeColumns p w (precompute ow oh w h) n
        { rs := r, hfrac := (c * (ow % w)) % w, sourcePos := start + c * ow / w, destPos := dest } = .ok g ∧
      g.hfrac = ((c + n) * (ow % w)) % w ∧ g.sourcePos = start + (c + n) * ow / w ∧ g.destPos = dest + n := by
  induction n generalizing c dest r with
  | zero => exact ⟨_, rfl, rfl, rfl, rfl⟩
  | succ n ih =>
    simp only [computeColumns, readSrc_eq (hsrc c (by omega)), writeDst_eq (show dest < p.maxPixels by omega),
      advanceColumn_eq hw]
    obtain ⟨g, e, hfrac, hpos, hdest⟩ := ih (c + 1) (dest + 1) _ (by omega) (by omega)
    rw [Nat.add_right_comm, Nat.add_assoc] at hfrac hpos
    exact ⟨g, e, hfrac, hpos, by omega⟩

/-- R162: the columns of row `k` sample inside the source image. -/
theorem rowStart_add_lt (how : 0 < ow) (hoh : 0 < oh) (hsrc : ow * oh ≤ p.maxPixels) {k : Nat} (hk : k < h) (c : Nat)
    (hc : c < w) : ow * (k * oh / h) + c * ow / w < p.maxPixels := by
  have := sampleIndex_lt how hoh hk hc
  rw [sampleIndex, Nat.mul_comm _ ow] at this
  omega

/-- Settles O40: the rows by `RowInv`, the columns by `computeColumns_registers`, both from the loops' starts. -/
theorem accumulatorsFollowTheirClosedForms : Obligations.AccumulatorsFollowTheirClosedForms := by
  unfold Obligations.AccumulatorsFollowTheirClosedForms
  intro p r ow oh w h how hoh hw hh hsrc hdst
  refine ⟨fun k hk => ?_, fun k c hk hc => ?_⟩
  · obtain ⟨g, e, inv⟩ := resizeRows_eq how hoh hw hsrc hdst k 0 _ (by omega) (RowInv.init p r ow oh w h)
    rw [Nat.zero_add] at inv
    exact ⟨g, e, inv.vfrac, inv.sourceRowPos, inv.destPos⟩
  · have hrun := computeColumns_registers (oh := oh) (h := h) hw c 0 (ow * (k * oh / h)) (k * w) r (by omega)
      (rowStart_add_lt how hoh hsrc hk) ((row_add_le hk hc).trans hdst)
    simpa using hrun

/-- R158, R163: a row computed afresh holds the closed form, whatever row the loop came from. -/
theorem computeRow_eq (how : 0 < ow) (hoh : 0 < oh) (hw : 0 < w) (hsrc : ow * oh ≤ p.maxPixels)
    (hdst : w * h ≤ p.maxPixels) {row : Nat} {g : RowRegs} (hrow : row < h) (inv : RowInv p r0 ow oh w h row g) :
    ∃ g', computeRow p w (precompute ow oh w h) g = .ok g' ∧
      g'.vfrac = g.vfrac ∧ g'.sourceRowPos = g.sourceRowPos ∧ g'.destPos = (row + 1) * w ∧
      g'.lastRowPos = (g.sourceRowPos : Int) ∧
      g'.rs = r0.withDst (Memory.writeRun (r0.sample p ow oh w h) 0 ((row + 1) * w) r0.dst) := by
  obtain ⟨c, e, hrs, hdest⟩ := computeColumns_eq p ow w (precompute ow oh w h) hw rfl rfl w 0 g.sourceRowPos g.destPos
    g.rs (by omega) (by rw [inv.sourceRowPos]; exact rowStart_add_lt how hoh hsrc hrow)
    (by rw [inv.destPos]; exact (row_add_le hrow le_rfl).trans hdst)
  simp only [Nat.zero_mul, Nat.zero_mod, Nat.zero_div, Nat.add_zero, Nat.zero_add] at e hrs
  rw [computeRow, e]
  refine ⟨_, rfl, rfl, rfl, ?_, rfl, ?_⟩
  · rw [hdest, inv.destPos, Nat.succ_mul]
  · have hsplit := Memory.writeRun_add (r0.sample p ow oh w h) 0 (row * w) w r0.dst
    rw [Nat.zero_add] at hsplit
    simp only [hrs, inv.rs, Resampler.withDst_dst, Resampler.withDst_withDst, inv.destPos, Nat.succ_mul, hsplit]
    congr 1
    refine Memory.writeRun_congr fun k hk => ?_
    rw [Resampler.withDst_srcPixel, Resampler.sample, sampleIndex, div_row hk, mod_row hk, inv.sourceRowPos,
      Nat.mul_comm ow]

/-- The loop that computes every row keeps the invariant of the row loop (R163, R167). -/
theorem recomputeRows_eq (how : 0 < ow) (hoh : 0 < oh) (hw : 0 < w) (hsrc : ow * oh ≤ p.maxPixels)
    (hdst : w * h ≤ p.maxPixels) (n row : Nat) (g : RowRegs) (hn : row + n ≤ h) (inv : RowInv p r0 ow oh w h row g) :
    ∃ g', recomputeRows p ow w h (precompute ow oh w h) n g = .ok g' ∧ RowInv p r0 ow oh w h (row + n) g' := by
  induction n generalizing row g with
  | zero => exact ⟨g, rfl, inv⟩
  | succ n ih =>
    obtain ⟨g', e, hvfrac, hpos, hdest, hlast, hrs⟩ := computeRow_eq how hoh hw hsrc hdst (by omega) inv
    obtain ⟨g'', e', inv'⟩ := ih (row + 1) _ (by omega) (inv.advance (by omega) hvfrac hpos hdest hlast hrs)
    exact ⟨g'', by rw [recomputeRows, e]; exact e', by rwa [Nat.add_right_comm] at inv'⟩

end Loops

/-- Settles O39: both loops end with the closed form in `DST`, by the same invariant. -/
theorem rowReuseIsInvisible : Obligations.RowReuseIsInvisible := by
  unfold Obligations.RowReuseIsInvisible
  intro p r ow oh w h how hoh hw _ hsrc hdst
  obtain ⟨g, e, inv⟩ := resizeRows_eq how hoh hw hsrc hdst h 0 _ (by omega) (RowInv.init p r ow oh w h)
  obtain ⟨g', e', inv'⟩ := recomputeRows_eq how hoh hw hsrc hdst h 0 _ (by omega) (RowInv.init p r ow oh w h)
  rw [resizeGeneral, resizeRecomputing, e, e']
  simp only [inv.rs, inv'.rs]

/-- R161: the general path leaves `DST` beyond the output alone. -/
theorem dstPixel_resized_of_le {p : Params} {r : Resampler} {ow oh w h i : Nat} (hi : w * h ≤ i) :
    (r.resized p ow oh w h).dstPixel p i = r.dstPixel p i := by
  have hget : Memory.get? (r.resized p ow oh w h).dst i = Memory.get? r.dst i := by
    rw [Resampler.resized, Memory.get?_writeRun, if_neg (by omega)]
  rw [Resampler.dstPixel, Resampler.dstPixel, Memory.read, Memory.read, hget]
  rfl

/-- Settles O41: of the three ways the command can end, only the general path touches a memory, and only `DST` below the
size of the output. -/
theorem resizeFrameHolds : Obligations.ResizeFrameHolds := by
  unfold Obligations.ResizeFrameHolds
  intro ow oh w h s t hs he
  obtain ⟨c, -, rfl⟩ | ⟨-, -, -, rfl⟩ | ⟨hv, hid, rfl⟩ := exec_resize_loaded_cases hs he
  · exact ⟨rfl, rfl, rfl, rfl, rfl, List.prefix_append _ _, rfl, rfl, fun _ => rfl, fun _ _ => rfl, fun _ => ⟨rfl, rfl⟩⟩
  · exact ⟨rfl, rfl, rfl, rfl, rfl, List.prefix_append _ _, rfl, rfl, fun _ => rfl, fun _ _ => rfl, fun _ => ⟨rfl, rfl⟩⟩
  · obtain ⟨-, -, hw, hh, -, -⟩ := validate_eq_none_iff.1 hv
    refine ⟨rfl, rfl, rfl, rfl, rfl, List.prefix_append _ _, rfl, rfl, fun _ => rfl, fun i hi => ?_, fun hor => ?_⟩
    · refine dstPixel_resized_of_le ?_
      rw [← Int.toNat_mul hw.le hh.le]
      omega
    · exact absurd hor (not_or.2 ⟨hid, not_not.2 rfl⟩)

end Sys2Proof.Proofs
end

section
/-! Proofs that the two units share nothing (spec/00_scope.md, spec/20_memory.md section 6). -/

namespace Sys2Proof.Proofs

open Sys2Proof Sys2Proof.Machine

/-- `RS.RESIZE` on valid dimensions that are not the identity, where the general path ends (R150). -/
theorem exec_resize_of_general {ow oh w h : Int} {s : State} {r : Resampler} (hv : validate ow oh w h s = none)
    (hid : ¬ (ow = w ∧ oh = h))
    (hr : resizeGeneral s.params ow.toNat oh.toNat w.toNat h.toNat s.rs = .ok r) :
    exec (.rsResize ow oh w h) s = .next ((s.setRs r).complete .ok) := by
  simp [exec, execRsResize, hv, dimsIdentical, hid, hr]

/-- R2, R150: `RS.RESIZE` sets the Resampler and delivers a record, both determined by the parameters and the
Resampler. -/
theorem exec_resize_effect {ow oh w h : Int} {s t : State} (he : exec (.rsResize ow oh w h) s = .next t) :
    ∃ r c, t = (s.setRs r).complete c ∧ ∀ s' : State, s'.params = s.params → s'.rs = s.rs →
      exec (.rsResize ow oh w h) s' = .next ((s'.setRs r).complete c) := by
  have hvalidate (s' : State) (hp : s'.params = s.params) (hr : s'.rs = s.rs) :
      validate ow oh w h s' = validate ow oh w h s := by rw [validate, validate, hp, hr]
  obtain ⟨c, hv, rfl⟩ | ⟨hv, rfl, rfl, rfl⟩ | ⟨hv, hid, r, hr, rfl⟩ := exec_resize_cases he
  · refine ⟨s.rs, c, rfl, fun s' hp hrs => ?_⟩
    rw [exec_of_validate ((hvalidate s' hp hrs).trans hv), ← hrs]
    rfl
  · refine ⟨_, .ok, rfl, fun s' hp hrs => ?_⟩
    rw [exec_resize_identity ((hvalidate s' hp hrs).trans hv), hrs]
  · exact ⟨r, .ok, rfl, fun s' hp hrs =>
      exec_resize_of_general ((hvalidate s' hp hrs).trans hv) hid (by rw [hp, hrs, hr])⟩

/-- Settles O42: a BP command commutes with a change of the Resampler, and `RS.RESIZE` is determined by what it reads. -/
theorem unitsShareNoState : Obligations.UnitsShareNoState := by
  unfold Obligations.UnitsShareNoState
  refine ⟨fun i s t r hi he => ⟨(exec_packer_frame hi he).1.rs, (blind_setRs r).exec hi he⟩, fun i s t b k hi he => ?_⟩
  cases i with
  | bpWritebit | bpWrite | bpFlush => cases hi
  | rsResize =>
    obtain ⟨r, c, rfl, heffect⟩ := exec_resize_effect he
    exact ⟨rfl, rfl, heffect _ rfl rfl⟩

/-- A run of two commands that answers a next state is one command and then the other. -/
theorem runInstrs_pair_iff {i j : Instr} {s t : State} :
    runInstrs [i, j] s = .next t ↔ ∃ u, exec i s = .next u ∧ exec j u = .next t := by
  constructor
  · intro h
    obtain ⟨u, hi, hj⟩ := runInstrs_append_next (is := [i]) (js := [j]) h
    rw [runInstrs_singleton] at hi hj
    exact ⟨u, hi, hj⟩
  · rintro ⟨u, hi, hj⟩
    rw [runInstrs, hi]
    exact (runInstrs_singleton j u).trans hj

/-- A BP command and then an `RS.RESIZE` can be swapped (R2). -/
theorem packer_resize_commute {i : Instr} (hi : i.isPacker = true) {ow oh w h : Int} {s t : State}
    (he : runInstrs [i, .rsResize ow oh w h] s = .next t) :
    ∃ t', runInstrs [.rsResize ow oh w h, i] s = .next t' ∧ t'.silent = t.silent := by
  obtain ⟨u, hu, ht⟩ := runInstrs_pair_iff.1 he
  obtain ⟨hframe, -⟩ := exec_packer_frame hi hu
  obtain ⟨r, c, rfl, heffect⟩ := exec_resize_effect ht
  have hresize := heffect s hframe.params.symm hframe.rs.symm
  obtain ⟨t', ht', hsilent⟩ := exec_packer_silent (s' := (s.setRs r).complete c) hi ((blind_setRs r).exec hi hu) rfl
  exact ⟨t', runInstrs_pair_iff.2 ⟨_, hresize, ht'⟩, hsilent⟩

/-- An `RS.RESIZE` and then a BP command can be swapped (R2). -/
theorem resize_packer_commute {i : Instr} (hi : i.isPacker = true) {ow oh w h : Int} {s t : State}
    (he : runInstrs [.rsResize ow oh w h, i] s = .next t) :
    ∃ t', runInstrs [i, .rsResize ow oh w h] s = .next t' ∧ t'.silent = t.silent := by
  obtain ⟨u, hu, ht⟩ := runInstrs_pair_iff.1 he
  obtain ⟨r, c, rfl, heffect⟩ := exec_resize_effect hu
  obtain ⟨t', ht', hsilent⟩ := exec_packer_silent (s' := s.setRs r) hi ht rfl
  obtain ⟨v, hv, rfl⟩ := (blind_setRs r).exec_inv hi ht'
  obtain ⟨hframe, -⟩ := exec_packer_frame hi hv
  exact ⟨_, runInstrs_pair_iff.2 ⟨v, hv, heffect v hframe.params hframe.rs⟩, hsilent⟩

/-- Settles O43: either order is the packer's command under a change of the Resampler, up to the records. -/
theorem unitsCommute : Obligations.UnitsCommute := by
  unfold Obligations.UnitsCommute
  intro i j s t hne he _
  cases hi : i.isPacker with
  | true =>
    cases j with
    | rsResize => exact packer_resize_commute hi he
    | bpWritebit | bpWrite | bpFlush => exact absurd hi hne
  | false =>
    cases i with
    | rsResize => exact resize_packer_commute (Bool.eq_true_of_not_eq_false (Ne.symm hne)) he
    | bpWritebit | bpWrite | bpFlush => cases hi

end Sys2Proof.Proofs
end

section
/-! Proofs about the host's loads, pixel writes and reads of the result (spec/20_memory.md section 6). -/

namespace Sys2Proof.Proofs

open Sys2Proof Sys2Proof.Machine

/-- What `SRC` reads as after `HostLoadSource` (R80). -/
theorem srcPixel_ofList {p : Params} {r : Resampler} {pixels : List Pixel} (hr : r.src = Memory.ofList 0 pixels) {i : Nat}
    (hi : i < pixels.length) : r.srcPixel p i = pixels[i] := by
  refine Memory.read_of_get? ?_
  rw [hr, Memory.get?_ofList, if_pos (Nat.zero_le i), Nat.sub_zero, List.getElem?_eq_getElem hi]

/-- Settles O44: a load that fits makes `SRC` list exactly the sequence, and the other cases are refused. -/
theorem hostLoadReplacesTheSource : Obligations.HostLoadReplacesTheSource := by
  unfold Obligations.HostLoadReplacesTheSource
  intro pixels s rest hin hb
  rw [step_of_inputs hin hb, runMove]
  obtain ⟨hlen, -, e⟩ | ⟨hlen, ⟨v, hmem, hwide⟩, -⟩ | ⟨hlen, e⟩ := hostLoadSource_cases pixels (s.dequeue rest)
  · refine ⟨fun _ _ => ⟨_, e, rfl, fun i => srcPixel_ofList rfl, ?_⟩, fun hlong => absurd hlen (not_le.2 hlong)⟩
    exact ⟨rfl, rfl, rfl, rfl, rfl, rfl, rfl, rfl, fun _ => rfl⟩
  · exact ⟨fun _ hfits => absurd (hfits v hmem) (not_lt.2 hwide), fun hlong => absurd hlen (not_le.2 hlong)⟩
  · exact ⟨fun hshort => absurd hlen (not_lt.2 hshort), fun _ => e⟩

/-- Settles O52: the three outcomes of the move, of which the one that answers writes one element. -/
theorem hostWritesOneSourcePixel : Obligations.HostWritesOneSourcePixel := by
  unfold Obligations.HostWritesOneSourcePixel
  intro index value s rest hin hb
  rw [step_of_inputs hin hb, runMove]
  obtain ⟨hin', hfits, e⟩ | ⟨hin', hwide, e⟩ | ⟨hout, e⟩ := hostWriteSourcePixel_cases index value (s.dequeue rest)
  · refine ⟨fun _ _ => ⟨_, e, ?_, fun i hi => ?_, ?_⟩, fun hout => absurd hin' (not_lt.2 hout),
      fun _ hwide => absurd hfits (not_lt.2 hwide)⟩
    · exact (srcPixel_write ..).trans (if_pos rfl)
    · exact (srcPixel_write ..).trans (if_neg hi)
    · exact ⟨rfl, rfl, rfl, fun _ => rfl, rfl, rfl, rfl, rfl, rfl, rfl⟩
  · exact ⟨fun _ hfits => absurd hfits (not_lt.2 hwide), fun hout => absurd hin' (not_lt.2 hout), fun _ _ => e⟩
  · exact ⟨fun hin' => absurd hin' (not_lt.2 hout), fun _ => e, fun hin' => absurd hin' (not_lt.2 hout)⟩

/-- The pixels that `HostReadResult` answers (R80). -/
def namedPixels (s : State) : List Pixel :=
  match s.rs.resultSel with
  | .none => []
  | .src => (List.range s.rs.resultLen).map (s.rs.srcPixel s.params)
  | .dst => (List.range s.rs.resultLen).map (s.rs.dstPixel s.params)

/-- R80: a result inside its memory is read without a fault. -/
theorem hostReadResult_eq {s : State} (hl : s.rs.resultLen ≤ s.params.maxPixels) :
    hostReadResult s = .next (s.setHostPort { s.hostPort with
      outputs := s.hostPort.outputs ++ [.result s.rs.resultSel s.rs.resultLen (namedPixels s)] }) := by
  unfold namedPixels
  cases hsel : s.rs.resultSel with
  | none => exact hostReadResult_none hsel
  | src => exact hostReadResult_src hsel hl
  | dst => exact hostReadResult_dst hsel hl

/-- Settles O53: the invariant keeps the result inside its memory, so the read answers `namedPixels`. -/
theorem readResultReturnsTheNamedMemory : Obligations.ReadResultReturnsTheNamedMemory := by
  unfold Obligations.ReadResultReturnsTheNamedMemory
  intro s rest hin hb hinv
  refine ⟨namedPixels s, ?_, fun hsel => ?_, fun hsel => ?_, fun hsel => ?_⟩
  · rw [step_of_inputs hin hb]
    exact hostReadResult_eq (s := s.dequeue rest) hinv.resultLen_le
  · exact ⟨by rw [namedPixels, hsel], hinv.result_none hsel⟩
  · rw [namedPixels, hsel]
  · rw [namedPixels, hsel]

/-- Writing one element changes a listing of elements at that place. -/
theorem map_range_set {f g : Nat → Pixel} {index : Nat} {value : Pixel} (n : Nat)
    (h : ∀ k, g k = if k = index then value else f k) :
    (List.range n).map g = ((List.range n).map f).set index value := by
  apply List.ext_getElem
  · simp
  · intro k hk _
    simp only [List.getElem_map, List.getElem_range, List.getElem_set, h, eq_comm]

/-- Settles O45: both reads list `SRC`, which the write changes at one element. -/
theorem sourceWriteShowsThroughTheAlias : Obligations.SourceWriteShowsThroughTheAlias := by
  unfold Obligations.SourceWriteShowsThroughTheAlias
  intro s index value hinv hsel hindex hvalue
  obtain ⟨-, -, e⟩ | ⟨-, hwide, -⟩ | ⟨hout, -⟩ := hostWriteSourcePixel_cases index value s
  · refine ⟨_, _, _, _, _, e, hostReadResult_src hsel hinv.resultLen_le,
      hostReadResult_src (s := s.setRs _) hsel hinv.resultLen_le, rfl, rfl, by simp, ?_⟩
    exact map_range_set _ fun k => srcPixel_write ..
  · exact absurd hvalue (not_lt.2 hwide)
  · exact absurd hindex (not_lt.2 hout)

/-- R161: on unchanged dimensions the closed form is the source itself. -/
theorem sampleIndex_identity {w h r c : Nat} (hr : r < h) (hc : c < w) : sampleIndex w h w h r c = r * w + c := by
  rw [sampleIndex, Nat.mul_div_cancel _ (by omega), Nat.mul_div_cancel _ (by omega)]

/-- The element of a listing at row `r` and column `c`. -/
theorem getElem?_map_range_row {f : Nat → Pixel} {w h r c : Nat} (hr : r < h) (hc : c < w) :
    ((List.range (w * h)).map f)[r * w + c]? = some (f (r * w + c)) := by
  rw [List.getElem?_map, List.getElem?_range (row_col_lt hr hc), Option.map_some]

/-- Settles O46: the identity path names `SRC`, whose element is the closed form; the general path names `DST`. -/
theorem readResultReturnsTheResizedImage : Obligations.ReadResultReturnsTheResizedImage := by
  unfold Obligations.ReadResultReturnsTheResizedImage
  intro ow oh w h s t how hoh hw hh hlen hfits hs he
  have hv := validate_natCast how hoh hw hh hlen hfits
  by_cases hid : ow = w ∧ oh = h
  · obtain ⟨rfl, rfl⟩ := hid
    rw [exec_resize_identity hv] at he
    cases he
    rw [hostReadResult_src rfl hs, State.complete_rs, State.setRs_rs, ← hlen]
    refine ⟨.src, _, rfl, by simp, by simp, by simp, fun r c hr hc => ?_⟩
    rw [getElem?_map_range_row hr hc, sampleIndex_identity hr hc]
    rfl
  · rw [exec_resize_resized how hoh hw hh hlen hfits hs hid] at he
    cases he
    rw [hostReadResult_dst rfl hfits]
    refine ⟨.dst, _, rfl, by simp [Resampler.resized], by simp [hid], by simp [hid], fun r c hr hc => ?_⟩
    rw [← dstPixel_resized_row hr hc]
    exact getElem?_map_range_row hr hc

end Sys2Proof.Proofs
end

section
/-! Proofs about what every step changes (spec/10_state.md, spec/20_memory.md sections 1 and 3). -/

namespace Sys2Proof.Proofs

open Sys2Proof Sys2Proof.Machine

/-- `r'` has the source buffer of `r`. -/
def SameSource (r r' : Resampler) : Prop := r'.src = r.src ∧ r'.srcLen = r.srcLen

theorem SameSource.trans {r r' r'' : Resampler} (h : SameSource r r') (h' : SameSource r' r'') : SameSource r r'' :=
  ⟨h'.1.trans h.1, h'.2.trans h.2⟩

theorem writeDst_sameSource {p : Params} {r r' : Resampler} {i : Nat} {v : Pixel} (e : writeDst p r i v = .ok r') :
    SameSource r r' := by
  unfold writeDst at e
  split at e <;> cases e
  exact ⟨rfl, rfl⟩

theorem copyElements_sameSource {p : Params} {n src dst : Nat} {r r' : Resampler}
    (e : copyElements p n src dst r = .ok r') : SameSource r r' := by
  induction n generalizing src dst r with
  | zero =>
    cases e
    exact ⟨rfl, rfl⟩
  | succ n ih =>
    rw [copyElements] at e
    split at e
    · cases e
    · split at e
      · cases e
      · rename_i hw
        exact (writeDst_sameSource hw).trans (ih e)

theorem advanceColumn_rs (w : Nat) (steps : ResizeSteps) (g : ColRegs) : (advanceColumn w steps g).rs = g.rs := by
  simp only [advanceColumn]
  split <;> rfl

theorem computeColumns_sameSource {p : Params} {w n : Nat} {steps : ResizeSteps} {g g' : ColRegs}
    (e : computeColumns p w steps n g = .ok g') : SameSource g.rs g'.rs := by
  induction n generalizing g with
  | zero =>
    cases e
    exact ⟨rfl, rfl⟩
  | succ n ih =>
    rw [computeColumns] at e
    split at e
    · cases e
    · split at e
      · cases e
      · rename_i hw
        have hrest := ih e
        rw [advanceColumn_rs] at hrest
        exact (writeDst_sameSource hw).trans hrest

theorem produceRow_sameSource {p : Params} {w row : Nat} {steps : ResizeSteps} {g g' : RowRegs}
    (e : produceRow p w steps row g = .ok g') : SameSource g.rs g'.rs := by
  unfold produceRow copyPrevRow computeRow at e
  split at e <;> split at e <;> cases e
  · rename_i hcopy
    exact copyElements_sameSource hcopy
  · rename_i hcompute
    exact computeColumns_sameSource hcompute

theorem advanceVertical_rs (ow h : Nat) (steps : ResizeSteps) (g : RowRegs) :
    (advanceVertical ow h steps g).rs = g.rs := by
  simp only [advanceVertical]
  split <;> rfl

theorem resizeRows_sameSource {p : Params} {ow w h n row : Nat} {steps : ResizeSteps} {g g' : RowRegs}
    (e : resizeRows p ow w h steps n row g = .ok g') : SameSource g.rs g'.rs := by
  induction n generalizing row g with
  | zero =>
    cases e
    exact ⟨rfl, rfl⟩
  | succ n ih =>
    rw [resizeRows] at e
    split at e
    · cases e
    · rename_i hrow
      have hrest := ih e
      rw [advanceVertical_rs] at hrest
      exact (produceRow_sameSource hrow).trans hrest

/-- R150: the general path writes neither `SRC` nor `srcLen`, for every Resampler and all dimensions. -/
theorem resizeGeneral_sameSource {p : Params} {ow oh w h : Nat} {r r' : Resampler}
    (e : resizeGeneral p ow oh w h r = .ok r') : SameSource r r' := by
  unfold resizeGeneral at e
  split at e <;> cases e
  rename_i hrows
  exact resizeRows_sameSource hrows

/-- What every step but a `HostReset` keeps or only extends (R6, R20, R26, R69). -/
structure StepFrame (s t : State) : Prop where
  params : t.params = s.params
  sink : t.bp.sink = s.bp.sink
  log : s.sinkPort.log <+: t.sinkPort.log
  stream : s.sinkPort.stream <+: t.sinkPort.stream

theorem stepFrame_of_eq {s t : State} (hp : t.params = s.params) (hbp : t.bp = s.bp) (hsink : t.sinkPort = s.sinkPort) :
    StepFrame s t := by
  refine ⟨hp, by rw [hbp], ?_, ?_⟩ <;> rw [hsink]

/-- No command changes the parameters, the sink binding or the source buffer, and none takes anything back from
`sinkLog`. -/
theorem exec_stepFrame {i : Instr} {s t : State} (h : exec i s = .next t) : StepFrame s t ∧ SameSource s.rs t.rs := by
  cases i with
  | rsResize =>
    obtain ⟨_, -, rfl⟩ | ⟨-, -, -, rfl⟩ | ⟨-, -, r, hr, rfl⟩ := exec_resize_cases h
    · exact ⟨stepFrame_of_eq rfl rfl rfl, rfl, rfl⟩
    · exact ⟨stepFrame_of_eq rfl rfl rfl, rfl, rfl⟩
    · exact ⟨stepFrame_of_eq rfl rfl rfl, resizeGeneral_sameSource hr⟩
  | bpWritebit | bpWrite | bpFlush =>
    obtain ⟨hframe, hstream⟩ := exec_packer_frame rfl h
    exact ⟨⟨hframe.params, hframe.sink, hframe.log, hstream⟩, by rw [hframe.rs]; exact ⟨rfl, rfl⟩⟩

theorem runPacket_stepFrame {packet : List Word} {s t : State} (h : runPacket packet s = .next t) :
    StepFrame s t ∧ SameSource s.rs t.rs := by
  cases hd : decode packet with
  | ok i =>
    rw [runPacket, hd] at h
    exact exec_stepFrame h
  | error e =>
    rw [runPacket_of_decode_error hd] at h
    cases h
    exact ⟨stepFrame_of_eq rfl rfl rfl, rfl, rfl⟩

theorem runMove_stepFrame {m : HostMove} {s t : State} (hm : m ≠ .reset) (h : runMove m s = .next t) :
    StepFrame s t := by
  cases m with
  | command packet => exact (runPacket_stepFrame h).1
  | reset => exact absurd rfl hm
  | loadSource pixels =>
    rw [runMove] at h
    obtain ⟨-, -, e⟩ | ⟨-, -, e⟩ | ⟨-, e⟩ := hostLoadSource_cases pixels s <;> rw [e] at h <;> cases h
    exact stepFrame_of_eq rfl rfl rfl
  | writeSourcePixel index value =>
    rw [runMove] at h
    obtain ⟨-, -, e⟩ | ⟨-, -, e⟩ | ⟨-, e⟩ := hostWriteSourcePixel_cases index value s <;> rw [e] at h <;> cases h
    exact stepFrame_of_eq rfl rfl rfl
  | readResult =>
    obtain ⟨_, rfl⟩ := hostReadResult_next h
    exact stepFrame_of_eq rfl rfl rfl

/-- Every step is framed or takes a `HostReset`. -/
theorem step_stepFrame {s t : State} (h : step s = .next t) :
    StepFrame s t ∨ ∃ rest, s.hostPort.inputs = .reset :: rest := by
  obtain rfl | ⟨m, rest, hin, -, hrun⟩ := step_cases h
  · exact .inl (stepFrame_of_eq rfl rfl rfl)
  · by_cases hm : m = .reset
    · exact .inr ⟨rest, hm ▸ hin⟩
    · obtain ⟨hp, hsink, hlog, hstream⟩ := runMove_stepFrame hm hrun
      exact .inl ⟨hp, hsink, hlog, hstream⟩

/-- Settles O49: every framed step keeps both, and a `HostReset` binds the sink of the next epoch. -/
theorem sinkBindingChangesOnlyAtReset : Obligations.SinkBindingChangesOnlyAtReset := by
  unfold Obligations.SinkBindingChangesOnlyAtReset
  intro s t h
  obtain hframe | ⟨rest, hin⟩ := step_stepFrame h
  · exact ⟨hframe.params, .inl hframe.sink⟩
  · obtain ⟨hbp, -, -⟩ := step_reset_packer hin h
    rw [step_of_inputs_reset hin] at h
    exact ⟨by cases h; rfl, .inr ⟨rest, hin, by rw [hbp]; rfl⟩⟩

/-- Settles O51: every framed step only extends the log, and a `HostReset` empties it. -/
theorem sinkLogOnlyGrows : Obligations.SinkLogOnlyGrows := by
  unfold Obligations.SinkLogOnlyGrows
  intro s t h
  obtain hframe | ⟨rest, hin⟩ := step_stepFrame h
  · exact .inl ⟨hframe.log, hframe.stream⟩
  · obtain ⟨-, hlog, -⟩ := step_reset_packer hin h
    exact .inr ⟨rest, hin, hlog⟩

/-- Settles O50: of the moves that are none of the three, commands have `SameSource` and a read changes only the record. -/
theorem onlyTheHostWritesTheSource : Obligations.OnlyTheHostWritesTheSource := by
  unfold Obligations.OnlyTheHostWritesTheSource
  intro s t h
  obtain rfl | ⟨m, rest, hin, -, hrun⟩ := step_cases h
  · exact .inl ⟨rfl, rfl⟩
  · cases m with
    | command packet => exact .inl (runPacket_stepFrame hrun).2
    | loadSource pixels => exact .inr ⟨rest, .inl ⟨pixels, hin⟩⟩
    | writeSourcePixel index value => exact .inr ⟨rest, .inr (.inl ⟨index, value, hin⟩)⟩
    | readResult =>
      obtain ⟨_, rfl⟩ := hostReadResult_next hrun
      exact .inl ⟨rfl, rfl⟩
    | reset => exact .inr ⟨rest, .inr (.inr hin)⟩

end Sys2Proof.Proofs
end

section
/-! Proofs about the machine's invariant: it holds after a reset, every step keeps it, and from a state that meets it no
step faults (spec/10_state.md, spec/20_memory.md section 4, spec/40_bitpacker.md section 3). -/

namespace Sys2Proof.Proofs

open Sys2Proof Sys2Proof.Machine

theorem bitPacker_afterReset_inv (epoch : Nat) : (BitPacker.afterReset epoch).Inv := BitPacker.Inv.of_nil rfl

theorem below_nil {α : Type} (n : Nat) : Memory.below n ([] : Memory α) := fun _ hc => absurd hc List.not_mem_nil

/-- R40: just after a reset the Resampler's memories list nothing and all lengths are 0. -/
theorem resampler_afterReset_inv (p : Params) (srcEpoch dstEpoch : Nat) :
    (Resampler.afterReset srcEpoch dstEpoch).Inv p where
  src_wf := rfl
  dst_wf := rfl
  src_below := below_nil _
  dst_below := below_nil _
  src_pixels _ hc := absurd hc List.not_mem_nil
  dst_pixels _ hc := absurd hc List.not_mem_nil
  srcLen_le := Nat.zero_le _
  dstLen_le := Nat.zero_le _
  resultLen_le := Nat.zero_le _
  src_listed := Memory.listed_zero _
  dst_listed := Memory.listed_zero _
  result_dst hsel := by cases hsel
  result_none _ := rfl

/-- R40, R230: a state with both units just after their reset meets the invariant. -/
theorem inv_of_afterReset {s : State} {epoch srcEpoch dstEpoch : Nat} (hp : s.params.Inv)
    (hbp : s.bp = BitPacker.afterReset epoch) (hrs : s.rs = Resampler.afterReset srcEpoch dstEpoch) : s.Inv where
  params := hp
  bp := hbp ▸ bitPacker_afterReset_inv epoch
  rs := hrs ▸ resampler_afterReset_inv _ srcEpoch dstEpoch
  atRest _ _ := hbp ▸ (bitPacker_afterReset_empty epoch).atRest

/-- R6, log 1: the free parameters are admissible. -/
theorem config_params_inv : ({ pixW := Config.pixW, maxPixels := Config.maxPixels } : Params).Inv where
  pixW_pos := Nat.succ_pos _
  maxPixels_pos := Nat.succ_pos _
  maxPixels_lt := by
    have := Config.maxPixelsLessOne.isLt
    simp only [Config.maxPixels]
    omega

/-- Settles O2: both units are just after their reset, for any parameters and for those of `Config`. -/
theorem resetMeetsTheInvariant : Obligations.ResetMeetsTheInvariant := by
  unfold Obligations.ResetMeetsTheInvariant
  exact ⟨fun p hp => inv_of_afterReset hp rfl rfl, inv_of_afterReset config_params_inv rfl rfl⟩

/-- With the BitPacker unchanged, only the Resampler's invariant is to be shown. -/
theorem inv_of_rs {s t : State} (h : s.Inv) (hp : t.params = s.params) (hbp : t.bp = s.bp)
    (hb : t.hostPort.blocked = s.hostPort.blocked) (hrs : t.rs.Inv s.params) : t.Inv where
  params := hp ▸ h.params
  bp := hbp ▸ h.bp
  rs := hp ▸ hrs
  atRest hf hblocked := by
    rw [hbp] at hf ⊢
    exact h.atRest hf (hb ▸ hblocked)

/-- What the invariant looks at: the parameters, the units, and whether a command waits. -/
theorem inv_of_same {s t : State} (h : s.Inv) (hp : t.params = s.params) (hbp : t.bp = s.bp) (hrs : t.rs = s.rs)
    (hb : t.hostPort.blocked = s.hostPort.blocked) : t.Inv :=
  inv_of_rs h hp hbp hb (hrs ▸ h.rs)

/-- With the Resampler unchanged and the BitPacker at rest, the buffer's invariant is to be shown. -/
theorem inv_of_bp {s t : State} (h : s.Inv) (hp : t.params = s.params) (hrs : t.rs = s.rs) (hbp : t.bp.Inv)
    (hrest : t.bp.bpFault = false → t.hostPort.blocked = false → t.bp.AtRest) : t.Inv where
  params := hp ▸ h.params
  bp := hbp
  rs := by rw [hp, hrs]; exact h.rs
  atRest := hrest

/-- R21, R60, R134: a BP command from rest keeps the invariant; where the sink stopped it, the packer is faulted or the
command waits. -/
theorem inv_of_packerRun {i : Instr} {s t : State} (h : s.Inv) (hrest : s.bp.AtRest) (hrun : PackerRun i s t) :
    t.Inv := by
  cases hrun with
  | rejected | idle => exact inv_of_same h rfl rfl rfl rfl
  | wrote _ done _ => exact inv_of_bp h done.frame.params done.frame.rs (done.inv h.bp) fun _ _ => done.atRest
  | sent =>
    have hcommit := h.bp.commit hrest.position_le
    exact inv_of_bp h rfl rfl ⟨hcommit.wf, hcommit.below⟩ fun _ _ => (State.flushed_empty s).atRest
  | stopped hint =>
    cases hint with
    | failed frame fault _ _ emptied =>
      exact inv_of_bp h frame.params frame.rs (.of_nil emptied) fun hf => absurd (hf.symm.trans fault) (by decide)
    | waiting frame _ record _ buffer =>
      refine inv_of_bp h frame.params frame.rs (buffer h.bp) fun _ hb => ?_
      rw [record] at hb
      cases hb

/-- R41: a read of `SRC` gives a pixel, listed or not. -/
theorem srcPixel_lt {p : Params} {r : Resampler} (h : r.Inv p) (i : Nat) : r.srcPixel p i < 2 ^ p.pixW := by
  rw [Resampler.srcPixel, Memory.read]
  cases hget : Memory.get? r.src i with
  | some v => exact h.src_pixels _ (Memory.mem_of_get? hget)
  | none => exact Nat.mod_lt _ (Nat.two_pow_pos _)

/-- R160: the general path keeps the Resampler's invariant. -/
theorem resized_keeps_inv {p : Params} {r : Resampler} {ow oh w h : Nat} (hinv : r.Inv p)
    (hfits : w * h ≤ p.maxPixels) : (r.resized p ow oh w h).Inv p where
  src_wf := hinv.src_wf
  dst_wf := Memory.wf_writeRun _ _ _ hinv.dst_wf
  src_below := hinv.src_below
  dst_below := Memory.below_writeRun _ hinv.dst_below (by omega)
  src_pixels := hinv.src_pixels
  dst_pixels c hc := by
    obtain ⟨k, -, hk⟩ | hc := Memory.mem_writeRun hc
    · rw [hk]
      exact srcPixel_lt hinv _
    · exact hinv.dst_pixels c hc
  srcLen_le := hinv.srcLen_le
  dstLen_le := hfits
  resultLen_le := hfits
  src_listed := hinv.src_listed
  dst_listed i hi := by
    have hin : 0 ≤ i ∧ i < 0 + w * h := ⟨Nat.zero_le i, by rw [Nat.zero_add]; exact hi⟩
    rw [Resampler.resized, Memory.get?_writeRun, if_pos hin]
    rfl
  result_dst _ := rfl
  result_none hsel := by cases hsel

/-- R33, R153: the identity path names the source buffer. -/
theorem identity_keeps_inv {p : Params} {r : Resampler} (hinv : r.Inv p) :
    Resampler.Inv p { r with resultSel := .src, resultLen := r.srcLen } :=
  { hinv with
    resultLen_le := hinv.srcLen_le
    result_dst := fun hsel => by cases hsel
    result_none := fun hsel => by cases hsel }

/-- R80: a load that fits, of pixels, keeps the Resampler's invariant. -/
theorem load_keeps_inv {p : Params} {r : Resampler} {pixels : List Pixel} (hinv : r.Inv p)
    (hlen : pixels.length ≤ p.maxPixels) (hpixels : ∀ v ∈ pixels, v < 2 ^ p.pixW) :
    Resampler.Inv p { r with src := Memory.ofList 0 pixels, srcLen := pixels.length, srcEpoch := r.srcEpoch + 1 } :=
  { hinv with
    src_wf := Memory.wf_ofList pixels 0
    src_below := fun c hc => by
      obtain ⟨-, hlt, -⟩ := Memory.mem_ofList hc
      omega
    src_pixels := fun c hc => hpixels _ (Memory.mem_ofList hc).2.2
    srcLen_le := hlen
    src_listed := Memory.listed_ofList pixels }

/-- R80: a pixel write inside the buffer keeps the Resampler's invariant. -/
theorem write_keeps_inv {p : Params} {r : Resampler} {index : Nat} {value : Pixel} (hinv : r.Inv p)
    (hindex : index < r.srcLen) (hvalue : value < 2 ^ p.pixW) :
    Resampler.Inv p { r with src := Memory.write r.src index value } :=
  { hinv with
    src_wf := Memory.wf_write index value hinv.src_wf
    src_below := Memory.below_write value hinv.src_below (Nat.lt_of_lt_of_le hindex hinv.srcLen_le)
    src_pixels := fun c hc => by
      obtain rfl | hc := Memory.mem_write hc
      · exact hvalue
      · exact hinv.src_pixels c hc
    src_listed := Memory.listed_write index value hinv.src_listed }

/-- R152: the output of a valid `RS.RESIZE` fits. -/
theorem validate_fits {ow oh w h : Int} {s : State} (hv : validate ow oh w h s = none) :
    w.toNat * h.toNat ≤ s.params.maxPixels := by
  obtain ⟨-, -, hw, hh, -, hfits⟩ := validate_eq_none_iff.1 hv
  rw [← Int.toNat_mul hw.le hh.le]
  omega

/-- Every command that is taken at rest keeps the invariant. -/
theorem exec_keeps_inv {i : Instr} {s t : State} (h : s.Inv) (hb : s.hostPort.blocked = false)
    (he : exec i s = .next t) : t.Inv := by
  cases i with
  | rsResize ow oh w ht =>
    obtain ⟨_, -, rfl⟩ | ⟨-, -, -, rfl⟩ | ⟨hv, -, rfl⟩ := exec_resize_loaded_cases h.rs.srcLen_le he
    · exact inv_of_same h rfl rfl rfl rfl
    · exact inv_of_rs h rfl rfl rfl (identity_keeps_inv h.rs)
    · exact inv_of_rs h rfl rfl rfl (resized_keeps_inv h.rs (validate_fits hv))
  | bpWritebit | bpWrite | bpFlush =>
    cases hf : s.bp.bpFault with
    | true =>
      rw [exec_of_bpFault rfl hf] at he
      cases he
      exact inv_of_same h rfl rfl rfl rfl
    | false =>
      have hrest := h.atRest hf hb
      exact inv_of_packerRun h hrest (packerRun_of_exec rfl hrest hf he)

/-- Every move of the host that is taken keeps the invariant. -/
theorem runMove_keeps_inv {m : HostMove} {s t : State} (h : s.Inv) (hb : s.hostPort.blocked = false ∨ m = .reset)
    (hrun : runMove m s = .next t) : t.Inv := by
  cases m with
  | command packet =>
    have hb : s.hostPort.blocked = false := hb.resolve_right (by simp)
    rw [runMove] at hrun
    cases hd : decode packet with
    | ok i =>
      rw [runPacket, hd] at hrun
      exact exec_keeps_inv h hb hrun
    | error e =>
      rw [runPacket_of_decode_error hd] at hrun
      cases hrun
      exact inv_of_same h rfl rfl rfl rfl
  | loadSource pixels =>
    rw [runMove] at hrun
    obtain ⟨hlen, hpixels, e⟩ | ⟨-, -, e⟩ | ⟨-, e⟩ := hostLoadSource_cases pixels s <;> rw [e] at hrun <;> cases hrun
    exact inv_of_rs h rfl rfl rfl (load_keeps_inv h.rs hlen hpixels)
  | writeSourcePixel index value =>
    rw [runMove] at hrun
    obtain ⟨hindex, hvalue, e⟩ | ⟨-, -, e⟩ | ⟨-, e⟩ := hostWriteSourcePixel_cases index value s <;>
      rw [e] at hrun <;> cases hrun
    exact inv_of_rs h rfl rfl rfl (write_keeps_inv h.rs hindex hvalue)
  | readResult =>
    obtain ⟨_, rfl⟩ := hostReadResult_next hrun
    exact inv_of_same h rfl rfl rfl rfl
  | reset =>
    cases hrun
    exact inv_of_afterReset h.params rfl rfl

/-- Settles O47: taking a move from the queue keeps the invariant, and so does the move. -/
theorem stepKeepsTheInvariant : Obligations.StepKeepsTheInvariant := by
  unfold Obligations.StepKeepsTheInvariant
  intro s t h hstep
  obtain rfl | ⟨m, rest, -, hb, hrun⟩ := step_cases hstep
  · exact h
  · exact runMove_keeps_inv (inv_of_same (t := s.dequeue rest) h rfl rfl rfl rfl) hb hrun

/-- From the invariant, with no command waiting, every command answers a next state (R73). -/
theorem exec_total {s : State} (h : s.Inv) (hb : s.hostPort.blocked = false) (i : Instr) :
    ∃ t, exec i s = .next t := by
  cases i with
  | rsResize ow oh w ht =>
    cases hv : validate ow oh w ht s with
    | some c => exact ⟨_, exec_of_validate hv⟩
    | none =>
      by_cases hid : ow = w ∧ oh = ht
      · obtain ⟨rfl, rfl⟩ := hid
        exact ⟨_, exec_resize_identity hv⟩
      · exact ⟨_, exec_resize_general hv hid h.rs.srcLen_le⟩
  | bpWritebit | bpWrite | bpFlush =>
    cases hf : s.bp.bpFault with
    | true => exact ⟨_, exec_of_bpFault rfl hf⟩
    | false =>
      exact (exec_packerRun rfl (h.atRest hf hb) hf).imp fun t ht => ht.1

theorem runPacket_total {s : State} (h : s.Inv) (hb : s.hostPort.blocked = false) (packet : List Word) :
    ∃ t, runPacket packet s = .next t := by
  cases hd : decode packet with
  | ok i =>
    rw [runPacket, hd]
    exact exec_total h hb i
  | error e => exact ⟨_, runPacket_of_decode_error hd s⟩

/-- A host move outside the conditions of R80: a load or a pixel write with no meaning in the spec. -/
def HostMisuse (s : State) : HostMove → Prop
  | .loadSource pixels => s.params.maxPixels < pixels.length ∨ ∃ v ∈ pixels, 2 ^ s.params.pixW ≤ v
  | .writeSourcePixel index value => s.rs.srcLen ≤ index ∨ 2 ^ s.params.pixW ≤ value
  | _ => False

/-- From the invariant, a move that is taken answers a next state or is misuse, which is refused (R73, R80). -/
theorem runMove_total_or_misuse {m : HostMove} {s : State} (h : s.Inv) (hb : s.hostPort.blocked = false ∨ m = .reset) :
    (∃ t, runMove m s = .next t) ∨ ((∃ r, runMove m s = .refused r) ∧ HostMisuse s m) := by
  cases m with
  | command packet => exact .inl (runPacket_total h (hb.resolve_right (by simp)) packet)
  | loadSource pixels =>
    obtain ⟨-, -, e⟩ | ⟨-, hwide, e⟩ | ⟨hlong, e⟩ := hostLoadSource_cases pixels s
    · exact .inl ⟨_, e⟩
    · exact .inr ⟨⟨_, e⟩, .inr hwide⟩
    · exact .inr ⟨⟨_, e⟩, .inl hlong⟩
  | writeSourcePixel index value =>
    obtain ⟨-, -, e⟩ | ⟨-, hwide, e⟩ | ⟨hout, e⟩ := hostWriteSourcePixel_cases index value s
    · exact .inl ⟨_, e⟩
    · exact .inr ⟨⟨_, e⟩, .inr hwide⟩
    · exact .inr ⟨⟨_, e⟩, .inl hout⟩
  | readResult => exact .inl ⟨_, hostReadResult_eq h.rs.resultLen_le⟩
  | reset => exact .inl ⟨_, rfl⟩

/-- From the invariant, a step answers a next state, or refuses misuse by the host. -/
theorem step_total_or_misuse {s : State} (h : s.Inv) :
    (∃ t, step s = .next t) ∨
    ((∃ r, step s = .refused r) ∧ ∃ m rest, s.hostPort.inputs = m :: rest ∧ HostMisuse s m) := by
  cases hin : s.hostPort.inputs with
  | nil => exact .inl ⟨s, step_of_no_input hin⟩
  | cons m rest =>
    by_cases htaken : s.hostPort.blocked = false ∨ m = .reset
    · have hstep : step s = runMove m (s.dequeue rest) := by
        obtain hb | rfl := htaken
        · exact step_of_inputs hin hb
        · exact step_of_inputs_reset hin
      rw [hstep]
      refine (runMove_total_or_misuse (inv_of_same (t := s.dequeue rest) h rfl rfl rfl rfl) htaken).imp_right ?_
      exact fun ⟨hrefused, hmisuse⟩ => ⟨hrefused, m, rest, rfl, by cases m <;> exact hmisuse⟩
    · obtain ⟨hb, hm⟩ := not_or.1 htaken
      refine .inl ⟨s, step_of_blocked (by simpa using hb) fun rest' hin' => hm ?_⟩
      rw [hin] at hin'
      exact (List.cons.inj hin').1

/-- Settles O48: from the invariant a step answers a next state or refuses misuse by the host, and so never faults. -/
theorem noStepFaults : Obligations.NoStepFaults := by
  unfold Obligations.NoStepFaults
  intro s h
  obtain ⟨t, e⟩ | ⟨⟨r, e⟩, m, rest, hin, hmisuse⟩ := step_total_or_misuse h
  · simp [e]
  · refine ⟨fun r' => by simp [e], fun _ _ => ⟨rest, ?_⟩⟩
    cases m with
    | loadSource pixels => exact .inl ⟨pixels, hin, hmisuse⟩
    | writeSourcePixel index value => exact .inr ⟨index, value, hin, hmisuse⟩
    | command | readResult | reset => exact hmisuse.elim

end Sys2Proof.Proofs
end
